-- ==== Sys2Proof/Word.lean ====
section
/-! DEFINITION. The words of LIBSPI-CTL: command words, bytes and 16-bit values (00_scope.md R7). -/

namespace Sys2Proof

/-- A command word, 32 bits (30_encoding.md R70). -/
abbrev Word := BitVec 32

/-- A byte: data, buffer bytes, buffer addresses (00_scope.md R5, R7). -/
abbrev Byte := BitVec 8

/-- A 16-bit value: responses and delays (00_scope.md R5). -/
abbrev Half := BitVec 16

/-- A chip-select line number, 5 bits (10_state.md R27). -/
abbrev Line := BitVec 5

end Sys2Proof
end

