-- ==== Sys2Proof/Syntax.lean ====
section
/-! DEFINITION. The commands of LIBSPI-CTL: one constructor per row of spec/opcode_table.json.
Each operand has exactly the range the encoding admits (30_encoding.md R72). -/

namespace Sys2Proof

/-- The fifteen commands (30_encoding.md R73). -/
inductive Instr where
  /-- INIT dbl (40_init.md R90). -/
  | init (dbl : Bool)
  /-- REG id (41_registry.md R104). -/
  | reg (id : Byte)
  /-- SEL id (42_select_deselect.md R110). -/
  | sel (id : Byte)
  /-- DES id (42_select_deselect.md R113). -/
  | des (id : Byte)
  /-- WR byte (43_transfer.md R124). -/
  | wr (byte : Byte)
  /-- WRB base, len (43_transfer.md R126). -/
  | wrb (base len : Byte)
  /-- RD (43_transfer.md R128). -/
  | rd
  /-- RDB base, len (43_transfer.md R130). -/
  | rdb (base len : Byte)
  /-- LDD.LINE line (41_registry.md R100). -/
  | lddLine (line : Line)
  /-- LDD.MODE mode (41_registry.md R101). -/
  | lddMode (mode : BitVec 2)
  /-- LDD.SELD d (41_registry.md R102). -/
  | lddSeld (d : Half)
  /-- LDD.DESD d (41_registry.md R103). -/
  | lddDesd (d : Half)
  /-- STB addr, byte (44_host_access.md R140). -/
  | stb (addr byte : Byte)
  /-- LDB addr (44_host_access.md R141). -/
  | ldb (addr : Byte)
  /-- RDR r (44_host_access.md R142). -/
  | rdr (r : Byte)
  deriving DecidableEq, Repr

end Sys2Proof
end

