-- ==== Sys2Proof/WellFormed.lean ====
section
/-! DEFINITION. Well-formed commands. The types of `Instr` already hold every operand to the range
its encoding admits; what can still be wrong with an operand is what the spec calls a legal
encoding of an illegal operand: a slave id above 7 (30_encoding.md R78) and a reserved register
number (R77, 44_host_access.md R143). Such a command decodes and then faults. -/

namespace Sys2Proof

/-- The reserved register numbers, as 44_host_access.md R143 lists them. -/
def reservedRegNum (r : Byte) : Bool :=
  (5 ≤ r.toNat && r.toNat ≤ 7)
    || (0x13 ≤ r.toNat && r.toNat ≤ 0x2F && (r.toNat - 0x13) % 4 == 0)
    || 0x30 ≤ r.toNat

/-- The operands are ones the rules call legal (30_encoding.md R77, R78). -/
def Instr.wellFormed : Instr → Bool
  | .reg id => decide (id.toNat < 8)
  | .sel id => decide (id.toNat < 8)
  | .des id => decide (id.toNat < 8)
  | .rdr r => !reservedRegNum r
  | .init _ => true
  | .wr _ => true
  | .wrb _ _ => true
  | .rd => true
  | .rdb _ _ => true
  | .lddLine _ => true
  | .lddMode _ => true
  | .lddSeld _ => true
  | .lddDesd _ => true
  | .stb _ _ => true
  | .ldb _ => true

end Sys2Proof
end

