-- ==== Sys2Proof/Decode.lean ====
section
/-! DEFINITION. Decoding and encoding (30_encoding.md R70 to R80). The decoder is total on 32-bit
words and rejects by name; the encoder is written from the same table. -/

namespace Sys2Proof

/-- Why a word is no command (30_encoding.md R75, R76). All three are `ILLEGAL_COMMAND`; the three
names are the model's (log 16). -/
inductive DecodeError where
  /-- Bits 31:24 are no opcode of R73. -/
  | reservedOpcode (op : Byte)
  /-- Opcode 0x10 with `fsel` 0x04 to 0xFF. -/
  | reservedFsel (fsel : Byte)
  /-- A must-be-zero bit of R76 is set. -/
  | mustBeZero
  deriving DecidableEq, Repr

/-- Bits 31:24, the opcode in every format (R70). -/
def opField (w : Word) : Byte := w.extractLsb' 24 8
/-- Bits 23:16: `fsel` of format D, zero in the others (R71). -/
def hiField (w : Word) : Byte := w.extractLsb' 16 8
/-- Bits 15:8: `a8` of format B (R71). -/
def aField (w : Word) : Byte := w.extractLsb' 8 8
/-- Bits 7:0: `imm8` of format I, `b8` of format B (R71). -/
def bField (w : Word) : Byte := w.extractLsb' 0 8
/-- Bits 15:0: `imm16` of format D (R71). -/
def immField (w : Word) : Half := w.extractLsb' 0 16

/-- Format Z: bits 23:0 zero (R71, R76). -/
def decodeZ (w : Word) (i : Instr) : Except DecodeError Instr :=
  if hiField w = 0 ∧ aField w = 0 ∧ bField w = 0 then .ok i else .error .mustBeZero

/-- Format I: bits 23:8 zero (R71, R76). -/
def decodeI (w : Word) (i : Instr) : Except DecodeError Instr :=
  if hiField w = 0 ∧ aField w = 0 then .ok i else .error .mustBeZero

/-- Format B: bits 23:16 zero (R71, R76). -/
def decodeB (w : Word) (i : Instr) : Except DecodeError Instr :=
  if hiField w = 0 then .ok i else .error .mustBeZero

/-- Format D, opcode 0x10: `fsel` chooses the field, LINE and MODE have must-be-zero bits (R73, R76). -/
def decodeD (w : Word) : Except DecodeError Instr :=
  match (hiField w).toNat with
  | 0 => if (immField w).toNat < 32 then .ok (.lddLine ((immField w).setWidth 5)) else .error .mustBeZero
  | 1 => if (immField w).toNat < 4 then .ok (.lddMode ((immField w).setWidth 2)) else .error .mustBeZero
  | 2 => .ok (.lddSeld (immField w))
  | 3 => .ok (.lddDesd (immField w))
  | _ => .error (.reservedFsel (hiField w))

/-- Decoding as a total function from a word to a command or an error (R80). -/
def decode (w : Word) : Except DecodeError Instr :=
  match (opField w).toNat with
  | 0x01 =>
    if (bField w).toNat < 2 then decodeI w (.init ((bField w).getLsbD 0)) else .error .mustBeZero
  | 0x02 => decodeI w (.reg (bField w))
  | 0x03 => decodeI w (.sel (bField w))
  | 0x04 => decodeI w (.des (bField w))
  | 0x05 => decodeI w (.wr (bField w))
  | 0x06 => decodeB w (.wrb (aField w) (bField w))
  | 0x07 => decodeZ w .rd
  | 0x08 => decodeB w (.rdb (aField w) (bField w))
  | 0x10 => decodeD w
  | 0x11 => decodeB w (.stb (aField w) (bField w))
  | 0x12 => decodeI w (.ldb (bField w))
  | 0x13 => decodeI w (.rdr (bField w))
  | _ => .error (.reservedOpcode (opField w))

/-- A word from its four bytes, the most significant first (00_scope.md R7 `{a, b}`). -/
def wordOf (op hi a b : Byte) : Word := op ++ hi ++ a ++ b

/-- A format D word: opcode 0x10, `fsel`, `imm16` (R71). -/
def wordOfD (fsel : Byte) (imm : Half) : Word := (0x10#8) ++ fsel ++ imm

/-- The word of a command (R71 to R73). -/
def encode : Instr → Word
  | .init dbl => wordOf 0x01 0 0 (BitVec.ofBool dbl |>.setWidth 8)
  | .reg id => wordOf 0x02 0 0 id
  | .sel id => wordOf 0x03 0 0 id
  | .des id => wordOf 0x04 0 0 id
  | .wr byte => wordOf 0x05 0 0 byte
  | .wrb base len => wordOf 0x06 0 base len
  | .rd => wordOf 0x07 0 0 0
  | .rdb base len => wordOf 0x08 0 base len
  | .lddLine line => wordOfD 0 (line.setWidth 16)
  | .lddMode mode => wordOfD 1 (mode.setWidth 16)
  | .lddSeld d => wordOfD 2 d
  | .lddDesd d => wordOfD 3 d
  | .stb addr byte => wordOf 0x11 0 addr byte
  | .ldb addr => wordOf 0x12 0 0 addr
  | .rdr r => wordOf 0x13 0 0 r

/-- The opcode of a command (R73). -/
def Instr.opcode : Instr → Byte
  | .init _ => 0x01
  | .reg _ => 0x02
  | .sel _ => 0x03
  | .des _ => 0x04
  | .wr _ => 0x05
  | .wrb _ _ => 0x06
  | .rd => 0x07
  | .rdb _ _ => 0x08
  | .lddLine _ => 0x10
  | .lddMode _ => 0x10
  | .lddSeld _ => 0x10
  | .lddDesd _ => 0x10
  | .stb _ _ => 0x11
  | .ldb _ => 0x12
  | .rdr _ => 0x13

/-- `match` of the command's row in the table of R74. -/
def Instr.matchBits : Instr → Word
  | .init _ => 0x01000000
  | .reg _ => 0x02000000
  | .sel _ => 0x03000000
  | .des _ => 0x04000000
  | .wr _ => 0x05000000
  | .wrb _ _ => 0x06000000
  | .rd => 0x07000000
  | .rdb _ _ => 0x08000000
  | .lddLine _ => 0x10000000
  | .lddMode _ => 0x10010000
  | .lddSeld _ => 0x10020000
  | .lddDesd _ => 0x10030000
  | .stb _ _ => 0x11000000
  | .ldb _ => 0x12000000
  | .rdr _ => 0x13000000

/-- `mask` of the command's row in the table of R74. -/
def Instr.maskBits : Instr → Word
  | .init _ => 0xFFFFFFFE
  | .reg _ => 0xFFFFFF00
  | .sel _ => 0xFFFFFF00
  | .des _ => 0xFFFFFF00
  | .wr _ => 0xFFFFFF00
  | .wrb _ _ => 0xFFFF0000
  | .rd => 0xFFFFFFFF
  | .rdb _ _ => 0xFFFF0000
  | .lddLine _ => 0xFFFFFFE0
  | .lddMode _ => 0xFFFFFFFC
  | .lddSeld _ => 0xFFFF0000
  | .lddDesd _ => 0xFFFF0000
  | .stb _ _ => 0xFFFF0000
  | .ldb _ => 0xFFFFFF00
  | .rdr _ => 0xFFFFFF00

/-- The rows of R74 as pairs of match and mask, one a command. -/
def opcodeRows : List (Word × Word) :=
  [(0x01000000, 0xFFFFFFFE), (0x02000000, 0xFFFFFF00), (0x03000000, 0xFFFFFF00),
    (0x04000000, 0xFFFFFF00), (0x05000000, 0xFFFFFF00), (0x06000000, 0xFFFF0000),
    (0x07000000, 0xFFFFFFFF), (0x08000000, 0xFFFF0000)]
  ++ [(0x10000000, 0xFFFFFFE0), (0x10010000, 0xFFFFFFFC), (0x10020000, 0xFFFF0000),
    (0x10030000, 0xFFFF0000), (0x11000000, 0xFFFF0000), (0x12000000, 0xFFFFFF00),
    (0x13000000, 0xFFFFFF00)]

/-- The command the decoder reads from a word numbered as spec/opcode_table.json numbers it: a
command is one 32-bit word, presented whole, so there are no further words and no byte order
(20_memory.md R53); bits above `nbits` are 0. -/
def decodeTableWord (nbits w : Nat) : Option Instr :=
  match decode (BitVec.ofNat 32 (w % 2 ^ nbits)) with
  | .ok i => some i
  | .error _ => none

end Sys2Proof
end

