-- ==== Sys2Proof/Config.lean ====
section
/-! DEFINITION. What the spec fixes for the block, what it leaves open, and the free values.
The opaque constants have no meaning Lean can see: a claim holds whatever they are. -/

namespace Sys2Proof.Config

/-- Descriptor slots (00_scope.md R5). -/
def nslots : Nat := 8
/-- Bus modes (00_scope.md R5). -/
def nmodes : Nat := 4
/-- Bits per transfer (00_scope.md R5). -/
def xferBits : Nat := 8
/-- Longest burst in bytes (00_scope.md R5). -/
def maxBurst : Nat := 255
/-- Chip-select output ports (00_scope.md R5). -/
def nports : Nat := 4
/-- Pins of a port (00_scope.md R5). -/
def npins : Nat := 8
/-- Chip-select lines (00_scope.md R5, derived). -/
def nlines : Nat := nports * npins
/-- Bytes of the burst buffer (00_scope.md R5). -/
def bufsize : Nat := 256
/-- Fractional bits of a delay: one unit is 1/16 microsecond (00_scope.md R5). -/
def delayFrac : Nat := 4

/-- `F_SCK_BASE`, the default shift-clock frequency: OPEN (00_scope.md R5, 10_state.md R17;
log 13). -/
opaque fSckBase : Nat

/-- `DELAY_SLACK`, how late a delay may end: OPEN, no rule depends on it
(00_scope.md R5; log 13). -/
opaque delaySlack : Nat

/-- FREE VALUE. What the `n`-th draw of an unspecified value gives (20_memory.md R52, R57,
93_implementation_defined.md U5; log 2). -/
opaque freeBits : Nat → Half

/-- FREE VALUE. The byte the slave environment supplies at draw `n`, when no answer is listed in
the state (43_transfer.md R122, 93_implementation_defined.md U11; log 8). -/
opaque slaveByte : Nat → Byte

/-- FREE VALUE. How many units beyond one pass in a waiting step at draw `n` (10_state.md R40;
log 7). -/
opaque timeStep : Nat → Nat

end Sys2Proof.Config
end

