-- ==== Sys2Proof/Machine/State.lean ====
section
/-! DEFINITION. The state of the block (10_state.md R10), of its environment, and the reset state. -/

namespace Sys2Proof.Machine

/-- A slot of the slave descriptor table (10_state.md R13). -/
structure Slot where
  valid : Bool
  line : Line
  mode : BitVec 2
  seldly : Half
  desdly : Half
  deriving DecidableEq, Repr

/-- The micro-sequencer record (10_state.md R33). -/
structure Seq where
  cmd : Option Instr
  phase : Nat
  idx : Byte
  deadline : Nat
  deriving DecidableEq, Repr

/-- The fault causes (60_exceptions.md R152). -/
inductive Cause where
  | illegalCommand
  | notInitialised
  | reinit
  | invalidId
  | notRegistered
  | alreadySelected
  | notSelected
  | regWhileSelected
  deriving DecidableEq, Repr

/-- The events of the observation (10_state.md R42). -/
inductive Event where
  | accept (word : Word) (t : Nat)
  | faultEv (cause : Cause) (word : Word) (t : Nat)
  | modeSet (mode : BitVec 2) (t : Nat)
  | csDrive (line : Line) (level : Bool) (t : Nat)
  | xferStart (out : Byte) (mode : BitVec 2) (dbl : Bool) (t : Nat)
  | xferEnd (out inp : Byte) (t : Nat)
  | bufStore (addr value : Byte) (t : Nat)
  | done (word : Word) (r : Option Half) (t : Nat)
  deriving DecidableEq, Repr

/-- What the environment can do between two steps of the block (00_scope.md R6; log 10). -/
inductive EnvMove where
  /-- Time passes, `k + 1` units (10_state.md R40). -/
  | time (k : Nat)
  /-- The `rst` port (70_reset_and_hazards.md R180, R182). -/
  | rst
  /-- The caller sets the directions of port `p` (10_state.md R29). -/
  | dir (p : BitVec 2) (v : Byte)
  /-- The slave's wiring breaks or is mended (60_exceptions.md R166). -/
  | wire (ok : Bool)
  /-- Time stops or goes on passing by itself while the block waits (60_exceptions.md R170,
  70_reset_and_hazards.md R195 FA2; log 7). -/
  | clock (runs : Bool)
  deriving DecidableEq, Repr

/-- Whose step comes next: a move of the environment, or one step of the block and its host. A list
of turns interleaves them in any order (00_scope.md R6, 60_exceptions.md R164; log 10). -/
inductive Turn where
  | env (m : EnvMove)
  | block
  deriving DecidableEq, Repr

/-- The whole machine. The first part is the table of 10_state.md R10 in its order; then the
environment and the observation (R29, R40, R42); then the model's own fields (INVENTORY.md). -/
structure State where
  dsLine : Line
  dsMode : BitVec 2
  dsSel : Half
  dsDes : Half
  resp : Half
  sdt : Vector Slot 8
  cfg : Byte
  statTc : Bool
  statBusy : Bool
  data : Byte
  busdir : BitVec 2
  sessInited : Bool
  sessSelv : Bool
  sessSelid : BitVec 3
  fcause : Byte
  fcmd : Word
  csout : Vector Byte 4
  buf : List Host.Cell
  seq : Seq
  engCnt : BitVec 4
  -- the environment and the observation
  time : Nat
  csdir : Vector Byte 4
  hist : List Event
  -- which unspecified elements have been written since reset (log 1)
  respKnown : Bool
  dataKnown : Bool
  csKnown : Vector Byte 4
  -- the model's own: draws, the host's words, the slave's answers, whose turn it is
  fresh : Nat
  host : List Word
  answers : List Byte
  turns : List Turn
  wired : Bool
  timeRuns : Bool
  bitView : Bool
  engOut : Byte
  deriving DecidableEq, Repr

/-- Why a step stops the machine. -/
inductive Fault where
  /-- Raised by every meaning (`command`), never by `step`: a command is given to `exec` while
  the block is not ready and is not running that very command. The host has no such step
  (60_exceptions.md R168, 93_implementation_defined.md U4 "no move"). Safe: the model stops. -/
  | portNotReady
  deriving DecidableEq, Repr

/-- Why the model has no meaning for an instruction. -/
inductive Refusal where
  /-- Raised by no arm: every command has its meaning (60_exceptions.md R170 "Refused: nothing").
  Safe: the model stops. -/
  | notModelled (mnemonic : String)
  deriving DecidableEq, Repr

/-- The outcome of a step. -/
abbrev Result := Host.Outcome State Fault Refusal

/-- A slot at reset: VALID 0; the other fields are unspecified and hold 0 (log 1). -/
def Slot.reset : Slot := { valid := false, line := 0, mode := 0, seldly := 0, desdly := 0 }

/-- An idle sequencer (10_state.md R33): no command; the other three fields hold 0 (log 4). -/
def Seq.reset : Seq := { cmd := none, phase := 0, idx := 0, deadline := 0 }

/-- The machine right after reset (70_reset_and_hazards.md R180): every element at the value of the
table of 10_state.md R10; the unspecified ones hold 0 and are marked not written (log 1). -/
def State.reset : State :=
  { dsLine := 0, dsMode := 0, dsSel := 0, dsDes := 0
    resp := 0
    sdt := Vector.replicate 8 Slot.reset
    cfg := 0x00
    statTc := false, statBusy := false
    data := 0
    busdir := 0
    sessInited := false, sessSelv := false, sessSelid := 0
    fcause := 0x00, fcmd := 0x00000000
    csout := Vector.replicate 4 0
    buf := []
    seq := Seq.reset
    engCnt := 0
    time := 0
    csdir := Vector.replicate 4 0
    hist := []
    respKnown := false, dataKnown := false
    csKnown := Vector.replicate 4 0
    fresh := 0
    host := [], answers := [], turns := []
    wired := true, timeRuns := true, bitView := false, engOut := 0 }

end Sys2Proof.Machine
end

