-- ==== Sys2Proof/Machine/Operands.lean ====
section
/-! DEFINITION. Operand forms (30_encoding.md R72, 10_state.md R27, 20_memory.md R59), access to the
descriptor table and the port latches by operand, the register-number map (20_memory.md R56), and
the checks each command makes at acceptance (60_exceptions.md R160). -/

namespace Sys2Proof.Machine

/-- `id[2:0]`, the slot an id names (42_select_deselect.md R110). -/
def slotIx (id : Byte) : BitVec 3 := id.setWidth 3

/-- Descriptor slot `i` of the table. -/
def slotAt (t : Vector Slot 8) (i : BitVec 3) : Slot := t[i.toNat]'(by have := i.isLt; omega)

/-- The table with slot `i` replaced. -/
def setSlot (t : Vector Slot 8) (i : BitVec 3) (x : Slot) : Vector Slot 8 :=
  t.set i.toNat x (by have := i.isLt; omega)

/-- `line[4:3]`, the port of a line (10_state.md R27). -/
def linePort (l : Line) : BitVec 2 := l.extractLsb' 3 2

/-- `line[2:0]`, the pin of a line (10_state.md R27). -/
def linePin (l : Line) : BitVec 3 := l.extractLsb' 0 3

/-- `line = port * 8 + pin` (10_state.md R27). -/
def lineOf (port : BitVec 2) (pin : BitVec 3) : Line := port ++ pin

/-- The 8-bit value of port `p`. -/
def portAt (v : Vector Byte 4) (p : BitVec 2) : Byte := v[p.toNat]'(by have := p.isLt; omega)

/-- The four ports with port `p` replaced. -/
def setPort (v : Vector Byte 4) (p : BitVec 2) (x : Byte) : Vector Byte 4 :=
  v.set p.toNat x (by have := p.isLt; omega)

/-- A byte with bit `n` set to `b` and the other seven as they were. -/
def setBit (v : Byte) (n : BitVec 3) (b : Bool) : Byte :=
  let m : Byte := 1#8 <<< n.toNat
  if b then v ||| m else v &&& ~~~m

/-- The four ports with the one bit of line `l` set to `b` (10_state.md R26, R28). -/
def setLineBit (v : Vector Byte 4) (l : Line) (b : Bool) : Vector Byte 4 :=
  setPort v (linePort l) (setBit (portAt v (linePort l)) (linePin l) b)

/-- The bit of line `l` in the four ports. -/
def lineBit (v : Vector Byte 4) (l : Line) : Bool :=
  (portAt v (linePort l)).getLsbD (linePin l).toNat

/-- `ea(i) = (base + i) mod 256` (20_memory.md R59). -/
def ea (base i : Byte) : Byte := base + i

/-- What a register number names (20_memory.md R56). -/
inductive RegName where
  | cfg
  | stat
  | data
  | busdir
  | sess
  | csout (p : BitVec 2)
  | dsLine
  | dsMode
  | dsSel
  | dsDes
  | word0 (i : BitVec 3)
  | seldly (i : BitVec 3)
  | desdly (i : BitVec 3)
  deriving DecidableEq, Repr

/-- The register-number map; `none` is a reserved number (20_memory.md R56). -/
def regOf (r : Byte) : Option RegName :=
  if r.toNat < 0x10 then
    match r.toNat with
    | 0x00 => some .cfg
    | 0x01 => some .stat
    | 0x02 => some .data
    | 0x03 => some .busdir
    | 0x04 => some .sess
    | 0x08 => some (.csout 0)
    | 0x09 => some (.csout 1)
    | 0x0A => some (.csout 2)
    | 0x0B => some (.csout 3)
    | 0x0C => some .dsLine
    | 0x0D => some .dsMode
    | 0x0E => some .dsSel
    | 0x0F => some .dsDes
    | _ => none
  else if r.toNat < 0x30 then
    let i : BitVec 3 := BitVec.ofNat 3 ((r.toNat - 0x10) / 4)
    match (r.toNat - 0x10) % 4 with
    | 0 => some (.word0 i)
    | 1 => some (.seldly i)
    | 2 => some (.desdly i)
    | _ => none
  else none

/-- The register number of a register: the map of R56 read from right to left. -/
def numOf : RegName → Byte
  | .cfg => 0x00
  | .stat => 0x01
  | .data => 0x02
  | .busdir => 0x03
  | .sess => 0x04
  | .csout p => 0x08 + p.setWidth 8
  | .dsLine => 0x0C
  | .dsMode => 0x0D
  | .dsSel => 0x0E
  | .dsDes => 0x0F
  | .word0 i => 0x10 + 4 * i.setWidth 8
  | .seldly i => 0x11 + 4 * i.setWidth 8
  | .desdly i => 0x12 + 4 * i.setWidth 8

/-- The first failing check of a list of checks, in order (60_exceptions.md R160). -/
def firstFailing : List (Bool × Cause) → Option Cause
  | [] => none
  | (bad, c) :: rest => if bad then some c else firstFailing rest

/-- INIT: `REINIT` (60_exceptions.md R155, R160). -/
def initCheck (s : State) : Option Cause :=
  firstFailing [(s.sessInited, .reinit)]

/-- REG: `NOT_INITIALISED`, `INVALID_ID`, `REG_WHILE_SELECTED` (R160). -/
def regCheck (id : Byte) (s : State) : Option Cause :=
  firstFailing
    [(!s.sessInited, .notInitialised), (decide (8 ≤ id.toNat), .invalidId),
      (s.sessSelv, .regWhileSelected)]

/-- SEL: `NOT_INITIALISED`, `INVALID_ID`, `NOT_REGISTERED`, `ALREADY_SELECTED` (R160). -/
def selCheck (id : Byte) (s : State) : Option Cause :=
  firstFailing
    [(!s.sessInited, .notInitialised), (decide (8 ≤ id.toNat), .invalidId),
      (!(slotAt s.sdt (slotIx id)).valid, .notRegistered), (s.sessSelv, .alreadySelected)]

/-- DES: `NOT_INITIALISED`, `INVALID_ID`, `NOT_REGISTERED`, `NOT_SELECTED` (R160, R159). -/
def desCheck (id : Byte) (s : State) : Option Cause :=
  firstFailing
    [(!s.sessInited, .notInitialised), (decide (8 ≤ id.toNat), .invalidId),
      (!(slotAt s.sdt (slotIx id)).valid, .notRegistered),
      (!s.sessSelv || decide (s.sessSelid.setWidth 8 ≠ id), .notSelected)]

/-- WR, WRB, RD, RDB: `NOT_INITIALISED`, `NOT_SELECTED` (R160). -/
def xferCheck (s : State) : Option Cause :=
  firstFailing [(!s.sessInited, .notInitialised), (!s.sessSelv, .notSelected)]

/-- LDD.x, STB, LDB: no check beyond decoding (R160). -/
def noCheck (_ : State) : Option Cause := none

/-- RDR: `ILLEGAL_COMMAND` for a reserved number (R160, 44_host_access.md R143). -/
def rdrCheck (r : Byte) (_ : State) : Option Cause :=
  firstFailing [((regOf r).isNone, .illegalCommand)]

end Sys2Proof.Machine
end

