-- ==== Sys2Proof/Machine/Flags.lean ====
section
/-! DEFINITION. Every flag, register layout and derived signal: the fields of CFG, the bytes of STAT,
BUSDIR and SESS, FAULT and ready, the cause codes, what RDR returns (20_memory.md R56, R57), and the
rate (10_state.md R17). -/

namespace Sys2Proof.Machine

/-- `CFG.EN`, bit 7 (10_state.md R15). -/
def cfgEn (c : Byte) : Bool := c.getLsbD 7
/-- `CFG.MSTR`, bit 6 (R15). -/
def cfgMstr (c : Byte) : Bool := c.getLsbD 6
/-- `CFG.DBL`, bit 5 (R15). -/
def cfgDbl (c : Byte) : Bool := c.getLsbD 5
/-- `CFG[4:2]`, reserved (R15). -/
def cfgReserved (c : Byte) : BitVec 3 := c.extractLsb' 2 3
/-- `CFG.MODE`, bits 1:0 (R15). -/
def cfgMode (c : Byte) : BitVec 2 := c.extractLsb' 0 2

/-- CFG after INIT: EN 1, MSTR 1, DBL `dbl`, bits 4:0 kept (40_init.md R90). -/
def cfgInit (c : Byte) (dbl : Bool) : Byte :=
  1#1 ++ 1#1 ++ BitVec.ofBool dbl ++ c.extractLsb' 0 5

/-- `{CFG[7:2], mode}` (42_select_deselect.md R110 phase 1). -/
def cfgSetMode (c : Byte) (m : BitVec 2) : Byte := c.extractLsb' 2 6 ++ m

/-- `CPOL = MODE[1]` (10_state.md R16, from general knowledge; log 12). -/
def cpol (m : BitVec 2) : Bool := m.getLsbD 1
/-- `CPHA = MODE[0]` (10_state.md R16, from general knowledge; log 12). -/
def cpha (m : BitVec 2) : Bool := m.getLsbD 0

/-- `f_SCK` for a value of DBL (10_state.md R17). -/
def sckFreq (dbl : Bool) : Nat := if dbl then 2 * Config.fSckBase else Config.fSckBase

/-- Clock periods of an exchange; it lasts this many over `sckFreq` (70_reset_and_hazards.md R197). -/
def exchangePeriods : Nat := Config.xferBits

/-- `STAT = {TC, 0b000000, BUSY}` (10_state.md R19). -/
def statByte (s : State) : Byte := BitVec.ofBool s.statTc ++ 0#6 ++ BitVec.ofBool s.statBusy

/-- `BUSDIR.SCK_OE`, bit 0 (10_state.md R22). -/
def sckOe (s : State) : Bool := s.busdir.getLsbD 0
/-- `BUSDIR.MOSI_OE`, bit 1 (10_state.md R22). -/
def mosiOe (s : State) : Bool := s.busdir.getLsbD 1

/-- `SESS = {SELV, INITED, 0b000, SELID}` (10_state.md R23). -/
def sessByte (s : State) : Byte :=
  BitVec.ofBool s.sessSelv ++ BitVec.ofBool s.sessInited ++ 0#3 ++ s.sessSelid

/-- Word 0 of a slot: VALID bit 15, MODE bits 9:8, LINE bits 4:0 (20_memory.md R56). -/
def slotWord0 (x : Slot) : Half := BitVec.ofBool x.valid ++ 0#5 ++ x.mode ++ 0#3 ++ x.line

/-- The code of a cause (60_exceptions.md R152). -/
def causeCode : Cause → Byte
  | .illegalCommand => 1
  | .notInitialised => 2
  | .reinit => 3
  | .invalidId => 4
  | .notRegistered => 5
  | .alreadySelected => 6
  | .notSelected => 7
  | .regWhileSelected => 8

/-- `FAULT = (FCAUSE != 0)` (10_state.md R24). -/
def faulted (s : State) : Bool := s.fcause != 0

/-- `SEQ` idle: no command (10_state.md R33). -/
def seqIdle (s : State) : Bool := s.seq.cmd.isNone

/-- `cmd_ready`: idle and no fault (10_state.md R37). -/
def ready (s : State) : Bool := seqIdle s && !faulted s

/-- The latch bit of a chip-select line (10_state.md R26). -/
def latch (s : State) (l : Line) : Bool := lineBit s.csout l

/-- What the register's element holds, laid out as 20_memory.md R56 says. -/
def regStored (s : State) : RegName → Half
  | .cfg => s.cfg.setWidth 16
  | .stat => (statByte s).setWidth 16
  | .data => s.data.setWidth 16
  | .busdir => s.busdir.setWidth 16
  | .sess => (sessByte s).setWidth 16
  | .csout p => (portAt s.csout p).setWidth 16
  | .dsLine => s.dsLine.setWidth 16
  | .dsMode => s.dsMode.setWidth 16
  | .dsSel => s.dsSel
  | .dsDes => s.dsDes
  | .word0 i => slotWord0 (slotAt s.sdt i)
  | .seldly i => (slotAt s.sdt i).seldly
  | .desdly i => (slotAt s.sdt i).desdly

/-- The bits of that value which are unspecified now: DATA before its first load, CSOUT bits no
command has driven, the fields of a slot with VALID 0 (20_memory.md R57). -/
def regUnspecified (s : State) : RegName → Half
  | .data => if s.dataKnown then 0 else 0x00FF
  | .csout p => (~~~(portAt s.csKnown p)).setWidth 16
  | .word0 i => if (slotAt s.sdt i).valid then 0 else 0x031F
  | .seldly i => if (slotAt s.sdt i).valid then 0 else 0xFFFF
  | .desdly i => if (slotAt s.sdt i).valid then 0 else 0xFFFF
  | .cfg => 0
  | .stat => 0
  | .busdir => 0
  | .sess => 0
  | .dsLine => 0
  | .dsMode => 0
  | .dsSel => 0
  | .dsDes => 0

/-- `v` with the bits of `u` taken from `free` (20_memory.md R57; log 2). -/
def withFree (v u free : Half) : Half := (v &&& ~~~u) ||| (free &&& u)

/-- `RegRead(r)`: the stored value, its unspecified bits drawn freely (20_memory.md R56, R57). -/
def regRead (s : State) (r : RegName) : Half :=
  withFree (regStored s r) (regUnspecified s r) (Config.freeBits s.fresh)

end Sys2Proof.Machine
end

