-- ==== Sys2Proof/Machine/Ops.lean ====
section
/-! DEFINITION. The named operations: the buffer, the event history, free draws, time, pins, the
sequencer's control, raising a fault, completion, and the frame every command shares. -/

namespace Sys2Proof.Machine

/-! ### The burst buffer (20_memory.md R51, R52) -/

/-- What an unlisted buffer byte reads as: no value; a read of it is a free draw (log 3). -/
def unlistedByte : Option Byte := none

/-- The byte listed at an address. -/
def memLookup : List Host.Cell → Nat → Option Byte
  | [], _ => unlistedByte
  | (k, b) :: rest, a => if k = a then some b else memLookup rest a

/-- The listing with `v` at `a`, in canonical form. -/
def memStore : List Host.Cell → Nat → Byte → List Host.Cell
  | [], a, v => [(a, v)]
  | (k, b) :: rest, a, v =>
    if a < k then (a, v) :: (k, b) :: rest
    else if a = k then (a, v) :: rest
    else (k, b) :: memStore rest a v

/-- Canonical form from a lower bound: addresses rise strictly and stay below 256. -/
def memWfFrom : Nat → List Host.Cell → Bool
  | _, [] => true
  | lo, (k, _) :: rest => decide (lo ≤ k) && decide (k < 256) && memWfFrom (k + 1) rest

/-- The canonical form of the buffer's listing. -/
def memWf (m : List Host.Cell) : Bool := memWfFrom 0 m

/-- `BUF[a]`, none where nothing has been written since reset. -/
def bufAt (s : State) (a : Byte) : Option Byte := memLookup s.buf a.toNat

/-! ### Events, draws and time -/

/-- Append an event to the history (10_state.md R42). -/
def record (e : Event) (s : State) : State := { s with hist := s.hist ++ [e] }

/-- One draw of a free value has been made (log 2). -/
def drawn (s : State) : State := { s with fresh := s.fresh + 1 }

/-- A step in which the block waits: time passes, by one unit or more, unless it has stopped
(10_state.md R40, 60_exceptions.md R170; log 7). -/
def waits (s : State) : State :=
  { s with
    time := if s.timeRuns then s.time + 1 + Config.timeStep s.fresh else s.time
    fresh := s.fresh + 1 }

/-- `BufRead(a)`: the byte, or a free draw where nothing has been written (20_memory.md R52). -/
def bufRead (a : Byte) (s : State) : Byte × State :=
  match bufAt s a with
  | some b => (b, s)
  | none => ((Config.freeBits s.fresh).setWidth 8, drawn s)

/-- `BufWrite(a, v)` with its event (20_memory.md R52). -/
def bufWrite (a v : Byte) (s : State) : State :=
  record (.bufStore a v s.time) { s with buf := memStore s.buf a.toNat v }

/-! ### Pins and the delay timer -/

/-- `DrivePin(line, level)` (10_state.md R28; the event's name, log 15). -/
def drivePin (l : Line) (level : Bool) (s : State) : State :=
  record (.csDrive l level s.time)
    { s with csout := setLineBit s.csout l level, csKnown := setLineBit s.csKnown l true }

/-- Arm the delay: `SEQ.DEADLINE <- T + d` (10_state.md R41). -/
def arm (d : Half) (s : State) : State :=
  { s with seq := { s.seq with deadline := s.time + d.toNat } }

/-- The delay has passed: `T >= SEQ.DEADLINE` (10_state.md R41). -/
def expired (s : State) : Bool := decide (s.seq.deadline ≤ s.time)

/-! ### The sequencer -/

/-- Go to a phase (10_state.md R34). -/
def goto (p : Nat) (s : State) : State := { s with seq := { s.seq with phase := p } }

/-- `SEQ.IDX <- SEQ.IDX + 1` (43_transfer.md R126). -/
def nextIdx (s : State) : State := { s with seq := { s.seq with idx := s.seq.idx + 1 } }

/-- Start an accepted command: CMD, PHASE 1, IDX 0 (10_state.md R34). -/
def start (i : Instr) (s : State) : State :=
  { s with seq := { s.seq with cmd := some i, phase := 1, idx := 0 } }

/-- `done`: idle again, with the `Done` event (10_state.md R35, R38). -/
def done (i : Instr) (s : State) : State :=
  record (.done (encode i) none s.time) { s with seq := { s.seq with cmd := none } }

/-- `done(v)`: `RESP <- v` first (10_state.md R38). -/
def doneVal (i : Instr) (v : Half) (s : State) : State :=
  record (.done (encode i) (some v) s.time)
    { s with resp := v, respKnown := true, seq := { s.seq with cmd := none } }

/-! ### Faults -/

/-- `raise Fault(cause)`: FCAUSE, FCMD and the event, nothing else (60_exceptions.md R151). -/
def raise (c : Cause) (w : Word) (s : State) : State :=
  record (.faultEv c w s.time) { s with fcause := causeCode c, fcmd := w }

/-- The accept step of a decoded command: its checks, then a fault or the start
(10_state.md R37, 60_exceptions.md R150). -/
def accept (i : Instr) (check : State → Option Cause) (s : State) : State :=
  match check s with
  | some c => raise c (encode i) s
  | none => start i s

/-- One step of the sequencer for command `i`: the accept step when the block is ready; the
micro-step of the phase when `i` is running. In any other state the command is not at the port
and not in the sequencer: no such step exists (60_exceptions.md R168; log 6). -/
def command (i : Instr) (check : State → Option Cause) (micro : Nat → State → State) (s : State) :
    Result :=
  if faulted s then .fault .portNotReady
  else
    match s.seq.cmd with
    | none => .next (accept i check s)
    | some j => if j = i then .next (micro s.seq.phase s) else .fault .portNotReady

/-- The micro-steps of a command that is one atomic step, in phase 1; no other phase is enabled
and time passes (10_state.md R34, R40). -/
def onePhase (act : State → State) (p : Nat) (s : State) : State :=
  match p with
  | 1 => act s
  | _ => waits s

/-! ### The exchange (43_transfer.md R120, R121) -/

/-- The load step (43_transfer.md R121). DATA is specified from here on (log 17). -/
def load (b : Byte) (s : State) : State :=
  record (.xferStart b (cfgMode s.cfg) (cfgDbl s.cfg) s.time)
    { s with data := b, dataKnown := true, statTc := false, statBusy := true }

end Sys2Proof.Machine
end

