-- ==== Sys2Proof/Machine/HostAccess.lean ====
section
/-! DEFINITION. Host access to the buffer and the registers: STB, LDB, RDR
(44_host_access.md R140 to R143). -/

namespace Sys2Proof.Machine

/-- STB addr, byte (44_host_access.md R140). -/
def execStb (addr byte : Byte) (s : State) : Result :=
  command (.stb addr byte) noCheck
    (onePhase fun s => done (.stb addr byte) (bufWrite addr byte s)) s

/-- The one step of LDB (44_host_access.md R141). -/
def ldbStep (addr : Byte) (s : State) : State :=
  let r := bufRead addr s
  doneVal (.ldb addr) (r.1.setWidth 16) r.2

/-- LDB addr (44_host_access.md R141). -/
def execLdb (addr : Byte) (s : State) : Result :=
  command (.ldb addr) noCheck (onePhase (ldbStep addr)) s

/-- The one step of RDR: the register's value, its unspecified bits a free draw
(44_host_access.md R142, 20_memory.md R57). A reserved number never gets here: the accept step
faults (R143); the phase is then not enabled. -/
def rdrStep (r : Byte) (s : State) : State :=
  match regOf r with
  | some n => doneVal (.rdr r) (regRead s n) (drawn s)
  | none => waits s

/-- RDR r (44_host_access.md R142). -/
def execRdr (r : Byte) (s : State) : Result :=
  command (.rdr r) (rdrCheck r) (onePhase (rdrStep r)) s

end Sys2Proof.Machine
end

