-- ==== Sys2Proof/Machine/Init.lean ====
section
/-! DEFINITION. Peripheral initialisation: INIT (40_init.md R90, R91). -/

namespace Sys2Proof.Machine

/-- The register writes of INIT, one atomic step (40_init.md R90). -/
def initWrites (dbl : Bool) (s : State) : State :=
  { s with busdir := 0b11, cfg := cfgInit s.cfg dbl, sessInited := true }

/-- INIT dbl (40_init.md R90). -/
def execInit (dbl : Bool) (s : State) : Result :=
  command (.init dbl) initCheck (onePhase fun s => done (.init dbl) (initWrites dbl s)) s

end Sys2Proof.Machine
end

