-- ==== Sys2Proof/Machine/Registry.lean ====
section
/-! DEFINITION. Descriptor staging and registration: LDD.LINE, LDD.MODE, LDD.SELD, LDD.DESD, REG
(41_registry.md R100 to R104). -/

namespace Sys2Proof.Machine

/-- LDD.LINE line (41_registry.md R100). -/
def execLddLine (line : Line) (s : State) : Result :=
  command (.lddLine line) noCheck
    (onePhase fun s => done (.lddLine line) { s with dsLine := line }) s

/-- LDD.MODE mode (41_registry.md R101). -/
def execLddMode (mode : BitVec 2) (s : State) : Result :=
  command (.lddMode mode) noCheck
    (onePhase fun s => done (.lddMode mode) { s with dsMode := mode }) s

/-- LDD.SELD d (41_registry.md R102). -/
def execLddSeld (d : Half) (s : State) : Result :=
  command (.lddSeld d) noCheck (onePhase fun s => done (.lddSeld d) { s with dsSel := d }) s

/-- LDD.DESD d (41_registry.md R103). -/
def execLddDesd (d : Half) (s : State) : Result :=
  command (.lddDesd d) noCheck (onePhase fun s => done (.lddDesd d) { s with dsDes := d }) s

/-- The staged descriptor as a valid slot (41_registry.md R104 phase 1). -/
def stagedSlot (s : State) : Slot :=
  { valid := true, line := s.dsLine, mode := s.dsMode, seldly := s.dsSel, desdly := s.dsDes }

/-- The phases of REG: copy the descriptor, then drive the slot's line high (41_registry.md R104). -/
def regPhase (id : Byte) (p : Nat) (s : State) : State :=
  match p with
  | 1 => goto 2 { s with sdt := setSlot s.sdt (slotIx id) (stagedSlot s) }
  | 2 => done (.reg id) (drivePin (slotAt s.sdt (slotIx id)).line true s)
  | _ => waits s

/-- REG id (41_registry.md R104). -/
def execReg (id : Byte) (s : State) : Result := command (.reg id) (regCheck id) (regPhase id) s

end Sys2Proof.Machine
end

