-- ==== Sys2Proof/Machine/Select.lean ====
section
/-! DEFINITION. Chip-select sequencing: SEL, DES (42_select_deselect.md R110 to R115). -/

namespace Sys2Proof.Machine

/-- The phases of SEL: mode, chip-select low and arm, wait (42_select_deselect.md R110, R111). -/
def selPhase (id : Byte) (p : Nat) (s : State) : State :=
  let x := slotAt s.sdt (slotIx id)
  match p with
  | 1 => goto 2 (record (.modeSet x.mode s.time) { s with cfg := cfgSetMode s.cfg x.mode })
  | 2 => goto 3 (arm x.seldly
      { drivePin x.line false s with sessSelv := true, sessSelid := slotIx id })
  | 3 => if expired s then done (.sel id) s else waits s
  | _ => waits s

/-- SEL id (42_select_deselect.md R110). -/
def execSel (id : Byte) (s : State) : Result := command (.sel id) (selCheck id) (selPhase id) s

/-- The phases of DES: chip-select high and arm, wait (42_select_deselect.md R113). -/
def desPhase (id : Byte) (p : Nat) (s : State) : State :=
  let x := slotAt s.sdt (slotIx id)
  match p with
  | 1 => goto 2 (arm x.desdly { drivePin x.line true s with sessSelv := false })
  | 2 => if expired s then done (.des id) s else waits s
  | _ => waits s

/-- DES id (42_select_deselect.md R113). -/
def execDes (id : Byte) (s : State) : Result := command (.des id) (desCheck id) (desPhase id) s

end Sys2Proof.Machine
end

