-- ==== Sys2Proof/Machine/Transfer.lean ====
section
/-! DEFINITION. Byte transfer: WR, WRB, RD, RDB (43_transfer.md R120 to R133). The shift step between
the load and the poll is the engine's (Engine.lean). -/

namespace Sys2Proof.Machine

/-- The phases of a single exchange that answers the incoming byte: load, then poll
(43_transfer.md R124, R128). -/
def singlePhase (i : Instr) (b : Byte) (p : Nat) (s : State) : State :=
  match p with
  | 1 => goto 2 (load b s)
  | 2 => if s.statTc then doneVal i (s.data.setWidth 16) s else waits s
  | _ => waits s

/-- WR byte (43_transfer.md R124). -/
def execWr (byte : Byte) (s : State) : Result :=
  command (.wr byte) xferCheck (singlePhase (.wr byte) byte) s

/-- RD: the exchange of 0x00 (43_transfer.md R128). -/
def execRd (s : State) : Result := command .rd xferCheck (singlePhase .rd 0x00) s

/-- The load phase of WRB: the next buffer byte goes out (43_transfer.md R126 phase 1). -/
def wrbLoad (base : Byte) (s : State) : State :=
  let r := bufRead (ea base s.seq.idx) s
  goto 2 (load r.1 r.2)

/-- The phases of WRB (43_transfer.md R126). -/
def wrbPhase (base len : Byte) (p : Nat) (s : State) : State :=
  match p with
  | 1 => if s.seq.idx = len then done (.wrb base len) s else wrbLoad base s
  | 2 => if s.statTc then goto 1 (nextIdx s) else waits s
  | _ => waits s

/-- WRB base, len (43_transfer.md R126). -/
def execWrb (base len : Byte) (s : State) : Result :=
  command (.wrb base len) xferCheck (wrbPhase base len) s

/-- The phases of RDB (43_transfer.md R130). -/
def rdbPhase (base len : Byte) (p : Nat) (s : State) : State :=
  match p with
  | 1 => if s.seq.idx = len then done (.rdb base len) s else goto 2 (load 0x00 s)
  | 2 => if s.statTc then goto 1 (nextIdx (bufWrite (ea base s.seq.idx) s.data s)) else waits s
  | _ => waits s

/-- RDB base, len (43_transfer.md R130). -/
def execRdb (base len : Byte) (s : State) : Result :=
  command (.rdb base len) xferCheck (rdbPhase base len) s

end Sys2Proof.Machine
end

