-- ==== Sys2Proof/Machine/Dispatch.lean ====
section
/-! DEFINITION. One arm per command. -/

namespace Sys2Proof.Machine

-- One step of the sequencer for command i: its accept step or a micro-step (log 6).
def exec (i : Instr) (s : State) : Host.Outcome State Fault Refusal :=
  match i with
  | .init dbl => Sys2Proof.Machine.execInit dbl s
  | .reg id => Sys2Proof.Machine.execReg id s
  | .sel id => Sys2Proof.Machine.execSel id s
  | .des id => Sys2Proof.Machine.execDes id s
  | .wr byte => Sys2Proof.Machine.execWr byte s
  | .wrb base len => Sys2Proof.Machine.execWrb base len s
  | .rd => Sys2Proof.Machine.execRd s
  | .rdb base len => Sys2Proof.Machine.execRdb base len s
  | .lddLine line => Sys2Proof.Machine.execLddLine line s
  | .lddMode mode => Sys2Proof.Machine.execLddMode mode s
  | .lddSeld d => Sys2Proof.Machine.execLddSeld d s
  | .lddDesd d => Sys2Proof.Machine.execLddDesd d s
  | .stb addr byte => Sys2Proof.Machine.execStb addr byte s
  | .ldb addr => Sys2Proof.Machine.execLdb addr s
  | .rdr r => Sys2Proof.Machine.execRdr r s

end Sys2Proof.Machine
end

