-- ==== Sys2Proof/Machine/Engine.lean ====
section
/-! DEFINITION. The shift engine and the slave environment: the byte view (43_transfer.md R122), the
bit view (R123), and the serial waveform of an exchange. -/

namespace Sys2Proof.Machine

/-- The engine's step is enabled: BUSY, EN and MSTR (43_transfer.md R122). -/
def engineEnabled (s : State) : Bool := s.statBusy && cfgEn s.cfg && cfgMstr s.cfg

/-- The byte the slave environment supplies now: its next listed answer, else a free value
(43_transfer.md R122; log 8). -/
def slaveAnswer (s : State) : Byte :=
  match s.answers with
  | b :: _ => b
  | [] => Config.slaveByte s.fresh

/-- The answer has been taken. -/
def answerTaken (s : State) : State :=
  match s.answers with
  | _ :: rest => { s with answers := rest }
  | [] => drawn s

/-- Completion of an exchange that sent `out` and received `inp`: DATA, TC, BUSY, the event
(43_transfer.md R122). -/
def xferComplete (out inp : Byte) (s : State) : State :=
  record (.xferEnd out inp s.time)
    { s with data := inp, dataKnown := true, statTc := true, statBusy := false }

/-- The shift step in the byte view: one atomic step (43_transfer.md R122). -/
def shiftByte (s : State) : State := xferComplete s.data (slaveAnswer s) (answerTaken s)

/-- `SR <- {SR[6:0], m}` (43_transfer.md R123). -/
def shiftIn (sr : Byte) (m : Bool) : Byte := sr.extractLsb' 0 7 ++ BitVec.ofBool m

/-- The level of MISO at the sampling edge of period `k`: `in[7 - k] = m_k` (43_transfer.md R123). -/
def misoBit (inp : Byte) (k : Nat) : Bool := inp.getLsbD (7 - k)

/-- The shift step in the bit view: one clock period (43_transfer.md R123). The byte sent is kept in
`engOut` from the first period for the event (log 11). -/
def shiftBit (s : State) : State :=
  let out := if s.engCnt = 0 then s.data else s.engOut
  let sr := shiftIn s.data (misoBit (slaveAnswer s) s.engCnt.toNat)
  if 7 ≤ s.engCnt.toNat then
    xferComplete out sr { answerTaken s with engCnt := 0, engOut := out }
  else { s with data := sr, engCnt := s.engCnt + 1, engOut := out }

/-- The engine's step, in the view the run takes (log 11). -/
def engineStep (s : State) : State := if s.bitView then shiftBit s else shiftByte s

/-! ### The serial lines during an exchange (43_transfer.md R123; log 12) -/

/-- One clock period: the bit MOSI carries in it, the levels of MOSI before the leading edge and after
the trailing edge (none where no rule gives one), the sampled level of MISO, the levels of SCK
outside and between the two edges, and on which edge MISO is sampled and MOSI changes (R16). -/
structure Period where
  mosi : Bool
  mosiBefore : Option Bool
  mosiAfter : Option Bool
  miso : Bool
  rest : Bool
  active : Bool
  sampleLeading : Bool
  changeLeading : Bool
  deriving DecidableEq, Repr

/-- The clock periods from the last level of MOSI, a shift register `sr` and the bits still to
receive. With CPHA 0 the bit is on MOSI before the leading edge and the next one follows the
trailing edge; with CPHA 1 it comes on the leading edge and stays until the next one. -/
def periodsFrom (mode : BitVec 2) (last : Option Bool) (sr : Byte) : List Bool → List Period
  | [] => []
  | m :: ms =>
    let out := sr.getLsbD 7
    let next := shiftIn sr m
    { mosi := out
      mosiBefore := if cpha mode then last else some out
      mosiAfter := if cpha mode then some out else if ms.isEmpty then none else some (next.getLsbD 7)
      miso := m, rest := cpol mode, active := !cpol mode
      sampleLeading := !cpha mode, changeLeading := cpha mode } ::
      periodsFrom mode (some out) next ms

/-- The bits of a byte, most significant first. -/
def msbFirst (b : Byte) : List Bool := (List.range Config.xferBits).map fun k => b.getLsbD (7 - k)

/-- The whole waveform of an exchange of `out` against `inp` in a mode. -/
def waveform (mode : BitVec 2) (out inp : Byte) : List Period :=
  periodsFrom mode none out (msbFirst inp)

end Sys2Proof.Machine
end

