-- ==== Sys2Proof/Machine/Port.lean ====
section
/-! DEFINITION. The command port, reset, the environment's moves, and who moves next (00_scope.md R6,
10_state.md R37, 70_reset_and_hazards.md R180, R182; log 9, 10). -/

namespace Sys2Proof.Machine

/-- Reset: every element of the table of 10_state.md R10 to its reset value; the unspecified ones
are marked not written again. The environment, the history and the draws go on (R180, R182; log 10). -/
def resetBlock (s : State) : State :=
  { State.reset with
    time := s.time, csdir := s.csdir, hist := s.hist, fresh := s.fresh, host := s.host
    answers := s.answers, turns := s.turns, wired := s.wired, timeRuns := s.timeRuns
    bitView := s.bitView, engOut := s.engOut }

/-- One move of the environment (00_scope.md R6). -/
def envMove (m : EnvMove) (s : State) : State :=
  match m with
  | .time k => { s with time := s.time + (k + 1) }
  | .rst => resetBlock s
  | .dir p v => { s with csdir := setPort s.csdir p v }
  | .wire ok => { s with wired := ok }
  | .clock runs => { s with timeRuns := runs }

/-- The block accepts the word `w`: it records `Accept`, decodes, and either raises
`ILLEGAL_COMMAND` or runs the decoded command's accept step (10_state.md R37, 60_exceptions.md R153). -/
def acceptWord (w : Word) (s : State) : Result :=
  let s1 := record (.accept w s.time) s
  match decode w with
  | .ok i => exec i s1
  | .error _ => .next (raise .illegalCommand w s1)

/-- The host presents its next word, which leaves its queue; with none left, time passes. -/
def hostStep (s : State) : Result :=
  match s.host with
  | [] => .next (waits s)
  | w :: rest => acceptWord w { s with host := rest }

/-- A command is running: the engine's step when it is enabled (time passes for as long as the
wiring is broken, 60_exceptions.md R166), else the sequencer's. -/
def runStep (i : Instr) (s : State) : Result :=
  if engineEnabled s then .next (if s.wired then engineStep s else waits s) else exec i s

/-- The step of the block and its host when it is their turn: after a fault only time
passes (10_state.md R43 (e)); else the running command goes on; else the host presents a word. -/
def blockStep (s : State) : Result :=
  if faulted s then .next (waits s)
  else
    match s.seq.cmd with
    | some i => runStep i s
    | none => hostStep s

/-- `s` with its next listed turn taken, if one is listed. -/
def turnTaken (s : State) : State := { s with turns := s.turns.tail }

/-- One step of the whole machine: the environment's move when the next turn is its, else the
block's step. With no turn listed the block goes on (log 10). -/
def machineStep (s : State) : Result :=
  match s.turns with
  | .env m :: _ => .next (envMove m (turnTaken s))
  | .block :: _ => blockStep (turnTaken s)
  | [] => blockStep (turnTaken s)

/-- `s` with `w` the word the host presents in the very next step: at the head of the host's
queue, the block's turn, no fault and no command in the sequencer (log 9). -/
def placeWord (s : State) (w : Word) : State :=
  { s with host := w :: s.host, turns := [], fcause := 0, seq := { s.seq with cmd := none } }

end Sys2Proof.Machine
end

