-- ==== Sys2Proof/Machine/Step.lean ====
section
/-! DEFINITION. The step function, and placing a word at the command port. -/

namespace Sys2Proof.Machine

/-- One step (Port.lean). -/
def step (s : State) : Host.Outcome State Fault Refusal := machineStep s

/-- `s` with the word `w` of `nbits` bits where `step` takes its next command (log 9). -/
def State.withFetchWord (s : State) (nbits w : Nat) : State :=
  placeWord s (BitVec.ofNat 32 (w % 2 ^ nbits))

end Sys2Proof.Machine
end

