-- ==== Sys2Proof/Machine/Asm.lean ====
section
/-! DEFINITION. Assembler operands, listing syntax and pseudo-instructions (30_encoding.md R81 to R83). -/

namespace Sys2Proof.Machine

/-- A time of `num / den` microseconds (log 18) in units of 1/16 microsecond, rounded up; a time above
4095.9375 microseconds does not assemble (30_encoding.md R82, 10_state.md R14). -/
def delayOfMicros (num den : Nat) : Option Half :=
  if den = 0 then none
  else
    let d := (num * 2 ^ Config.delayFrac + den - 1) / den
    if d < 65536 then some (BitVec.ofNat 16 d) else none

/-- The name of a register in a listing (30_encoding.md R82). -/
def regAsm : RegName → String
  | .cfg => "CFG"
  | .stat => "STAT"
  | .data => "DATA"
  | .busdir => "BUSDIR"
  | .sess => "SESS"
  | .csout p => "CSOUT" ++ (["A", "B", "C", "D"].getD p.toNat "")
  | .dsLine => "DS_LINE"
  | .dsMode => "DS_MODE"
  | .dsSel => "DS_SEL"
  | .dsDes => "DS_DES"
  | .word0 i => "SDT" ++ toString i.toNat ++ ".W0"
  | .seldly i => "SDT" ++ toString i.toNat ++ ".SELDLY"
  | .desdly i => "SDT" ++ toString i.toNat ++ ".DESDLY"

/-- The name of a pin in a listing: a port letter and a pin digit (30_encoding.md R82). -/
def pinAsm (l : Line) : String :=
  (["A", "B", "C", "D"].getD (linePort l).toNat "") ++ toString (linePin l).toNat

/-- A listing line of a command, numbers in decimal (30_encoding.md R81; log 18). -/
def asmOf : Instr → String
  | .init dbl => "INIT " ++ (if dbl then "1" else "0")
  | .reg id => "REG " ++ toString id.toNat
  | .sel id => "SEL " ++ toString id.toNat
  | .des id => "DES " ++ toString id.toNat
  | .wr byte => "WR " ++ toString byte.toNat
  | .wrb base len => "WRB " ++ toString base.toNat ++ ", " ++ toString len.toNat
  | .rd => "RD"
  | .rdb base len => "RDB " ++ toString base.toNat ++ ", " ++ toString len.toNat
  | .lddLine line => "LDD.LINE " ++ pinAsm line
  | .lddMode mode => "LDD.MODE " ++ toString mode.toNat
  | .lddSeld d => "LDD.SELD " ++ toString d.toNat
  | .lddDesd d => "LDD.DESD " ++ toString d.toNat
  | .stb addr byte => "STB " ++ toString addr.toNat ++ ", " ++ toString byte.toNat
  | .ldb addr => "LDB " ++ toString addr.toNat
  | .rdr r =>
    "RDR " ++ (match regOf r with | some n => regAsm n | none => toString r.toNat)

/-- `REGD id, line, mode, sel, des` (30_encoding.md R83). -/
def regd (id : Byte) (line : Line) (mode : BitVec 2) (sel des : Half) : List Instr :=
  [.lddLine line, .lddMode mode, .lddSeld sel, .lddDesd des, .reg id]

/-- `XCHG id, byte` (30_encoding.md R83). -/
def xchg (id byte : Byte) : List Instr := [.sel id, .wr byte, .des id]

/-- The words of a program, in order. -/
def assemble (p : List Instr) : List Word := p.map encode

end Sys2Proof.Machine
end

