-- ==== Sys2Proof/Machine/Pins.lean ====
section
/-! DEFINITION. The ports of the block as functions of the state, at the transaction level
(10_state.md R39), and the pins as a slave sees them (R29, R30). `none` is a level or a value the
spec leaves unspecified (93_implementation_defined.md U5, U15; log 14). -/

namespace Sys2Proof.Machine

/-- The ports of 10_state.md R39, but `clk`, which no rule names. -/
structure Ports where
  cmdWord : Option Word
  cmdValid : Bool
  cmdReady : Bool
  done : Bool
  resp : Option Half
  fault : Bool
  fcause : Byte
  fcmd : Word
  busy : Bool
  tc : Bool
  sck : Option Bool
  sckOe : Bool
  mosi : Option Bool
  mosiOe : Bool
  miso : Option Bool
  csOut : BitVec 32
  csKnown : BitVec 32
  rst : Bool
  deriving DecidableEq, Repr

/-- The four latches as one value, bit `line` for line `line` (R39 `cs_out`). -/
def joinPorts (v : Vector Byte 4) : BitVec 32 := portAt v 3 ++ portAt v 2 ++ portAt v 1 ++ portAt v 0

/-- SCK rests at CPOL while the peripheral is enabled, the line is an output and no exchange is in
flight (R30); in the bit view it is back at CPOL between two periods (43_transfer.md R123; log 14). -/
def sckLevel (s : State) : Option Bool :=
  if cfgEn s.cfg && sckOe s && (!s.statBusy || s.bitView) then some (cpol (cfgMode s.cfg)) else none

/-- MOSI between two periods of the bit view: with CPHA 0 it already carries the next bit, with CPHA 1
it keeps the bit of the last period until the next leading edge (43_transfer.md R123). Before the
first leading edge with CPHA 1, and outside an exchange, no rule gives its level (R30, U15; log 14). -/
def mosiLevel (s : State) : Option Bool :=
  if s.statBusy && s.bitView then
    if cpha (cfgMode s.cfg) then
      if s.engCnt = 0 then none else some (s.engOut.getLsbD (8 - s.engCnt.toNat))
    else some (s.data.getLsbD 7)
  else none

/-- The level the slave supplies for the next period of the bit view (43_transfer.md R123). -/
def misoLevel (s : State) : Option Bool :=
  if s.statBusy && s.bitView then some (misoBit (slaveAnswer s) s.engCnt.toNat) else none

/-- The `done` port: the last event is a completion (R38, R39; log 14). -/
def donePort (s : State) : Bool :=
  match s.hist.getLast? with
  | some (.done _ _ _) => true
  | _ => false

/-- All ports (R39). -/
def ports (s : State) : Ports :=
  { cmdWord := if ready s then s.host.head? else none
    cmdValid := ready s && !s.host.isEmpty
    cmdReady := ready s
    done := donePort s
    resp := if s.respKnown then some s.resp else none
    fault := faulted s
    fcause := s.fcause
    fcmd := s.fcmd
    busy := s.statBusy
    tc := s.statTc
    sck := sckLevel s
    sckOe := sckOe s
    mosi := mosiLevel s
    mosiOe := mosiOe s
    miso := misoLevel s
    csOut := joinPorts s.csout
    csKnown := joinPorts s.csKnown
    rst := s.turns.head? == some (.env .rst) }

/-- The clock pin: the block's level where BUSDIR makes it an output (43_transfer.md R123, R30). -/
def sckPin (s : State) : Option Bool := if sckOe s then sckLevel s else none

/-- The data-out pin: the block's level where BUSDIR makes it an output (43_transfer.md R123, R30). -/
def mosiPin (s : State) : Option Bool := if mosiOe s then mosiLevel s else none

/-- The level of a chip-select pin as a slave sees it: the latch where the pin is an output and a
command has driven it, else no level the block controls (R29). -/
def pinLevel (s : State) (l : Line) : Option Bool :=
  if lineBit s.csdir l && lineBit s.csKnown l then some (latch s l) else none

end Sys2Proof.Machine
end

