-- ==== Sys2Proof/Safety.lean ====
section
/-! DEFINITION. What claims speak of: the invariant of the reachable states (10_state.md R43), the
timing of selection and deselection (42_select_deselect.md R112, R114), the end of a run (70_reset_and_hazards.md R199). -/

namespace Sys2Proof.Machine

/-- Command `i` is running in phase `p`. -/
def runningAt (s : State) (i : Instr) (p : Nat) : Prop :=
  faulted s = false ∧ s.seq.cmd = some i ∧ s.seq.phase = p

/-- A transfer command: WR, WRB, RD, RDB (43_transfer.md R133). -/
def isTransfer : Instr → Bool
  | .wr _ => true
  | .wrb _ _ => true
  | .rd => true
  | .rdb _ _ => true
  | .init _ => false
  | .reg _ => false
  | .sel _ => false
  | .des _ => false
  | .lddLine _ => false
  | .lddMode _ => false
  | .lddSeld _ => false
  | .lddDesd _ => false
  | .stb _ _ => false
  | .ldb _ => false
  | .rdr _ => false

/-- A command that writes RESP: WR, RD, LDB, RDR (10_state.md R12). -/
def returnsValue : Instr → Bool
  | .wr _ => true
  | .rd => true
  | .ldb _ => true
  | .rdr _ => true
  | .init _ => false
  | .reg _ => false
  | .sel _ => false
  | .des _ => false
  | .wrb _ _ => false
  | .rdb _ _ => false
  | .lddLine _ => false
  | .lddMode _ => false
  | .lddSeld _ => false
  | .lddDesd _ => false
  | .stb _ _ => false

/-- One of the spec's own commands, which touch neither the peripheral nor the pins: LDD.x, STB,
LDB, RDR (40_init.md R91). -/
def isHostAccess : Instr → Bool
  | .lddLine _ => true
  | .lddMode _ => true
  | .lddSeld _ => true
  | .lddDesd _ => true
  | .stb _ _ => true
  | .ldb _ => true
  | .rdr _ => true
  | .init _ => false
  | .reg _ => false
  | .sel _ => false
  | .des _ => false
  | .wr _ => false
  | .wrb _ _ => false
  | .rd => false
  | .rdb _ _ => false

/-- The slot of the selected slave. -/
def selectedSlot (s : State) : Slot := slotAt s.sdt s.sessSelid

/-- What holds of the session while a command is in the sequencer: what its checks established and
the micro-steps done so far have kept. -/
def sequencerInv (s : State) : Prop :=
  match s.seq.cmd with
  | none => True
  | some (.reg id) => s.sessInited = true ∧ s.sessSelv = false ∧
      (s.seq.phase = 2 → (slotAt s.sdt (slotIx id)).valid = true)
  | some (.sel id) => s.sessInited = true ∧ (slotAt s.sdt (slotIx id)).valid = true ∧
      (s.seq.phase ≤ 2 → s.sessSelv = false) ∧
      (s.seq.phase = 2 → cfgMode s.cfg = (slotAt s.sdt (slotIx id)).mode) ∧
      (s.seq.phase = 3 → s.sessSelv = true ∧ s.sessSelid = slotIx id)
  | some (.des id) => s.sessInited = true ∧ (slotAt s.sdt (slotIx id)).valid = true ∧
      (s.seq.phase = 1 → s.sessSelv = true ∧ s.sessSelid = slotIx id) ∧
      (2 ≤ s.seq.phase → s.sessSelv = false)
  | some (.init _) => s.sessInited = false
  | some i => isTransfer i = true → s.sessInited = true ∧ s.sessSelv = true

/-- REG has copied the descriptor to slot `i` and has not driven its line yet (41_registry.md R104). -/
def regDriving (s : State) (i : BitVec 3) : Prop :=
  ∃ id, s.seq.cmd = some (.reg id) ∧ s.seq.phase = 2 ∧ slotIx id = i

/-- The invariant of the reachable states: 10_state.md R43 and R44, 41_registry.md R105, with the
canonical form of the buffer and what makes it inductive. -/
structure Inv (s : State) : Prop where
  /-- R43 (a), and more: an exchange is in flight only while a transfer command polls. -/
  busyPolls : s.statBusy = true →
    ∃ i, s.seq.cmd = some i ∧ isTransfer i = true ∧ s.seq.phase = 2
  /-- R43 (b). -/
  selected : s.sessSelv = true → s.sessInited = true ∧ (selectedSlot s).valid = true
  /-- R43 (c). -/
  inited : s.sessInited = true → cfgEn s.cfg = true ∧ cfgMstr s.cfg = true ∧ s.busdir = 0b11
  /-- R43 (d). -/
  selectedMode : s.sessSelv = true →
    cfgMode s.cfg = (selectedSlot s).mode ∧ latch s (selectedSlot s).line = false
  /-- R43 (e): after a fault the sequencer is idle, so nothing is left to step. -/
  faultIdle : faulted s = true → s.seq.cmd = none
  /-- R43 (f). -/
  cfgReservedZero : cfgReserved s.cfg = 0
  /-- Only codes of 60_exceptions.md R152 are ever written. -/
  causeCodes : s.fcause.toNat ≤ 8
  /-- The phase of a running command is one of its phases, 1 to 3 (R34). -/
  phases : s.seq.cmd ≠ none → 1 ≤ s.seq.phase ∧ s.seq.phase ≤ 3
  /-- What the sequencer relies on. -/
  sequencer : sequencerInv s
  /-- The buffer's listing is canonical. -/
  bufWf : memWf s.buf = true
  /-- ENG.CNT counts 0 to 7 between steps, and is 0 while no exchange is in flight in the bit view
  and throughout in the byte view (43_transfer.md R123). -/
  engCount : s.engCnt.toNat ≤ 7 ∧ (s.statBusy = false ∨ s.bitView = false → s.engCnt = 0)
  /-- R44, 41_registry.md R105 (b): every registered line but the selected slave's is high; the line
  of the slot REG is registering is driven in its next step. -/
  registeredHigh : ∀ i, (slotAt s.sdt i).valid = true → ¬ regDriving s i →
    (s.sessSelv = true → (slotAt s.sdt i).line ≠ (selectedSlot s).line) →
    latch s (slotAt s.sdt i).line = true
  /-- R26, R104: a registered line has been driven since reset, so its latch is specified. -/
  registeredDriven : ∀ i, (slotAt s.sdt i).valid = true → ¬ regDriving s i →
    lineBit s.csKnown (slotAt s.sdt i).line = true

/-- The latest chip-select event of a history. -/
def lastDrive : List Event → Option (Line × Bool × Nat)
  | [] => none
  | e :: rest =>
    match lastDrive rest with
    | some d => some d
    | none => match e with
      | .csDrive l v t => some (l, v, t)
      | _ => none

/-- SEL is waiting in its last phase. -/
def selWaiting (s : State) : Bool :=
  match s.seq.cmd with
  | some (.sel _) => s.seq.phase == 3
  | _ => false

/-- While a slave is selected, the latest chip-select event is the falling edge of its line, and
the select delay since that edge has passed, or is what SEL is waiting for
(42_select_deselect.md R112). -/
def SelectionTimed (s : State) : Prop :=
  s.sessSelv = true →
    ∃ t1, lastDrive s.hist = some ((selectedSlot s).line, false, t1) ∧
      (if selWaiting s then s.seq.deadline = t1 + (selectedSlot s).seldly.toNat
       else t1 + (selectedSlot s).seldly.toNat ≤ s.time)

/-- While DES waits, the latest chip-select event is the rising edge of its slot's line, and the
deadline is the deselect delay after it (42_select_deselect.md R114). -/
def DeselectionTimed (s : State) : Prop :=
  ∀ id, s.seq.cmd = some (.des id) → s.seq.phase = 2 →
    ∃ t4, lastDrive s.hist = some ((slotAt s.sdt (slotIx id)).line, true, t4) ∧
      s.seq.deadline = t4 + (slotAt s.sdt (slotIx id)).desdly.toNat

/-- The time an event carries (10_state.md R42). -/
def eventTime : Event → Nat
  | .accept _ t => t
  | .faultEv _ _ t => t
  | .modeSet _ t => t
  | .csDrive _ _ t => t
  | .xferStart _ _ _ t => t
  | .xferEnd _ _ t => t
  | .bufStore _ _ t => t
  | .done _ _ t => t

/-- The event accepts a command word (10_state.md R37). -/
def isAccept : Event → Bool
  | .accept _ _ => true
  | .faultEv _ _ _ => false
  | .modeSet _ _ => false
  | .csDrive _ _ _ => false
  | .xferStart _ _ _ _ => false
  | .xferEnd _ _ _ => false
  | .bufStore _ _ _ => false
  | .done _ _ _ => false

/-- The event completes a command (10_state.md R38). -/
def isDone : Event → Bool
  | .done _ _ _ => true
  | .accept _ _ => false
  | .faultEv _ _ _ => false
  | .modeSet _ _ => false
  | .csDrive _ _ _ => false
  | .xferStart _ _ _ _ => false
  | .xferEnd _ _ _ => false
  | .bufStore _ _ _ => false

/-- The whole of fault entry, field by field: FCAUSE, FCMD and the event (60_exceptions.md R151). -/
def faultEntry (code : Byte) (c : Cause) (w : Word) (s : State) : State :=
  { s with fcause := code, fcmd := w, hist := s.hist ++ [.faultEv c w s.time] }

/-- The events of a burst write that sends `outs` and receives `ins` (43_transfer.md R126). -/
def writeBurstEvents (mode : BitVec 2) (dbl : Bool) (t : Nat) : List Byte → List Byte → List Event
  | o :: outs, i :: ins =>
    .xferStart o mode dbl t :: .xferEnd o i t :: writeBurstEvents mode dbl t outs ins
  | [], _ => []
  | _ :: _, [] => []

/-- The events of a burst read that receives `ins`, stored from address `a` on (43_transfer.md R130). -/
def readBurstEvents (mode : BitVec 2) (dbl : Bool) (t : Nat) (a : Byte) : List Byte → List Event
  | i :: ins =>
    .xferStart 0x00 mode dbl t :: .xferEnd 0x00 i t :: .bufStore a i t ::
      readBurstEvents mode dbl t (a + 1) ins
  | [] => []

/-- The next thing the machine does is a reset (70_reset_and_hazards.md R180). -/
def resetNext (s : State) : Prop := s.turns.head? = some (.env .rst)

/-- The next step is the block's own (log 10): the schedule says so, or lists nothing more. -/
def blockTurn (s : State) : Prop := s.turns = [] ∨ s.turns.head? = some .block

/-- `t` is `s` after a step in which the block waits: time has passed, by one unit or more, or not at
all where it has stopped (10_state.md R40, 60_exceptions.md R170; log 7); draws may have been made. -/
def passesTime (s t : State) : Prop :=
  ∃ k fr, t = { s with time := s.time + k, fresh := fr } ∧
    (s.timeRuns = true → 1 ≤ k) ∧ (s.timeRuns = false → k = 0)

/-- The sequencer waits: SEL or DES for its deadline, a transfer command for TC. -/
def sequencerWaits (s : State) : Prop :=
  (∃ id, (runningAt s (.sel id) 3 ∨ runningAt s (.des id) 2) ∧ s.time < s.seq.deadline) ∨
  (∃ i, isTransfer i = true ∧ runningAt s i 2 ∧ s.statTc = false)

/-- Every accepted word is followed by a completion, so the last command's `Done` has been recorded;
true of an empty program, which has no command (70_reset_and_hazards.md R199). -/
def allDone : List Event → Bool
  | [] => true
  | e :: rest => (!isAccept e || rest.any isDone) && allDone rest

/-- The run of the host's words has ended well (70_reset_and_hazards.md R199): every word
presented, the last command done, SEQ idle, no exchange, no fault. -/
def endedWell (s : State) : Prop :=
  s.host = [] ∧ allDone s.hist = true ∧ seqIdle s = true ∧ s.statBusy = false ∧ faulted s = false

/-- A hang: the run from here is infinite, since it never ends well and never faults
(70_reset_and_hazards.md R199, 60_exceptions.md R166, R170). -/
def hangs (s : State) : Prop :=
  ∀ n, ∃ t, Host.Core.run Sys2Proof.core n s = .next t ∧ ¬ endedWell t ∧ faulted t = false

/-- The run has gone wrong (70_reset_and_hazards.md R199): by a fault, or because it is infinite. -/
def goneWrong (s : State) : Prop := faulted s = true ∨ hangs s

end Sys2Proof.Machine
end

