-- ==== Sys2Proof/Certificates/Slice0/Obligations.lean ====
section
/-! DEFINITION. The statements for the provers, made from the numbered rules of spec/. -/

open Sys2Proof Sys2Proof.Machine

/-! ### Encoding -/

/-- Words of 95_test_vectors.md 2.1, written out from the encoding of 30_encoding.md R71 to R76.
The names of the decoding errors are the model's (log 16). -/
def Obligations.SpecWordsDecode : Prop :=
  decode 0x01000001 = .ok (.init true) ∧
  decode 0x02000008 = .ok (.reg 8) ∧
  decode 0x030000FF = .ok (.sel 255) ∧
  decode 0x050000A5 = .ok (.wr 0xA5) ∧
  decode 0x06001003 = .ok (.wrb 0x10 3) ∧
  decode 0x0800FE03 = .ok (.rdb 0xFE 3) ∧
  decode 0x1000000A = .ok (.lddLine 10) ∧
  decode 0x10010003 = .ok (.lddMode 3) ∧
  decode 0x1100100A = .ok (.stb 0x10 0x0A) ∧
  decode 0x13000004 = .ok (.rdr 0x04) ∧
  decode 0x01000002 = .error .mustBeZero ∧
  decode 0x07000001 = .error .mustBeZero ∧
  decode 0x10010004 = .error .mustBeZero ∧
  decode 0x10040000 = .error (.reservedFsel 4) ∧
  decode 0x14000000 = .error (.reservedOpcode 0x14)

/-- Decoding a command's word gives the command back, for every command and every operand
(30_encoding.md R71 to R73, R80). -/
def Obligations.DecodeOfEncode : Prop := ∀ i : Instr, decode (encode i) = .ok i

/-- A word that decodes is the word of the command it decodes to (30_encoding.md R79, R80). -/
def Obligations.EncodeOfDecode : Prop := ∀ (w : Word) (i : Instr), decode w = .ok i → encode i = w

/-- 30_encoding.md R74: every command's row is in the table; a word is a command of a row exactly
when its bits under the row's mask are the row's match; no two rows match the same word. -/
def Obligations.DecodeFollowsMatchAndMask : Prop :=
  (∀ i : Instr, (i.matchBits, i.maskBits) ∈ opcodeRows) ∧
  (∀ (w : Word) (i : Instr), w &&& i.maskBits = i.matchBits ↔
    ∃ j, decode w = .ok j ∧ j.matchBits = i.matchBits) ∧
  (∀ (w : Word) (r r' : Word × Word), r ∈ opcodeRows → r' ∈ opcodeRows →
    w &&& r.2 = r.1 → w &&& r'.2 = r'.1 → r = r')

/-- 30_encoding.md R75, R76: a word that matches no row is illegal, and accepting it raises cause 1
and has no other effect; the reserved opcodes, `fsel` above 3, all zeros, all ones and every word
with a must-be-zero bit set are such words. -/
def Obligations.IllegalWordsFault : Prop :=
  (∀ w : Word, (∀ r ∈ opcodeRows, w &&& r.2 ≠ r.1) → ∃ e, decode w = .error e) ∧
  (∀ (s : State) (w : Word) (rest : List Word) (e : DecodeError), blockTurn s → ready s = true →
    s.host = w :: rest → decode w = .error e →
    step s = .next { s with
      turns := s.turns.tail, host := rest, fcause := 1, fcmd := w
      hist := s.hist ++ [.accept w s.time, .faultEv .illegalCommand w s.time] }) ∧
  (∀ w : Word, (opField w).toNat = 0 ∨ (9 ≤ (opField w).toNat ∧ (opField w).toNat ≤ 0x0F) ∨
    0x14 ≤ (opField w).toNat → ∃ e, decode w = .error e) ∧
  (∀ w : Word, opField w = 0x10 → 4 ≤ (hiField w).toNat → ∃ e, decode w = .error e) ∧
  (∃ e, decode 0x00000000 = .error e) ∧ (∃ e, decode 0xFFFFFFFF = .error e) ∧
  (∀ w : Word, (opField w).toNat ∈ [0x01, 0x02, 0x03, 0x04, 0x05, 0x07, 0x12, 0x13] →
    w.extractLsb' 8 16 ≠ 0 → ∃ e, decode w = .error e) ∧
  (∀ w : Word, opField w = 0x07 → w.extractLsb' 0 8 ≠ 0 → ∃ e, decode w = .error e) ∧
  (∀ w : Word, (opField w).toNat ∈ [0x06, 0x08, 0x11] → w.extractLsb' 16 8 ≠ 0 →
    ∃ e, decode w = .error e) ∧
  (∀ w : Word, opField w = 0x01 → w.extractLsb' 1 7 ≠ 0 → ∃ e, decode w = .error e) ∧
  (∀ w : Word, opField w = 0x10 → hiField w = 0 → w.extractLsb' 5 11 ≠ 0 →
    ∃ e, decode w = .error e) ∧
  (∀ w : Word, opField w = 0x10 → hiField w = 1 → w.extractLsb' 2 14 ≠ 0 →
    ∃ e, decode w = .error e)

/-! ### The step -/

/-- When it is the block's turn and the block is ready, the host's next word is accepted: a word that
decodes to `i` makes the step `exec i`, after the `Accept` event (10_state.md R37). -/
def Obligations.PresentedWordIsExecuted : Prop :=
  ∀ (s : State) (w : Word) (rest : List Word) (i : Instr), blockTurn s → ready s = true →
    s.host = w :: rest → decode w = .ok i →
    step s = exec i { s with
      turns := s.turns.tail, host := rest, hist := s.hist ++ [.accept w s.time] }

/-- While a command is in the sequencer the block's step is the shift engine's when that is enabled
and the slave is wired, and `exec` of that command when the engine is not enabled (00_scope.md R6).
`wired` and the schedule are the model's (log 8, 10). -/
def Obligations.RunningCommandIsExecuted : Prop :=
  ∀ (s : State) (i : Instr), blockTurn s → faulted s = false → s.seq.cmd = some i →
    (engineEnabled s = false → step s = exec i (turnTaken s)) ∧
    (engineEnabled s = true → s.wired = true → step s = .next (engineStep (turnTaken s)))

/-- The environment's move, when the next turn is its, in any state of the block: time passes by one
unit or more, the caller sets pin directions, the wiring changes, the time stops or goes on
(10_state.md R40, R29). The schedule, the wiring and the stopped time are the model's (log 7, 8, 10). -/
def Obligations.EnvironmentMovesAtItsTurn : Prop :=
  (∀ (s : State) (k : Nat) (rest : List Turn), s.turns = .env (.time k) :: rest →
    step s = .next { s with turns := rest, time := s.time + (k + 1) }) ∧
  (∀ (s : State) (p : BitVec 2) (v : Byte) (rest : List Turn), s.turns = .env (.dir p v) :: rest →
    ∃ d, step s = .next { s with turns := rest, csdir := d } ∧ portAt d p = v ∧
      ∀ q, q ≠ p → portAt d q = portAt s.csdir q) ∧
  (∀ (s : State) (ok : Bool) (rest : List Turn), s.turns = .env (.wire ok) :: rest →
    step s = .next { s with turns := rest, wired := ok }) ∧
  (∀ (s : State) (runs : Bool) (rest : List Turn), s.turns = .env (.clock runs) :: rest →
    step s = .next { s with turns := rest, timeRuns := runs })

/-- 00_scope.md R6, 10_state.md R40, 60_exceptions.md R164, 70_reset_and_hazards.md R182: the
environment can move between any two steps of the block, also in the middle of a command: after `n`
steps of the block from any state, whatever they are, any of its moves can come next. That a
schedule says where it comes is the model's (log 10). -/
def Obligations.EnvironmentMovesBetweenAnySteps : Prop :=
  ∀ (s : State) (n : Nat) (m : EnvMove) (rest : List Turn), s.turns = [] → ∃ t,
    Host.Core.run Sys2Proof.core n s = .next t ∧ t.turns = [] ∧
    Host.Core.run Sys2Proof.core (n + 1)
        { s with turns := List.replicate n .block ++ .env m :: rest } =
      .next (envMove m { t with turns := rest })

/-- 70_reset_and_hazards.md R180, R182: reset, in any state, puts every element to the reset column
of 10_state.md R10 (an unspecified element is marked not written), and does not touch the time,
the pin directions or the history. The kept queues are the model's choice (log 10).
The marks are the model's (log 1). -/
def Obligations.ResetFromAnyState : Prop :=
  ∀ (s : State) (rest : List Turn), s.turns = .env .rst :: rest → ∃ t, step s = .next t ∧
    t.dsLine = 0 ∧ t.dsMode = 0 ∧ t.dsSel = 0 ∧ t.dsDes = 0 ∧ t.respKnown = false ∧
    (∀ i, (slotAt t.sdt i).valid = false) ∧ t.cfg = 0 ∧ t.statTc = false ∧ t.statBusy = false ∧
    t.dataKnown = false ∧ t.busdir = 0 ∧ t.sessInited = false ∧ t.sessSelv = false ∧
    t.sessSelid = 0 ∧ t.fcause = 0 ∧ t.fcmd = 0 ∧ (∀ l, lineBit t.csKnown l = false) ∧
    (∀ a, bufAt t a = none) ∧ t.seq.cmd = none ∧ t.engCnt = 0 ∧ ready t = true ∧
    t.time = s.time ∧ t.csdir = s.csdir ∧ t.hist = s.hist ∧ t.host = s.host ∧
    t.answers = s.answers ∧ t.turns = rest

/-- When the block has nothing to do (after a fault; no word to present; an exchange that the broken
wiring never ends; SEL or DES before its deadline; a poll with TC 0 and no exchange to end), its step
passes time by one unit or more, or stands still where time has stopped, and does nothing else
(10_state.md R40, R43 (e), 60_exceptions.md R166, R170). The wiring and the way time passes in a wait
are the model's (log 7, 8). -/
def Obligations.WaitingStepOnlyPassesTime : Prop :=
  ∀ s : State, blockTurn s →
    (faulted s = true ∨ (s.seq.cmd = none ∧ s.host = []) ∨
      (s.seq.cmd ≠ none ∧ engineEnabled s = true ∧ s.wired = false) ∨
      (sequencerWaits s ∧ engineEnabled s = false)) →
    ∃ t, step s = .next t ∧ passesTime { s with turns := s.turns.tail } t

/-- No step is stuck and none is refused (60_exceptions.md R170). -/
def Obligations.EveryStepAnswersNextState : Prop := ∀ s : State, ∃ t, step s = .next t

/-- A word placed at the port is the next command (the model's own `withFetchWord`, log 9). -/
def Obligations.PlacedWordIsTheNextCommand : Prop :=
  ∀ (s : State) (nbits w : Nat) (i : Instr), decodeTableWord nbits w = some i →
    step (s.withFetchWord nbits w) =
      exec i { s with
        turns := [], fcause := 0, seq := { s.seq with cmd := none },
        hist := s.hist ++ [.accept (BitVec.ofNat 32 (w % 2 ^ nbits)) s.time] }

/-! ### Invariants -/

/-- The reset state meets the invariant and the timing of selection and deselection. -/
def Obligations.ResetMeetsTheInvariant : Prop :=
  Inv State.reset ∧ SelectionTimed State.reset ∧ DeselectionTimed State.reset

/-- 10_state.md R43, R44, 41_registry.md R105: every step, of any agent, from any state that meets
the invariant gives one that meets it. -/
def Obligations.StepKeepsTheInvariant : Prop :=
  ∀ s t : State, Inv s → step s = .next t → Inv t

/-- The lower bounds of the select and the deselect delay are kept by every step
(42_select_deselect.md R112, R114). -/
def Obligations.StepKeepsSelectionTiming : Prop :=
  (∀ s t : State, Inv s → SelectionTimed s → step s = .next t → SelectionTimed t) ∧
  (∀ s t : State, DeselectionTimed s → step s = .next t → DeselectionTimed t)

/-- 42_select_deselect.md R112: SEL completes no sooner than SELDLY after the falling edge of the
selected slave's line, and every exchange of the selection starts no sooner than that. -/
def Obligations.NothingBeforeTheSelectDelay : Prop :=
  (∀ (s t : State) (id : Byte), Inv s → SelectionTimed s → runningAt s (.sel id) 3 →
    exec (.sel id) s = .next t → t.seq.cmd = none →
    ∃ t1, lastDrive s.hist = some ((slotAt s.sdt (slotIx id)).line, false, t1) ∧
      t1 + (slotAt s.sdt (slotIx id)).seldly.toNat ≤ t.time) ∧
  (∀ (s t : State) (o : Byte) (m : BitVec 2) (d : Bool) (tm : Nat), Inv s → SelectionTimed s →
    step s = .next t → t.hist = s.hist ++ [.xferStart o m d tm] →
    ∃ t1, lastDrive s.hist = some ((selectedSlot s).line, false, t1) ∧
      t1 + (selectedSlot s).seldly.toNat ≤ tm ∧ m = (selectedSlot s).mode)

/-- 42_select_deselect.md R114: DES completes no sooner than DESDLY after the rising edge of its
line; and from DES's rising edge on, whatever the environment does but reset, the run makes no
falling edge sooner than DESDLY after it. A schedule without a reset is the model's (log 10). -/
def Obligations.NothingBeforeTheDeselectDelay : Prop :=
  (∀ (s t : State) (id : Byte), DeselectionTimed s → runningAt s (.des id) 2 →
    exec (.des id) s = .next t → t.seq.cmd = none →
    ∃ t4, lastDrive s.hist = some ((slotAt s.sdt (slotIx id)).line, true, t4) ∧
      t4 + (slotAt s.sdt (slotIx id)).desdly.toNat ≤ t.time) ∧
  (∀ (s t u : State) (id : Byte) (n : Nat) (es : List Event) (l : Line) (tm : Nat),
    runningAt s (.des id) 1 → .env .rst ∉ s.turns → exec (.des id) s = .next t →
    Host.Core.run Sys2Proof.core n t = .next u → u.hist = t.hist ++ es →
    .csDrive l false tm ∈ es →
    s.time + (slotAt s.sdt (slotIx id)).desdly.toNat ≤ tm)

/-! ### Whole-machine rules -/

/-- 10_state.md R44: SEL's second phase is the only step that drives a line low, and it drives only
the line of the slot it selects (a reset leaves the latches unspecified and is set apart).
The latches a reset leaves are the model's (log 1). -/
def Obligations.LinesFallOnlyInSelect : Prop :=
  ∀ (s t : State) (l : Line), step s = .next t → latch s l = true → latch t l = false →
    resetNext s ∨ ∃ id, runningAt s (.sel id) 2 ∧ l = (slotAt s.sdt (slotIx id)).line

/-- 10_state.md R10, column "written by": what a command of the sequencer leaves unchanged. -/
def Obligations.RegistersKeepToTheirWriters : Prop :=
  ∀ (i : Instr) (s t : State), exec i s = .next t →
    (t.dsLine ≠ s.dsLine → ∃ l, i = .lddLine l) ∧
    (t.dsMode ≠ s.dsMode → ∃ m, i = .lddMode m) ∧
    (t.dsSel ≠ s.dsSel → ∃ d, i = .lddSeld d) ∧
    (t.dsDes ≠ s.dsDes → ∃ d, i = .lddDesd d) ∧
    (t.resp ≠ s.resp → returnsValue i = true) ∧
    (t.sdt ≠ s.sdt → ∃ id, i = .reg id) ∧
    (t.cfg ≠ s.cfg → (∃ d, i = .init d) ∨ ∃ id, i = .sel id) ∧
    (t.statTc ≠ s.statTc ∨ t.statBusy ≠ s.statBusy ∨ t.data ≠ s.data → isTransfer i = true) ∧
    (t.busdir ≠ s.busdir → ∃ d, i = .init d) ∧
    (t.sessInited ≠ s.sessInited → ∃ d, i = .init d) ∧
    (t.sessSelv ≠ s.sessSelv → ∃ id, i = .sel id ∨ i = .des id) ∧
    (t.sessSelid ≠ s.sessSelid → ∃ id, i = .sel id) ∧
    (t.fcause ≠ s.fcause ∨ t.fcmd ≠ s.fcmd → ready s = true ∧ faulted t = true) ∧
    (t.csout ≠ s.csout → ∃ id, i = .reg id ∨ i = .sel id ∨ i = .des id) ∧
    (t.buf ≠ s.buf → (∃ a b, i = .stb a b) ∨ ∃ base len, i = .rdb base len) ∧
    t.engCnt = s.engCnt ∧ t.csdir = s.csdir ∧ t.host = s.host ∧ t.answers = s.answers ∧
    t.turns = s.turns ∧ t.wired = s.wired ∧ t.timeRuns = s.timeRuns ∧ t.bitView = s.bitView

/-- 10_state.md R31: a command changes no byte of the buffer but the one STB stores to, and the one
RDB stores to at its poll, at the address (base + IDX) mod 256. -/
def Obligations.BufferBytesChangeOnlyWhereStored : Prop :=
  ∀ (i : Instr) (s t : State), exec i s = .next t → ∀ a : Byte, bufAt t a ≠ bufAt s a →
    (∃ b, i = .stb a b ∧ runningAt s i 1 ∧ bufAt t a = some b) ∨
    (∃ base len, i = .rdb base len ∧ runningAt s i 2 ∧ s.statTc = true ∧ a = ea base s.seq.idx ∧
      bufAt t a = some s.data)

/-- 10_state.md R26, R28: a command changes no latch bit but that of the one line REG, SEL or DES
drives at its pin phase. -/
def Obligations.OtherLinesKeepTheirLevel : Prop :=
  ∀ (i : Instr) (s t : State), exec i s = .next t → ∀ l : Line, latch t l ≠ latch s l →
    ∃ id, l = (slotAt s.sdt (slotIx id)).line ∧
      ((i = .reg id ∧ runningAt s i 2 ∧ latch t l = true) ∨
        (i = .sel id ∧ runningAt s i 2 ∧ latch t l = false) ∨
        (i = .des id ∧ runningAt s i 1 ∧ latch t l = true))

/-- 60_exceptions.md R151, R162, R171: after a fault no command is accepted and nothing of the block
changes until reset: a step changes only what belongs to the environment.
The name of exec's stop is the model's (log 6). -/
def Obligations.FaultIsTerminalUntilReset : Prop :=
  ∀ s : State, faulted s = true →
    ready s = false ∧ (∀ i, exec i s = .fault .portNotReady) ∧
    ∀ t, step s = .next t → ¬ resetNext s →
      ∃ tm cd fr tu wi ru, t = { s with
        time := tm, csdir := cd, fresh := fr, turns := tu, wired := wi, timeRuns := ru }

/-- 60_exceptions.md R150, R151: a fault is raised only in the accept step, and then nothing but the
fault registers and the history changes (the word also leaves the host's queue). -/
def Obligations.FaultOnlyInTheAcceptStep : Prop :=
  ∀ s t : State, step s = .next t → faulted s = false → faulted t = true →
    blockTurn s ∧ ready s = true ∧ ∃ w rest c, s.host = w :: rest ∧ causeCode c ≠ 0 ∧
      t = { s with
            turns := s.turns.tail, host := rest, fcause := causeCode c, fcmd := w
            hist := s.hist ++ [.accept w s.time, .faultEv c w s.time] }

/-- 10_state.md R13, R18, R23: nothing but reset clears VALID, INITED, EN or MSTR. -/
def Obligations.RegistrationAndInitialisationLast : Prop :=
  ∀ s t : State, step s = .next t → ¬ resetNext s →
    (∀ i, (slotAt s.sdt i).valid = true → (slotAt t.sdt i).valid = true) ∧
    (s.sessInited = true → t.sessInited = true) ∧
    (cfgEn s.cfg = true → cfgEn t.cfg = true) ∧ (cfgMstr s.cfg = true → cfgMstr t.cfg = true)

/-- 42_select_deselect.md R115 (d), 10_state.md R15: SEL's first phase is the only step that writes
the mode bits, with the slot's mode; INIT's is the only one that writes bits 7:5; bits 4:2 are
written by none (reset set apart). -/
def Obligations.ConfigurationBitsHaveOneWriter : Prop :=
  ∀ s t : State, step s = .next t → ¬ resetNext s →
    (cfgMode t.cfg ≠ cfgMode s.cfg →
      ∃ id, runningAt s (.sel id) 1 ∧ cfgMode t.cfg = (slotAt s.sdt (slotIx id)).mode) ∧
    (cfgEn t.cfg ≠ cfgEn s.cfg ∨ cfgMstr t.cfg ≠ cfgMstr s.cfg ∨ cfgDbl t.cfg ≠ cfgDbl s.cfg →
      ∃ d, runningAt s (.init d) 1 ∧ cfgDbl t.cfg = d) ∧
    cfgReserved t.cfg = cfgReserved s.cfg

/-- 10_state.md R20: TC and BUSY change at two points only: a transfer command's load, to 0 and 1,
and the engine's completion, to 1 and 0 (reset set apart). -/
def Obligations.TransferFlagsChangeAtTwoPoints : Prop :=
  ∀ s t : State, step s = .next t → ¬ resetNext s →
    (t.statTc ≠ s.statTc ∨ t.statBusy ≠ s.statBusy) →
    (∃ i, isTransfer i = true ∧ runningAt s i 1 ∧ t.statTc = false ∧ t.statBusy = true ∧
      t.hist = s.hist ++ [.xferStart t.data (cfgMode s.cfg) (cfgDbl s.cfg) s.time]) ∨
    (engineEnabled s = true ∧ t.statTc = true ∧ t.statBusy = false ∧
      ∃ o, t.hist = s.hist ++ [.xferEnd o t.data s.time])

/-- 10_state.md R43 (d): no slot changes while a slave is selected. -/
def Obligations.SlotsFixedWhileSelected : Prop :=
  ∀ s t : State, Inv s → s.sessSelv = true → step s = .next t → ¬ resetNext s → t.sdt = s.sdt

/-- 10_state.md R42, R40: the history only grows, each new event carries the current time, and time
never goes back. -/
def Obligations.HistoryOnlyGrows : Prop :=
  ∀ s t : State, step s = .next t →
    s.time ≤ t.time ∧ ∃ es, t.hist = s.hist ++ es ∧ ∀ e ∈ es, eventTime e = s.time

/-- 10_state.md R12: RESP changes only at the completion of WR, RD, LDB or RDR, to the value their
`Done` event carries (reset set apart). -/
def Obligations.ResponseChangesOnlyAtCompletion : Prop :=
  ∀ s t : State, step s = .next t → ¬ resetNext s → t.resp ≠ s.resp →
    ∃ i, s.seq.cmd = some i ∧ returnsValue i = true ∧ t.seq.cmd = none ∧ t.respKnown = true ∧
      t.hist = s.hist ++ [.done (encode i) (some t.resp) s.time]

/-! ### The commands: acceptance, effect and completion -/

/-- 60_exceptions.md R160: the checks of every command, first to last, and the fault each raises;
a command that passes them starts. -/
def Obligations.ChecksInOrder : Prop :=
  (∀ (s : State) (w : Word) (e : DecodeError), decode w = .error e →
    acceptWord w s = .next (faultEntry 1 .illegalCommand w
      { s with hist := s.hist ++ [.accept w s.time] })) ∧
  (∀ s : State, ready s = true →
    (∀ d, exec (.init d) s = .next
      (if s.sessInited then faultEntry 3 .reinit (encode (.init d)) s else start (.init d) s)) ∧
    (∀ id, exec (.reg id) s = .next
      (if s.sessInited = false then faultEntry 2 .notInitialised (encode (.reg id)) s
       else if 8 ≤ id.toNat then faultEntry 4 .invalidId (encode (.reg id)) s
       else if s.sessSelv then faultEntry 8 .regWhileSelected (encode (.reg id)) s
       else start (.reg id) s)) ∧
    (∀ id, exec (.sel id) s = .next
      (if s.sessInited = false then faultEntry 2 .notInitialised (encode (.sel id)) s
       else if 8 ≤ id.toNat then faultEntry 4 .invalidId (encode (.sel id)) s
       else if (slotAt s.sdt (slotIx id)).valid = false then
         faultEntry 5 .notRegistered (encode (.sel id)) s
       else if s.sessSelv then faultEntry 6 .alreadySelected (encode (.sel id)) s
       else start (.sel id) s)) ∧
    (∀ id, exec (.des id) s = .next
      (if s.sessInited = false then faultEntry 2 .notInitialised (encode (.des id)) s
       else if 8 ≤ id.toNat then faultEntry 4 .invalidId (encode (.des id)) s
       else if (slotAt s.sdt (slotIx id)).valid = false then
         faultEntry 5 .notRegistered (encode (.des id)) s
       else if s.sessSelv = false ∨ s.sessSelid.toNat ≠ id.toNat then
         faultEntry 7 .notSelected (encode (.des id)) s
       else start (.des id) s)) ∧
    (∀ i, isTransfer i = true → exec i s = .next
      (if s.sessInited = false then faultEntry 2 .notInitialised (encode i) s
       else if s.sessSelv = false then faultEntry 7 .notSelected (encode i) s
       else start i s)) ∧
    (∀ i, isHostAccess i = true → (∀ r, i ≠ .rdr r) → exec i s = .next (start i s)) ∧
    (∀ r, exec (.rdr r) s = .next
      (if (regOf r).isNone then faultEntry 1 .illegalCommand (encode (.rdr r)) s
       else start (.rdr r) s))) ∧
  (∀ s t : State, faulted s = true → step s = .next t → ¬ resetNext s →
    t.hist = s.hist ∧ t.fcause = s.fcause ∧ t.fcmd = s.fcmd)

/-- 60_exceptions.md R154: the seven source commands after INIT raise `NOT_INITIALISED` when INITED
is 0; the spec's own commands never raise it. -/
def Obligations.NotInitialisedRule : Prop :=
  (∀ (s : State) (i : Instr), ready s = true → s.sessInited = false → isHostAccess i = false →
    (∀ d, i ≠ .init d) → exec i s = .next (faultEntry 2 .notInitialised (encode i) s)) ∧
  (∀ (s t : State) (i : Instr), isHostAccess i = true → exec i s = .next t → t.fcause ≠ 2)

/-- 60_exceptions.md R155: INIT raises `REINIT` when INITED is 1, and never when it is 0, as it is
from reset until an INIT's own step sets it. -/
def Obligations.ReinitRule : Prop :=
  (∀ (s : State) (d : Bool), ready s = true → s.sessInited = true →
    exec (.init d) s = .next (faultEntry 3 .reinit (encode (.init d)) s)) ∧
  (∀ (s t : State) (d : Bool), s.sessInited = false → exec (.init d) s = .next t → t.fcause ≠ 3) ∧
  (∀ s t : State, resetNext s → step s = .next t → t.sessInited = false) ∧
  (∀ s t : State, s.sessInited = false → step s = .next t → t.sessInited = true →
    ∃ d, runningAt s (.init d) 1)

/-- 40_init.md R90: INIT, from acceptance to completion. -/
def Obligations.InitCompletes : Prop :=
  ∀ (d : Bool) (s : State), ready s = true → s.sessInited = false →
    exec (.init d) s = .next (start (.init d) s) ∧
    ∃ c : Byte, cfgEn c = true ∧ cfgMstr c = true ∧ cfgDbl c = d ∧ cfgMode c = cfgMode s.cfg ∧
      cfgReserved c = cfgReserved s.cfg ∧
      exec (.init d) (start (.init d) s) = .next { s with
        busdir := 0b11, cfg := c, sessInited := true
        seq := { s.seq with cmd := none, phase := 1, idx := 0 }
        hist := s.hist ++ [.done (encode (.init d)) none s.time] }

/-- 41_registry.md R100 to R103: the four LDD commands, from acceptance to completion. -/
def Obligations.LoadDescriptorCompletes : Prop :=
  ∀ s : State, ready s = true →
    (∀ l, exec (.lddLine l) s = .next (start (.lddLine l) s) ∧
      exec (.lddLine l) (start (.lddLine l) s) = .next { s with
        dsLine := l, seq := { s.seq with cmd := none, phase := 1, idx := 0 }
        hist := s.hist ++ [.done (encode (.lddLine l)) none s.time] }) ∧
    (∀ m, exec (.lddMode m) s = .next (start (.lddMode m) s) ∧
      exec (.lddMode m) (start (.lddMode m) s) = .next { s with
        dsMode := m, seq := { s.seq with cmd := none, phase := 1, idx := 0 }
        hist := s.hist ++ [.done (encode (.lddMode m)) none s.time] }) ∧
    (∀ d, exec (.lddSeld d) s = .next (start (.lddSeld d) s) ∧
      exec (.lddSeld d) (start (.lddSeld d) s) = .next { s with
        dsSel := d, seq := { s.seq with cmd := none, phase := 1, idx := 0 }
        hist := s.hist ++ [.done (encode (.lddSeld d)) none s.time] }) ∧
    (∀ d, exec (.lddDesd d) s = .next (start (.lddDesd d) s) ∧
      exec (.lddDesd d) (start (.lddDesd d) s) = .next { s with
        dsDes := d, seq := { s.seq with cmd := none, phase := 1, idx := 0 }
        hist := s.hist ++ [.done (encode (.lddDesd d)) none s.time] })

/-- 41_registry.md R104: REG, from acceptance to completion: the staged descriptor becomes slot `id`,
valid; then the new line is driven high. Every other slot and line is as before. -/
def Obligations.RegisterCompletes : Prop :=
  ∀ (id : Byte) (s : State), ready s = true → s.sessInited = true → id.toNat < 8 →
    s.sessSelv = false →
    exec (.reg id) s = .next (start (.reg id) s) ∧
    ∃ (tbl : Vector Slot 8) (out known : Vector Byte 4),
      slotAt tbl (slotIx id) =
        { valid := true, line := s.dsLine, mode := s.dsMode, seldly := s.dsSel, desdly := s.dsDes } ∧
      (∀ j, j ≠ slotIx id → slotAt tbl j = slotAt s.sdt j) ∧
      (∀ l, lineBit out l = if l = s.dsLine then true else latch s l) ∧
      (∀ l, lineBit known l = if l = s.dsLine then true else lineBit s.csKnown l) ∧
      exec (.reg id) (start (.reg id) s) = .next { s with
        sdt := tbl, seq := { s.seq with cmd := some (.reg id), phase := 2, idx := 0 } } ∧
      exec (.reg id) { s with
          sdt := tbl, seq := { s.seq with cmd := some (.reg id), phase := 2, idx := 0 } } =
        .next { s with
          sdt := tbl, csout := out, csKnown := known
          seq := { s.seq with cmd := none, phase := 2, idx := 0 }
          hist := s.hist ++ [.csDrive s.dsLine true s.time, .done (encode (.reg id)) none s.time] }

/-- 42_select_deselect.md R110: SEL's three phases in order: the mode; the falling edge with SELV,
SELID and the deadline; the wait, which ends when the deadline has passed and not before.
What a wait does is the model's (log 7). -/
def Obligations.SelectCompletes : Prop :=
  (∀ (id : Byte) (s : State), ready s = true → s.sessInited = true → id.toNat < 8 →
    (slotAt s.sdt (slotIx id)).valid = true → s.sessSelv = false →
    exec (.sel id) s = .next (start (.sel id) s)) ∧
  (∀ (id : Byte) (s : State), runningAt s (.sel id) 1 →
    ∃ c : Byte, cfgMode c = (slotAt s.sdt (slotIx id)).mode ∧
      c.extractLsb' 2 6 = s.cfg.extractLsb' 2 6 ∧
      exec (.sel id) s = .next { s with
        cfg := c, seq := { s.seq with phase := 2 }
        hist := s.hist ++ [.modeSet (slotAt s.sdt (slotIx id)).mode s.time] }) ∧
  (∀ (id : Byte) (s : State), runningAt s (.sel id) 2 →
    ∃ out known : Vector Byte 4,
      (∀ l, lineBit out l = if l = (slotAt s.sdt (slotIx id)).line then false else latch s l) ∧
      (∀ l, lineBit known l =
        if l = (slotAt s.sdt (slotIx id)).line then true else lineBit s.csKnown l) ∧
      exec (.sel id) s = .next { s with
        csout := out, csKnown := known, sessSelv := true, sessSelid := id.setWidth 3
        seq := { s.seq with
          phase := 3, deadline := s.time + (slotAt s.sdt (slotIx id)).seldly.toNat }
        hist := s.hist ++ [.csDrive (slotAt s.sdt (slotIx id)).line false s.time] }) ∧
  (∀ (id : Byte) (s : State), runningAt s (.sel id) 3 →
    (s.seq.deadline ≤ s.time → exec (.sel id) s = .next { s with
      seq := { s.seq with cmd := none }
      hist := s.hist ++ [.done (encode (.sel id)) none s.time] }) ∧
    (s.time < s.seq.deadline →
      ∃ t, exec (.sel id) s = .next t ∧ passesTime s t))

/-- 42_select_deselect.md R113: DES: the rising edge with SELV and the deadline; the wait.
What a wait does is the model's (log 7). -/
def Obligations.DeselectCompletes : Prop :=
  (∀ (id : Byte) (s : State), ready s = true → s.sessInited = true →
    (slotAt s.sdt (slotIx id)).valid = true → s.sessSelv = true → s.sessSelid.toNat = id.toNat →
    exec (.des id) s = .next (start (.des id) s)) ∧
  (∀ (id : Byte) (s : State), runningAt s (.des id) 1 →
    ∃ out known : Vector Byte 4,
      (∀ l, lineBit out l = if l = (slotAt s.sdt (slotIx id)).line then true else latch s l) ∧
      (∀ l, lineBit known l =
        if l = (slotAt s.sdt (slotIx id)).line then true else lineBit s.csKnown l) ∧
      exec (.des id) s = .next { s with
        csout := out, csKnown := known, sessSelv := false
        seq := { s.seq with
          phase := 2, deadline := s.time + (slotAt s.sdt (slotIx id)).desdly.toNat }
        hist := s.hist ++ [.csDrive (slotAt s.sdt (slotIx id)).line true s.time] }) ∧
  (∀ (id : Byte) (s : State), runningAt s (.des id) 2 →
    (s.seq.deadline ≤ s.time → exec (.des id) s = .next { s with
      seq := { s.seq with cmd := none }
      hist := s.hist ++ [.done (encode (.des id)) none s.time] }) ∧
    (s.time < s.seq.deadline →
      ∃ t, exec (.des id) s = .next t ∧ passesTime s t))

/-- 43_transfer.md R124, R128, R121: WR and RD: acceptance, the load of the byte (0x00 for RD), the
poll, which answers the byte in DATA when TC is 1 and waits while it is 0.
What a wait does is the model's (log 7). -/
def Obligations.SingleTransferCompletes : Prop :=
  ∀ (i : Instr) (b : Byte), (i = .wr b ∨ (i = .rd ∧ b = 0x00)) →
    (∀ s : State, ready s = true → s.sessInited = true → s.sessSelv = true →
      exec i s = .next (start i s)) ∧
    (∀ s : State, runningAt s i 1 → exec i s = .next { s with
      data := b, dataKnown := true, statTc := false, statBusy := true
      seq := { s.seq with phase := 2 }
      hist := s.hist ++ [.xferStart b (cfgMode s.cfg) (cfgDbl s.cfg) s.time] }) ∧
    (∀ s : State, runningAt s i 2 → s.statTc = true → exec i s = .next { s with
      resp := s.data.setWidth 16, respKnown := true, seq := { s.seq with cmd := none }
      hist := s.hist ++ [.done (encode i) (some (s.data.setWidth 16)) s.time] }) ∧
    (∀ s : State, runningAt s i 2 → s.statTc = false →
      ∃ t, exec i s = .next t ∧ passesTime s t)

/-- 43_transfer.md R129: RD has exactly the effect of WR 0x00; only the recorded word differs. -/
def Obligations.ReadIsWriteOfZero : Prop :=
  (∀ (s : State) (r w : State), ready s = true →
    r = { s with hist := s.hist ++ [.accept (encode .rd) s.time] } →
    w = { s with hist := s.hist ++ [.accept (encode (.wr 0x00)) s.time] } →
    (∃ k c, acceptWord (encode .rd) s = .next (faultEntry k c (encode .rd) r) ∧
      acceptWord (encode (.wr 0x00)) s = .next (faultEntry k c (encode (.wr 0x00)) w)) ∨
    (acceptWord (encode .rd) s = .next (start .rd r) ∧
      acceptWord (encode (.wr 0x00)) s = .next (start (.wr 0x00) w))) ∧
  (∀ (s : State) (p : Nat), runningAt s .rd p → ∃ t u, exec .rd s = .next t ∧
    exec (.wr 0x00) { s with seq := { s.seq with cmd := some (.wr 0x00) } } = .next u ∧
    u = { t with hist := u.hist, seq := { t.seq with cmd := u.seq.cmd } } ∧
    ((t.seq.cmd = some .rd ∧ u.seq.cmd = some (.wr 0x00) ∧ u.hist = t.hist) ∨
      (t.seq.cmd = none ∧ u.seq.cmd = none ∧ ∃ r,
        t.hist = s.hist ++ [.done (encode .rd) r s.time] ∧
        u.hist = s.hist ++ [.done (encode (.wr 0x00)) r s.time])))

/-- 43_transfer.md R126: WRB's two phases: done when IDX is `len`, else the load of
`BUF[(base + IDX) mod 256]` (some byte, where nothing has been written); the poll, which discards
the incoming byte.
What a wait does and the free byte are the model's (log 2, 3, 7). -/
def Obligations.BurstWriteCompletes : Prop :=
  ∀ base len : Byte,
    (∀ s : State, ready s = true → s.sessInited = true → s.sessSelv = true →
      exec (.wrb base len) s = .next (start (.wrb base len) s)) ∧
    (∀ s : State, runningAt s (.wrb base len) 1 → s.seq.idx = len →
      exec (.wrb base len) s = .next { s with
        seq := { s.seq with cmd := none }
        hist := s.hist ++ [.done (encode (.wrb base len)) none s.time] }) ∧
    (∀ s : State, runningAt s (.wrb base len) 1 → s.seq.idx ≠ len →
      ∃ b fr, (∀ v, bufAt s (ea base s.seq.idx) = some v → b = v ∧ fr = s.fresh) ∧
        exec (.wrb base len) s = .next { s with
          data := b, dataKnown := true, statTc := false, statBusy := true, fresh := fr
          seq := { s.seq with phase := 2 }
          hist := s.hist ++ [.xferStart b (cfgMode s.cfg) (cfgDbl s.cfg) s.time] }) ∧
    (∀ s : State, runningAt s (.wrb base len) 2 → s.statTc = true →
      exec (.wrb base len) s = .next { s with
        seq := { s.seq with phase := 1, idx := s.seq.idx + 1 } }) ∧
    (∀ s : State, runningAt s (.wrb base len) 2 → s.statTc = false →
      ∃ t, exec (.wrb base len) s = .next t ∧ passesTime s t)

/-- 43_transfer.md R130: RDB's two phases: done when IDX is `len`, else the load of 0x00; the poll,
which stores the incoming byte at `(base + IDX) mod 256` and leaves every other byte.
What a wait does is the model's (log 7). -/
def Obligations.BurstReadCompletes : Prop :=
  ∀ base len : Byte,
    (∀ s : State, ready s = true → s.sessInited = true → s.sessSelv = true →
      exec (.rdb base len) s = .next (start (.rdb base len) s)) ∧
    (∀ s : State, runningAt s (.rdb base len) 1 → s.seq.idx = len →
      exec (.rdb base len) s = .next { s with
        seq := { s.seq with cmd := none }
        hist := s.hist ++ [.done (encode (.rdb base len)) none s.time] }) ∧
    (∀ s : State, runningAt s (.rdb base len) 1 → s.seq.idx ≠ len →
      exec (.rdb base len) s = .next { s with
        data := 0x00, dataKnown := true, statTc := false, statBusy := true
        seq := { s.seq with phase := 2 }
        hist := s.hist ++ [.xferStart 0x00 (cfgMode s.cfg) (cfgDbl s.cfg) s.time] }) ∧
    (∀ s : State, runningAt s (.rdb base len) 2 → s.statTc = true →
      ∃ m, (∀ a : Byte, memLookup m a.toNat =
          if a = base + s.seq.idx then some s.data else bufAt s a) ∧
        exec (.rdb base len) s = .next { s with
          buf := m, seq := { s.seq with phase := 1, idx := s.seq.idx + 1 }
          hist := s.hist ++ [.bufStore (base + s.seq.idx) s.data s.time] }) ∧
    (∀ s : State, runningAt s (.rdb base len) 2 → s.statTc = false →
      ∃ t, exec (.rdb base len) s = .next t ∧ passesTime s t)

/-- 44_host_access.md R140, R141: STB stores one byte; LDB answers one, zero-extended (some byte,
where nothing has been written).
The free byte is the model's (log 2, 3). -/
def Obligations.HostAccessCompletes : Prop :=
  ∀ s : State, ready s = true →
    (∀ a b : Byte, exec (.stb a b) s = .next (start (.stb a b) s) ∧
      ∃ m, (∀ x : Byte, memLookup m x.toNat = if x = a then some b else bufAt s x) ∧
        exec (.stb a b) (start (.stb a b) s) = .next { s with
          buf := m, seq := { s.seq with cmd := none, phase := 1, idx := 0 }
          hist := s.hist ++ [.bufStore a b s.time, .done (encode (.stb a b)) none s.time] }) ∧
    (∀ a : Byte, exec (.ldb a) s = .next (start (.ldb a) s) ∧
      ∃ (v : Byte) (fr : Nat), (∀ b, bufAt s a = some b → v = b ∧ fr = s.fresh) ∧
        exec (.ldb a) (start (.ldb a) s) = .next { s with
          resp := v.setWidth 16, respKnown := true, fresh := fr
          seq := { s.seq with cmd := none, phase := 1, idx := 0 }
          hist := s.hist ++ [.done (encode (.ldb a)) (some (v.setWidth 16)) s.time] })

/-- 44_host_access.md R142, 20_memory.md R57: RDR of a register of the map answers its value in every
bit that is specified, and writes RESP only.
The free bits are the model's (log 2). -/
def Obligations.RegisterReadCompletes : Prop :=
  ∀ (s : State) (r : Byte) (n : RegName), ready s = true → regOf r = some n →
    exec (.rdr r) s = .next (start (.rdr r) s) ∧
    ∃ (v : Half) (fr : Nat),
      v &&& ~~~(regUnspecified s n) = regStored s n &&& ~~~(regUnspecified s n) ∧
      exec (.rdr r) (start (.rdr r) s) = .next { s with
        resp := v, respKnown := true, fresh := fr
        seq := { s.seq with cmd := none, phase := 1, idx := 0 }
        hist := s.hist ++ [.done (encode (.rdr r)) (some v) s.time] }

/-- 44_host_access.md R143: the reserved register numbers, and what RDR of one does. -/
def Obligations.ReservedRegisterNumbers : Prop :=
  ∀ (s : State) (r : Byte), ready s = true →
    ((5 ≤ r.toNat ∧ r.toNat ≤ 7) ∨ (∃ k, k ≤ 7 ∧ r.toNat = 0x13 + 4 * k) ∨ 0x30 ≤ r.toNat →
      exec (.rdr r) s = .next { s with
        fcause := 1, fcmd := 0x13000000 ||| r.setWidth 32
        hist := s.hist ++ [.faultEv .illegalCommand (0x13000000 ||| r.setWidth 32) s.time] }) ∧
    (¬ ((5 ≤ r.toNat ∧ r.toNat ≤ 7) ∨ (∃ k, k ≤ 7 ∧ r.toNat = 0x13 + 4 * k) ∨ 0x30 ≤ r.toNat) →
      exec (.rdr r) s = .next (start (.rdr r) s))

/-- 20_memory.md R56: the register-number map and the layout of the values it returns. -/
def Obligations.RegisterMapLayout : Prop :=
  regOf 0x00 = some .cfg ∧ regOf 0x01 = some .stat ∧ regOf 0x02 = some .data ∧
  regOf 0x03 = some .busdir ∧ regOf 0x04 = some .sess ∧
  (∀ p : BitVec 2, regOf (8 + p.setWidth 8) = some (.csout p)) ∧
  regOf 0x0C = some .dsLine ∧ regOf 0x0D = some .dsMode ∧ regOf 0x0E = some .dsSel ∧
  regOf 0x0F = some .dsDes ∧
  (∀ i : BitVec 3, regOf (0x10 + 4 * i.setWidth 8) = some (.word0 i) ∧
    regOf (0x11 + 4 * i.setWidth 8) = some (.seldly i) ∧
    regOf (0x12 + 4 * i.setWidth 8) = some (.desdly i)) ∧
  (∀ s : State,
    (regStored s .cfg).toNat = s.cfg.toNat ∧
    (regStored s .cfg).toNat = 128 * (cfgEn s.cfg).toNat + 64 * (cfgMstr s.cfg).toNat +
      32 * (cfgDbl s.cfg).toNat + 4 * (cfgReserved s.cfg).toNat + (cfgMode s.cfg).toNat ∧
    (regStored s .stat).toNat = 128 * s.statTc.toNat + s.statBusy.toNat ∧
    (regStored s .data).toNat = s.data.toNat ∧
    (regStored s .busdir).toNat = s.busdir.toNat ∧
    (regStored s .busdir).toNat = 2 * (mosiOe s).toNat + (sckOe s).toNat ∧
    (regStored s .sess).toNat =
      128 * s.sessSelv.toNat + 64 * s.sessInited.toNat + s.sessSelid.toNat ∧
    (∀ p, (regStored s (.csout p)).toNat = (portAt s.csout p).toNat) ∧
    (regStored s .dsLine).toNat = s.dsLine.toNat ∧
    (regStored s .dsMode).toNat = s.dsMode.toNat ∧
    regStored s .dsSel = s.dsSel ∧ regStored s .dsDes = s.dsDes ∧
    (∀ i, (regStored s (.word0 i)).toNat = 32768 * (slotAt s.sdt i).valid.toNat +
        256 * (slotAt s.sdt i).mode.toNat + (slotAt s.sdt i).line.toNat ∧
      regStored s (.seldly i) = (slotAt s.sdt i).seldly ∧
      regStored s (.desdly i) = (slotAt s.sdt i).desdly))

/-- 20_memory.md R57: what may read as unspecified, and that the bits the table gives as 0, and
VALID, read as defined: an empty slot's word 0 reads as 0 outside bits 9:8 and 4:0.
DATA's mark is the model's (log 17). -/
def Obligations.UnspecifiedBitsOnly : Prop :=
  ∀ s : State,
    (∀ n, regUnspecified s n ≠ 0 →
      (n = .data ∧ s.dataKnown = false) ∨
      (∃ p, n = .csout p ∧ ∃ k, (portAt s.csKnown p).getLsbD k = false ∧ k < 8) ∨
      (∃ i, (n = .word0 i ∨ n = .seldly i ∨ n = .desdly i) ∧ (slotAt s.sdt i).valid = false)) ∧
    (∀ i, (slotAt s.sdt i).valid = false → regRead s (.word0 i) &&& 0xFCE0 = 0) ∧
    (∀ p, regRead s (.csout p) &&& 0xFF00 = 0) ∧
    regRead s .data &&& 0xFF00 = 0 ∧
    (∀ l : Line, lineBit s.csKnown l = true →
      (regRead s (.csout (linePort l))).getLsbD (linePin l).toNat = latch s l)

/-- 10_state.md R28: `DrivePin` sets the one latch bit and records the event with the current time,
whatever the bit was. -/
def Obligations.DrivePinRule : Prop :=
  ∀ (l : Line) (v : Bool) (s : State),
    ∃ out known : Vector Byte 4,
      (∀ k, lineBit out k = if k = l then v else latch s k) ∧
      (∀ k, lineBit known k = if k = l then true else lineBit s.csKnown k) ∧
      drivePin l v s = { s with
        csout := out, csKnown := known, hist := s.hist ++ [.csDrive l v s.time] }

/-! ### The shift engine and bursts -/

/-- 43_transfer.md R122: the shift step sends DATA, takes the slave's byte (its listed answer,
whatever that is), raises TC, drops BUSY, and is not enabled again until the next load.
The list of answers and `wired` are the model's (log 8). -/
def Obligations.ShiftStepRule : Prop :=
  ∀ (s : State) (i : Instr), blockTurn s → faulted s = false → s.seq.cmd = some i →
    s.statBusy = true → cfgEn s.cfg = true → cfgMstr s.cfg = true → s.wired = true →
    s.bitView = false →
    (∃ inp rest fr t, step s = .next t ∧
      t = { s with
        turns := s.turns.tail, data := inp, dataKnown := true, statTc := true, statBusy := false
        answers := rest, fresh := fr, hist := s.hist ++ [.xferEnd s.data inp s.time] } ∧
      (∀ b bs, s.answers = b :: bs → inp = b ∧ rest = bs ∧ fr = s.fresh) ∧
      engineEnabled t = false)

/-- 43_transfer.md R123: eight clock periods of the bit view make the one shift step of the byte view
(`engOut`, the model's own, remembers the byte sent).
The two views of one run are the model's (log 11). -/
def Obligations.BitViewRefinesByteView : Prop :=
  ∀ s : State, s.engCnt = 0 → shiftBit^[8] s = { shiftByte s with engOut := s.data }

/-- 43_transfer.md R123, 10_state.md R16: an exchange makes eight periods; MOSI carries the outgoing
byte and MISO the incoming one, most significant bit first; SCK rests at CPOL; CPHA chooses the edge
on which MISO is sampled, and the other one, on which MOSI changes. With CPHA 0 a bit is on MOSI
before its leading edge and the next follows its trailing edge; with CPHA 1 the bit before stays
until the leading edge and the bit itself stays after the trailing edge.
The bit order and CPOL, CPHA are from general knowledge (log 12). -/
def Obligations.ExchangeWaveform : Prop :=
  ∀ (mode : BitVec 2) (o i : Byte),
    (waveform mode o i).length = 8 ∧
    (∀ k, k < 8 → ((waveform mode o i)[k]?.map Period.mosi) = some (o.getLsbD (7 - k)) ∧
      ((waveform mode o i)[k]?.map Period.miso) = some (i.getLsbD (7 - k)) ∧
      ((waveform mode o i)[k]?.map Period.mosiBefore) = some
        (if mode.getLsbD 0 then if k = 0 then none else some (o.getLsbD (8 - k))
         else some (o.getLsbD (7 - k))) ∧
      ((waveform mode o i)[k]?.map Period.mosiAfter) = some
        (if mode.getLsbD 0 then some (o.getLsbD (7 - k))
         else if k = 7 then none else some (o.getLsbD (6 - k)))) ∧
    (∀ p ∈ waveform mode o i, p.rest = mode.getLsbD 1 ∧ p.active = !p.rest ∧
      p.sampleLeading = !mode.getLsbD 0 ∧ p.changeLeading = mode.getLsbD 0)

/-- 43_transfer.md R123, 10_state.md R30: in the bit view the pins between two periods are those of
the waveform: MOSI before the period's leading edge and after its trailing one, SCK at rest, the
slave's bit on MISO; and SCK and MOSI reach the pins only where BUSDIR makes them outputs.
The pins as functions of the state are the model's (log 11, 14). -/
def Obligations.BitViewShowsTheWaveform : Prop :=
  (∀ (s : State) (k : Nat) (p : Period), s.engCnt = 0 → s.statBusy = true → s.bitView = true →
    cfgEn s.cfg = true → sckOe s = true → mosiOe s = true →
    (waveform (cfgMode s.cfg) s.data (slaveAnswer s))[k]? = some p →
    mosiPin (shiftBit^[k] s) = p.mosiBefore ∧ sckPin (shiftBit^[k] s) = some p.rest ∧
    misoLevel (shiftBit^[k] s) = some p.miso ∧
    (k < 7 → mosiPin (shiftBit^[k + 1] s) = p.mosiAfter)) ∧
  (∀ s : State, (sckOe s = false → sckPin s = none) ∧ (mosiOe s = false → mosiPin s = none))

/-- 43_transfer.md R120, R124, R128: a whole WR or RD, from the host's word to completion: one
exchange of the byte (0x00 for RD) against the slave's, which RESP and DATA hold at the end.
The lists, `wired` and the view are the model's (log 8, 10, 11). -/
def Obligations.SingleTransferAnswersSlaveByte : Prop :=
  ∀ (i : Instr) (o a : Byte) (s : State) (words : List Word) (rest : List Byte),
    (i = .wr o ∨ (i = .rd ∧ o = 0x00)) → s.turns = [] → ready s = true →
    s.host = encode i :: words → s.sessInited = true → s.sessSelv = true → s.statBusy = false →
    cfgEn s.cfg = true → cfgMstr s.cfg = true → s.wired = true → s.bitView = false →
    s.answers = a :: rest →
    Host.Core.run Sys2Proof.core 4 s = .next { s with
      host := words, answers := rest, data := a, dataKnown := true, statTc := true
      resp := a.setWidth 16, respKnown := true
      seq := { s.seq with cmd := none, phase := 2, idx := 0 }
      hist := s.hist ++ [.accept (encode i) s.time,
        .xferStart o (cfgMode s.cfg) (cfgDbl s.cfg) s.time, .xferEnd o a s.time,
        .done (encode i) (some (a.setWidth 16)) s.time] }

/-- 43_transfer.md R126, R127: a whole burst write, from the host's word to completion: the exchanges
send the buffer's bytes from `base` on, in order, wrapping at 256; RESP, BUF and all else is
untouched.
The lists, `wired` and the view are the model's (log 8, 10, 11). -/
def Obligations.BurstWriteSendsBufferInOrder : Prop :=
  ∀ (base len : Byte) (s : State) (words : List Word) (outs ins rest : List Byte),
    s.turns = [] → ready s = true → s.host = encode (.wrb base len) :: words →
    s.sessInited = true → s.sessSelv = true → s.statBusy = false → cfgEn s.cfg = true →
    cfgMstr s.cfg = true → s.wired = true → s.bitView = false →
    outs.length = len.toNat → ins.length = len.toNat → s.answers = ins ++ rest →
    (∀ k, k < len.toNat → bufAt s (base + BitVec.ofNat 8 k) = outs[k]?) →
    Host.Core.run Sys2Proof.core (3 * len.toNat + 2) s = .next { s with
      host := words, answers := rest
      data := ins.getLast?.getD s.data
      dataKnown := s.dataKnown || decide (len ≠ 0)
      statTc := s.statTc || decide (len ≠ 0)
      seq := { s.seq with cmd := none, phase := 1, idx := len }
      hist := s.hist ++ [.accept (encode (.wrb base len)) s.time] ++
        writeBurstEvents (cfgMode s.cfg) (cfgDbl s.cfg) s.time outs ins ++
        [.done (encode (.wrb base len)) none s.time] }

/-- 43_transfer.md R130, R131: a whole burst read, from the host's word to completion: every byte
sent is 0x00, the answers are stored from `base` on in call order, wrapping at 256, and no other
byte changes; RESP and all else is untouched.
The lists, `wired` and the view are the model's (log 8, 10, 11). -/
def Obligations.BurstReadStoresAnswersInOrder : Prop :=
  ∀ (base len : Byte) (s : State) (words : List Word) (ins rest : List Byte),
    s.turns = [] → ready s = true → s.host = encode (.rdb base len) :: words →
    s.sessInited = true → s.sessSelv = true → s.statBusy = false → cfgEn s.cfg = true →
    cfgMstr s.cfg = true → s.wired = true → s.bitView = false →
    ins.length = len.toNat → s.answers = ins ++ rest →
    ∃ m, Host.Core.run Sys2Proof.core (3 * len.toNat + 2) s = .next { s with
        host := words, answers := rest, buf := m
        data := ins.getLast?.getD s.data
        dataKnown := s.dataKnown || decide (len ≠ 0)
        statTc := s.statTc || decide (len ≠ 0)
        seq := { s.seq with cmd := none, phase := 1, idx := len }
        hist := s.hist ++ [.accept (encode (.rdb base len)) s.time] ++
          readBurstEvents (cfgMode s.cfg) (cfgDbl s.cfg) s.time base ins ++
          [.done (encode (.rdb base len)) none s.time] } ∧
      (∀ k, k < len.toNat → memLookup m (base + BitVec.ofNat 8 k).toNat = ins[k]?) ∧
      (∀ a : Byte, (∀ k, k < len.toNat → a ≠ base + BitVec.ofNat 8 k) →
        memLookup m a.toNat = bufAt s a)

/-! ### Waiting -/

/-- 70_reset_and_hazards.md R195 FA2: while the time runs and the environment makes no move, a delay
wait ends, within one step more than units are left, and not before the deadline; the wait touches
no pin and no register. FA2 is the premise `timeRuns`; that each waiting step then passes at least
one unit is the model's (log 7), and so is the schedule (log 10). -/
def Obligations.DelayWaitEnds : Prop :=
  ∀ (s : State) (id : Byte), s.turns = [] → s.timeRuns = true → engineEnabled s = false →
    (runningAt s (.sel id) 3 ∨ runningAt s (.des id) 2) →
    ∃ n t, n ≤ s.seq.deadline - s.time + 1 ∧ Host.Core.run Sys2Proof.core n s = .next t ∧
      t.seq.cmd = none ∧ s.seq.deadline ≤ t.time ∧
      ∃ tm fr h, t = { s with
        time := tm, fresh := fr, hist := h, seq := { s.seq with cmd := none } }

/-- 60_exceptions.md R166: an exchange that the hardware never ends, with no move of the environment
(a reset or a mended wire would end it), is a hang: the command never completes, no fault is
raised, the block is never ready, and the run has gone wrong (70_reset_and_hazards.md R199).
`wired` and the schedule are the model's (log 8, 10). -/
def Obligations.BrokenWiringHangs : Prop :=
  ∀ (s : State) (i : Instr), s.turns = [] → faulted s = false → s.seq.cmd = some i →
    engineEnabled s = true → s.wired = false →
    goneWrong s ∧ ∀ n, ∃ t tm fr, Host.Core.run Sys2Proof.core n s = .next t ∧
      t = { s with time := tm, fresh := fr } ∧ ready t = false ∧ faulted t = false

/-- 60_exceptions.md R170: a delay wait whose deadline the time never reaches, with no move of the
environment (passing time, a reset or a started clock would end it), is a hang: the command never
completes, no fault is raised, the block is never ready, and the run has gone wrong
(70_reset_and_hazards.md R199). `timeRuns` and the schedule are the model's (log 7, 10). -/
def Obligations.StoppedTimeHangs : Prop :=
  ∀ (s : State) (id : Byte), s.turns = [] → s.timeRuns = false → engineEnabled s = false →
    (runningAt s (.sel id) 3 ∨ runningAt s (.des id) 2) → s.time < s.seq.deadline →
    goneWrong s ∧ ∀ n, ∃ t fr, Host.Core.run Sys2Proof.core n s = .next t ∧
      t = { s with fresh := fr } ∧ ready t = false ∧ faulted t = false

/-- 70_reset_and_hazards.md R199: from every state a run is infinite (a hang), or reaches a state
where it has ended well or faulted; a run that has ended well has not gone wrong and stays so in
every step; a fault is a run gone wrong; a run gone wrong without a fault never ends well, however
many steps it makes; the empty program ends well at reset. That a hang is a run of steps that
never ends well and never faults is the model's (log 20). -/
def Obligations.EndOfARun : Prop :=
  (∀ s, hangs s ∨ ∃ n t, Host.Core.run Sys2Proof.core n s = .next t ∧
    (endedWell t ∨ faulted t = true)) ∧
  (∀ s, endedWell s → ¬ goneWrong s) ∧
  (∀ s t, endedWell s → step s = .next t → endedWell t) ∧
  (∀ s, faulted s = true → goneWrong s ∧ ¬ endedWell s) ∧
  (∀ s n t, goneWrong s → faulted s = false → Host.Core.run Sys2Proof.core n s = .next t →
    ¬ endedWell t ∧ faulted t = false) ∧
  endedWell State.reset

/-! ### Listings -/

/-- 30_encoding.md R82, 10_state.md R14: a time assembles to the least delay that is no shorter; one
above 4095.9375 microseconds does not assemble.
A fraction for a listing's time is the model's (log 18). -/
def Obligations.DelaysRoundUp : Prop :=
  ∀ num den : Nat, den ≠ 0 →
    (∀ d : Half, delayOfMicros num den = some d ↔
      num * 16 ≤ d.toNat * den ∧ ∀ e : Nat, num * 16 ≤ e * den → d.toNat ≤ e) ∧
    (delayOfMicros num den = none ↔ 65535 * den < num * 16)
end

