-- ==== Sys2Proof/Laws/State.lean ====
section
/-! SUPPORT. What each named update does to each field of State, true by rfl. A conjunction tagged
simp gives simp one rule a field, so that no later proof unfolds an update. -/

namespace Sys2Proof.Machine

@[simp] theorem record_fields (e : Event) (s : State) :
    (record e s).dsLine = s.dsLine ∧ (record e s).dsMode = s.dsMode ∧
    (record e s).dsSel = s.dsSel ∧ (record e s).dsDes = s.dsDes ∧ (record e s).resp = s.resp ∧
    (record e s).sdt = s.sdt ∧ (record e s).cfg = s.cfg ∧ (record e s).statTc = s.statTc ∧
    (record e s).statBusy = s.statBusy ∧ (record e s).data = s.data ∧
    (record e s).busdir = s.busdir ∧ (record e s).sessInited = s.sessInited ∧
    (record e s).sessSelv = s.sessSelv ∧ (record e s).sessSelid = s.sessSelid ∧
    (record e s).fcause = s.fcause ∧ (record e s).fcmd = s.fcmd ∧ (record e s).csout = s.csout ∧
    (record e s).buf = s.buf ∧ (record e s).seq = s.seq ∧ (record e s).engCnt = s.engCnt ∧
    (record e s).time = s.time ∧ (record e s).csdir = s.csdir ∧
    (record e s).hist = s.hist ++ [e] ∧ (record e s).respKnown = s.respKnown ∧
    (record e s).dataKnown = s.dataKnown ∧ (record e s).csKnown = s.csKnown ∧
    (record e s).fresh = s.fresh ∧ (record e s).host = s.host ∧ (record e s).answers = s.answers ∧
    (record e s).turns = s.turns ∧ (record e s).wired = s.wired ∧
    (record e s).timeRuns = s.timeRuns ∧ (record e s).bitView = s.bitView ∧
    (record e s).engOut = s.engOut := by
  repeat' apply And.intro
  all_goals rfl

@[simp] theorem drawn_fields (s : State) :
    (drawn s).dsLine = s.dsLine ∧ (drawn s).dsMode = s.dsMode ∧ (drawn s).dsSel = s.dsSel ∧
    (drawn s).dsDes = s.dsDes ∧ (drawn s).resp = s.resp ∧ (drawn s).sdt = s.sdt ∧
    (drawn s).cfg = s.cfg ∧ (drawn s).statTc = s.statTc ∧ (drawn s).statBusy = s.statBusy ∧
    (drawn s).data = s.data ∧ (drawn s).busdir = s.busdir ∧ (drawn s).sessInited = s.sessInited ∧
    (drawn s).sessSelv = s.sessSelv ∧ (drawn s).sessSelid = s.sessSelid ∧
    (drawn s).fcause = s.fcause ∧ (drawn s).fcmd = s.fcmd ∧ (drawn s).csout = s.csout ∧
    (drawn s).buf = s.buf ∧ (drawn s).seq = s.seq ∧ (drawn s).engCnt = s.engCnt ∧
    (drawn s).time = s.time ∧ (drawn s).csdir = s.csdir ∧ (drawn s).hist = s.hist ∧
    (drawn s).respKnown = s.respKnown ∧ (drawn s).dataKnown = s.dataKnown ∧
    (drawn s).csKnown = s.csKnown ∧ (drawn s).fresh = s.fresh + 1 ∧ (drawn s).host = s.host ∧
    (drawn s).answers = s.answers ∧ (drawn s).turns = s.turns ∧ (drawn s).wired = s.wired ∧
    (drawn s).timeRuns = s.timeRuns ∧ (drawn s).bitView = s.bitView ∧ (drawn s).engOut = s.engOut := by
  repeat' apply And.intro
  all_goals rfl

@[simp] theorem waits_fields (s : State) :
    (waits s).dsLine = s.dsLine ∧ (waits s).dsMode = s.dsMode ∧ (waits s).dsSel = s.dsSel ∧
    (waits s).dsDes = s.dsDes ∧ (waits s).resp = s.resp ∧ (waits s).sdt = s.sdt ∧
    (waits s).cfg = s.cfg ∧ (waits s).statTc = s.statTc ∧ (waits s).statBusy = s.statBusy ∧
    (waits s).data = s.data ∧ (waits s).busdir = s.busdir ∧ (waits s).sessInited = s.sessInited ∧
    (waits s).sessSelv = s.sessSelv ∧ (waits s).sessSelid = s.sessSelid ∧
    (waits s).fcause = s.fcause ∧ (waits s).fcmd = s.fcmd ∧ (waits s).csout = s.csout ∧
    (waits s).buf = s.buf ∧ (waits s).seq = s.seq ∧ (waits s).engCnt = s.engCnt ∧
    (waits s).time = (if s.timeRuns then s.time + 1 + Config.timeStep s.fresh else s.time) ∧
    (waits s).csdir = s.csdir ∧ (waits s).hist = s.hist ∧ (waits s).respKnown = s.respKnown ∧
    (waits s).dataKnown = s.dataKnown ∧ (waits s).csKnown = s.csKnown ∧
    (waits s).fresh = s.fresh + 1 ∧ (waits s).host = s.host ∧ (waits s).answers = s.answers ∧
    (waits s).turns = s.turns ∧ (waits s).wired = s.wired ∧ (waits s).timeRuns = s.timeRuns ∧
    (waits s).bitView = s.bitView ∧ (waits s).engOut = s.engOut := by
  repeat' apply And.intro
  all_goals rfl

@[simp] theorem bufWrite_fields (a v : Byte) (s : State) :
    (bufWrite a v s).dsLine = s.dsLine ∧ (bufWrite a v s).dsMode = s.dsMode ∧
    (bufWrite a v s).dsSel = s.dsSel ∧ (bufWrite a v s).dsDes = s.dsDes ∧
    (bufWrite a v s).resp = s.resp ∧ (bufWrite a v s).sdt = s.sdt ∧ (bufWrite a v s).cfg = s.cfg ∧
    (bufWrite a v s).statTc = s.statTc ∧ (bufWrite a v s).statBusy = s.statBusy ∧
    (bufWrite a v s).data = s.data ∧ (bufWrite a v s).busdir = s.busdir ∧
    (bufWrite a v s).sessInited = s.sessInited ∧ (bufWrite a v s).sessSelv = s.sessSelv ∧
    (bufWrite a v s).sessSelid = s.sessSelid ∧ (bufWrite a v s).fcause = s.fcause ∧
    (bufWrite a v s).fcmd = s.fcmd ∧ (bufWrite a v s).csout = s.csout ∧
    (bufWrite a v s).buf = memStore s.buf a.toNat v ∧ (bufWrite a v s).seq = s.seq ∧
    (bufWrite a v s).engCnt = s.engCnt ∧ (bufWrite a v s).time = s.time ∧
    (bufWrite a v s).csdir = s.csdir ∧ (bufWrite a v s).hist = s.hist ++ [.bufStore a v s.time] ∧
    (bufWrite a v s).respKnown = s.respKnown ∧ (bufWrite a v s).dataKnown = s.dataKnown ∧
    (bufWrite a v s).csKnown = s.csKnown ∧ (bufWrite a v s).fresh = s.fresh ∧
    (bufWrite a v s).host = s.host ∧ (bufWrite a v s).answers = s.answers ∧
    (bufWrite a v s).turns = s.turns ∧ (bufWrite a v s).wired = s.wired ∧
    (bufWrite a v s).timeRuns = s.timeRuns ∧ (bufWrite a v s).bitView = s.bitView ∧
    (bufWrite a v s).engOut = s.engOut := by
  repeat' apply And.intro
  all_goals rfl

@[simp] theorem drivePin_fields (l : Line) (v : Bool) (s : State) :
    (drivePin l v s).dsLine = s.dsLine ∧ (drivePin l v s).dsMode = s.dsMode ∧
    (drivePin l v s).dsSel = s.dsSel ∧ (drivePin l v s).dsDes = s.dsDes ∧
    (drivePin l v s).resp = s.resp ∧ (drivePin l v s).sdt = s.sdt ∧ (drivePin l v s).cfg = s.cfg ∧
    (drivePin l v s).statTc = s.statTc ∧ (drivePin l v s).statBusy = s.statBusy ∧
    (drivePin l v s).data = s.data ∧ (drivePin l v s).busdir = s.busdir ∧
    (drivePin l v s).sessInited = s.sessInited ∧ (drivePin l v s).sessSelv = s.sessSelv ∧
    (drivePin l v s).sessSelid = s.sessSelid ∧ (drivePin l v s).fcause = s.fcause ∧
    (drivePin l v s).fcmd = s.fcmd ∧ (drivePin l v s).csout = setLineBit s.csout l v ∧
    (drivePin l v s).buf = s.buf ∧ (drivePin l v s).seq = s.seq ∧
    (drivePin l v s).engCnt = s.engCnt ∧ (drivePin l v s).time = s.time ∧
    (drivePin l v s).csdir = s.csdir ∧ (drivePin l v s).hist = s.hist ++ [.csDrive l v s.time] ∧
    (drivePin l v s).respKnown = s.respKnown ∧ (drivePin l v s).dataKnown = s.dataKnown ∧
    (drivePin l v s).csKnown = setLineBit s.csKnown l true ∧ (drivePin l v s).fresh = s.fresh ∧
    (drivePin l v s).host = s.host ∧ (drivePin l v s).answers = s.answers ∧
    (drivePin l v s).turns = s.turns ∧ (drivePin l v s).wired = s.wired ∧
    (drivePin l v s).timeRuns = s.timeRuns ∧ (drivePin l v s).bitView = s.bitView ∧
    (drivePin l v s).engOut = s.engOut := by
  repeat' apply And.intro
  all_goals rfl

@[simp] theorem arm_fields (d : Half) (s : State) :
    (arm d s).dsLine = s.dsLine ∧ (arm d s).dsMode = s.dsMode ∧ (arm d s).dsSel = s.dsSel ∧
    (arm d s).dsDes = s.dsDes ∧ (arm d s).resp = s.resp ∧ (arm d s).sdt = s.sdt ∧
    (arm d s).cfg = s.cfg ∧ (arm d s).statTc = s.statTc ∧ (arm d s).statBusy = s.statBusy ∧
    (arm d s).data = s.data ∧ (arm d s).busdir = s.busdir ∧ (arm d s).sessInited = s.sessInited ∧
    (arm d s).sessSelv = s.sessSelv ∧ (arm d s).sessSelid = s.sessSelid ∧
    (arm d s).fcause = s.fcause ∧ (arm d s).fcmd = s.fcmd ∧ (arm d s).csout = s.csout ∧
    (arm d s).buf = s.buf ∧ (arm d s).seq = { s.seq with deadline := s.time + d.toNat } ∧
    (arm d s).engCnt = s.engCnt ∧ (arm d s).time = s.time ∧ (arm d s).csdir = s.csdir ∧
    (arm d s).hist = s.hist ∧ (arm d s).respKnown = s.respKnown ∧
    (arm d s).dataKnown = s.dataKnown ∧ (arm d s).csKnown = s.csKnown ∧
    (arm d s).fresh = s.fresh ∧ (arm d s).host = s.host ∧ (arm d s).answers = s.answers ∧
    (arm d s).turns = s.turns ∧ (arm d s).wired = s.wired ∧ (arm d s).timeRuns = s.timeRuns ∧
    (arm d s).bitView = s.bitView ∧ (arm d s).engOut = s.engOut := by
  repeat' apply And.intro
  all_goals rfl

@[simp] theorem goto_fields (p : Nat) (s : State) :
    (goto p s).dsLine = s.dsLine ∧ (goto p s).dsMode = s.dsMode ∧ (goto p s).dsSel = s.dsSel ∧
    (goto p s).dsDes = s.dsDes ∧ (goto p s).resp = s.resp ∧ (goto p s).sdt = s.sdt ∧
    (goto p s).cfg = s.cfg ∧ (goto p s).statTc = s.statTc ∧ (goto p s).statBusy = s.statBusy ∧
    (goto p s).data = s.data ∧ (goto p s).busdir = s.busdir ∧
    (goto p s).sessInited = s.sessInited ∧ (goto p s).sessSelv = s.sessSelv ∧
    (goto p s).sessSelid = s.sessSelid ∧ (goto p s).fcause = s.fcause ∧ (goto p s).fcmd = s.fcmd ∧
    (goto p s).csout = s.csout ∧ (goto p s).buf = s.buf ∧
    (goto p s).seq = { s.seq with phase := p } ∧ (goto p s).engCnt = s.engCnt ∧
    (goto p s).time = s.time ∧ (goto p s).csdir = s.csdir ∧ (goto p s).hist = s.hist ∧
    (goto p s).respKnown = s.respKnown ∧ (goto p s).dataKnown = s.dataKnown ∧
    (goto p s).csKnown = s.csKnown ∧ (goto p s).fresh = s.fresh ∧ (goto p s).host = s.host ∧
    (goto p s).answers = s.answers ∧ (goto p s).turns = s.turns ∧ (goto p s).wired = s.wired ∧
    (goto p s).timeRuns = s.timeRuns ∧ (goto p s).bitView = s.bitView ∧
    (goto p s).engOut = s.engOut := by
  repeat' apply And.intro
  all_goals rfl

@[simp] theorem nextIdx_fields (s : State) :
    (nextIdx s).dsLine = s.dsLine ∧ (nextIdx s).dsMode = s.dsMode ∧ (nextIdx s).dsSel = s.dsSel ∧
    (nextIdx s).dsDes = s.dsDes ∧ (nextIdx s).resp = s.resp ∧ (nextIdx s).sdt = s.sdt ∧
    (nextIdx s).cfg = s.cfg ∧ (nextIdx s).statTc = s.statTc ∧ (nextIdx s).statBusy = s.statBusy ∧
    (nextIdx s).data = s.data ∧ (nextIdx s).busdir = s.busdir ∧
    (nextIdx s).sessInited = s.sessInited ∧ (nextIdx s).sessSelv = s.sessSelv ∧
    (nextIdx s).sessSelid = s.sessSelid ∧ (nextIdx s).fcause = s.fcause ∧
    (nextIdx s).fcmd = s.fcmd ∧ (nextIdx s).csout = s.csout ∧ (nextIdx s).buf = s.buf ∧
    (nextIdx s).seq = { s.seq with idx := s.seq.idx + 1 } ∧ (nextIdx s).engCnt = s.engCnt ∧
    (nextIdx s).time = s.time ∧ (nextIdx s).csdir = s.csdir ∧ (nextIdx s).hist = s.hist ∧
    (nextIdx s).respKnown = s.respKnown ∧ (nextIdx s).dataKnown = s.dataKnown ∧
    (nextIdx s).csKnown = s.csKnown ∧ (nextIdx s).fresh = s.fresh ∧ (nextIdx s).host = s.host ∧
    (nextIdx s).answers = s.answers ∧ (nextIdx s).turns = s.turns ∧ (nextIdx s).wired = s.wired ∧
    (nextIdx s).timeRuns = s.timeRuns ∧ (nextIdx s).bitView = s.bitView ∧
    (nextIdx s).engOut = s.engOut := by
  repeat' apply And.intro
  all_goals rfl

@[simp] theorem start_fields (i : Instr) (s : State) :
    (start i s).dsLine = s.dsLine ∧ (start i s).dsMode = s.dsMode ∧ (start i s).dsSel = s.dsSel ∧
    (start i s).dsDes = s.dsDes ∧ (start i s).resp = s.resp ∧ (start i s).sdt = s.sdt ∧
    (start i s).cfg = s.cfg ∧ (start i s).statTc = s.statTc ∧ (start i s).statBusy = s.statBusy ∧
    (start i s).data = s.data ∧ (start i s).busdir = s.busdir ∧
    (start i s).sessInited = s.sessInited ∧ (start i s).sessSelv = s.sessSelv ∧
    (start i s).sessSelid = s.sessSelid ∧ (start i s).fcause = s.fcause ∧
    (start i s).fcmd = s.fcmd ∧ (start i s).csout = s.csout ∧ (start i s).buf = s.buf ∧
    (start i s).seq = { s.seq with cmd := some i, phase := 1, idx := 0 } ∧
    (start i s).engCnt = s.engCnt ∧ (start i s).time = s.time ∧ (start i s).csdir = s.csdir ∧
    (start i s).hist = s.hist ∧ (start i s).respKnown = s.respKnown ∧
    (start i s).dataKnown = s.dataKnown ∧ (start i s).csKnown = s.csKnown ∧
    (start i s).fresh = s.fresh ∧ (start i s).host = s.host ∧ (start i s).answers = s.answers ∧
    (start i s).turns = s.turns ∧ (start i s).wired = s.wired ∧
    (start i s).timeRuns = s.timeRuns ∧ (start i s).bitView = s.bitView ∧
    (start i s).engOut = s.engOut := by
  repeat' apply And.intro
  all_goals rfl

@[simp] theorem done_fields (i : Instr) (s : State) :
    (done i s).dsLine = s.dsLine ∧ (done i s).dsMode = s.dsMode ∧ (done i s).dsSel = s.dsSel ∧
    (done i s).dsDes = s.dsDes ∧ (done i s).resp = s.resp ∧ (done i s).sdt = s.sdt ∧
    (done i s).cfg = s.cfg ∧ (done i s).statTc = s.statTc ∧ (done i s).statBusy = s.statBusy ∧
    (done i s).data = s.data ∧ (done i s).busdir = s.busdir ∧
    (done i s).sessInited = s.sessInited ∧ (done i s).sessSelv = s.sessSelv ∧
    (done i s).sessSelid = s.sessSelid ∧ (done i s).fcause = s.fcause ∧ (done i s).fcmd = s.fcmd ∧
    (done i s).csout = s.csout ∧ (done i s).buf = s.buf ∧
    (done i s).seq = { s.seq with cmd := none } ∧ (done i s).engCnt = s.engCnt ∧
    (done i s).time = s.time ∧ (done i s).csdir = s.csdir ∧
    (done i s).hist = s.hist ++ [.done (encode i) none s.time] ∧
    (done i s).respKnown = s.respKnown ∧ (done i s).dataKnown = s.dataKnown ∧
    (done i s).csKnown = s.csKnown ∧ (done i s).fresh = s.fresh ∧ (done i s).host = s.host ∧
    (done i s).answers = s.answers ∧ (done i s).turns = s.turns ∧ (done i s).wired = s.wired ∧
    (done i s).timeRuns = s.timeRuns ∧ (done i s).bitView = s.bitView ∧
    (done i s).engOut = s.engOut := by
  repeat' apply And.intro
  all_goals rfl

@[simp] theorem doneVal_fields (i : Instr) (v : Half) (s : State) :
    (doneVal i v s).dsLine = s.dsLine ∧ (doneVal i v s).dsMode = s.dsMode ∧
    (doneVal i v s).dsSel = s.dsSel ∧ (doneVal i v s).dsDes = s.dsDes ∧ (doneVal i v s).resp = v ∧
    (doneVal i v s).sdt = s.sdt ∧ (doneVal i v s).cfg = s.cfg ∧
    (doneVal i v s).statTc = s.statTc ∧ (doneVal i v s).statBusy = s.statBusy ∧
    (doneVal i v s).data = s.data ∧ (doneVal i v s).busdir = s.busdir ∧
    (doneVal i v s).sessInited = s.sessInited ∧ (doneVal i v s).sessSelv = s.sessSelv ∧
    (doneVal i v s).sessSelid = s.sessSelid ∧ (doneVal i v s).fcause = s.fcause ∧
    (doneVal i v s).fcmd = s.fcmd ∧ (doneVal i v s).csout = s.csout ∧
    (doneVal i v s).buf = s.buf ∧ (doneVal i v s).seq = { s.seq with cmd := none } ∧
    (doneVal i v s).engCnt = s.engCnt ∧ (doneVal i v s).time = s.time ∧
    (doneVal i v s).csdir = s.csdir ∧
    (doneVal i v s).hist = s.hist ++ [.done (encode i) (some v) s.time] ∧
    (doneVal i v s).respKnown = true ∧ (doneVal i v s).dataKnown = s.dataKnown ∧
    (doneVal i v s).csKnown = s.csKnown ∧ (doneVal i v s).fresh = s.fresh ∧
    (doneVal i v s).host = s.host ∧ (doneVal i v s).answers = s.answers ∧
    (doneVal i v s).turns = s.turns ∧ (doneVal i v s).wired = s.wired ∧
    (doneVal i v s).timeRuns = s.timeRuns ∧ (doneVal i v s).bitView = s.bitView ∧
    (doneVal i v s).engOut = s.engOut := by
  repeat' apply And.intro
  all_goals rfl

@[simp] theorem raise_fields (c : Cause) (w : Word) (s : State) :
    (raise c w s).dsLine = s.dsLine ∧ (raise c w s).dsMode = s.dsMode ∧
    (raise c w s).dsSel = s.dsSel ∧ (raise c w s).dsDes = s.dsDes ∧ (raise c w s).resp = s.resp ∧
    (raise c w s).sdt = s.sdt ∧ (raise c w s).cfg = s.cfg ∧ (raise c w s).statTc = s.statTc ∧
    (raise c w s).statBusy = s.statBusy ∧ (raise c w s).data = s.data ∧
    (raise c w s).busdir = s.busdir ∧ (raise c w s).sessInited = s.sessInited ∧
    (raise c w s).sessSelv = s.sessSelv ∧ (raise c w s).sessSelid = s.sessSelid ∧
    (raise c w s).fcause = causeCode c ∧ (raise c w s).fcmd = w ∧ (raise c w s).csout = s.csout ∧
    (raise c w s).buf = s.buf ∧ (raise c w s).seq = s.seq ∧ (raise c w s).engCnt = s.engCnt ∧
    (raise c w s).time = s.time ∧ (raise c w s).csdir = s.csdir ∧
    (raise c w s).hist = s.hist ++ [.faultEv c w s.time] ∧ (raise c w s).respKnown = s.respKnown ∧
    (raise c w s).dataKnown = s.dataKnown ∧ (raise c w s).csKnown = s.csKnown ∧
    (raise c w s).fresh = s.fresh ∧ (raise c w s).host = s.host ∧
    (raise c w s).answers = s.answers ∧ (raise c w s).turns = s.turns ∧
    (raise c w s).wired = s.wired ∧ (raise c w s).timeRuns = s.timeRuns ∧
    (raise c w s).bitView = s.bitView ∧ (raise c w s).engOut = s.engOut := by
  repeat' apply And.intro
  all_goals rfl

@[simp] theorem load_fields (b : Byte) (s : State) :
    (load b s).dsLine = s.dsLine ∧ (load b s).dsMode = s.dsMode ∧ (load b s).dsSel = s.dsSel ∧
    (load b s).dsDes = s.dsDes ∧ (load b s).resp = s.resp ∧ (load b s).sdt = s.sdt ∧
    (load b s).cfg = s.cfg ∧ (load b s).statTc = false ∧ (load b s).statBusy = true ∧
    (load b s).data = b ∧ (load b s).busdir = s.busdir ∧ (load b s).sessInited = s.sessInited ∧
    (load b s).sessSelv = s.sessSelv ∧ (load b s).sessSelid = s.sessSelid ∧
    (load b s).fcause = s.fcause ∧ (load b s).fcmd = s.fcmd ∧ (load b s).csout = s.csout ∧
    (load b s).buf = s.buf ∧ (load b s).seq = s.seq ∧ (load b s).engCnt = s.engCnt ∧
    (load b s).time = s.time ∧ (load b s).csdir = s.csdir ∧
    (load b s).hist = s.hist ++ [.xferStart b (cfgMode s.cfg) (cfgDbl s.cfg) s.time] ∧
    (load b s).respKnown = s.respKnown ∧ (load b s).dataKnown = true ∧
    (load b s).csKnown = s.csKnown ∧ (load b s).fresh = s.fresh ∧ (load b s).host = s.host ∧
    (load b s).answers = s.answers ∧ (load b s).turns = s.turns ∧ (load b s).wired = s.wired ∧
    (load b s).timeRuns = s.timeRuns ∧ (load b s).bitView = s.bitView ∧
    (load b s).engOut = s.engOut := by
  repeat' apply And.intro
  all_goals rfl

@[simp] theorem xferComplete_fields (o i : Byte) (s : State) :
    (xferComplete o i s).dsLine = s.dsLine ∧ (xferComplete o i s).dsMode = s.dsMode ∧
    (xferComplete o i s).dsSel = s.dsSel ∧ (xferComplete o i s).dsDes = s.dsDes ∧
    (xferComplete o i s).resp = s.resp ∧ (xferComplete o i s).sdt = s.sdt ∧
    (xferComplete o i s).cfg = s.cfg ∧ (xferComplete o i s).statTc = true ∧
    (xferComplete o i s).statBusy = false ∧ (xferComplete o i s).data = i ∧
    (xferComplete o i s).busdir = s.busdir ∧ (xferComplete o i s).sessInited = s.sessInited ∧
    (xferComplete o i s).sessSelv = s.sessSelv ∧ (xferComplete o i s).sessSelid = s.sessSelid ∧
    (xferComplete o i s).fcause = s.fcause ∧ (xferComplete o i s).fcmd = s.fcmd ∧
    (xferComplete o i s).csout = s.csout ∧ (xferComplete o i s).buf = s.buf ∧
    (xferComplete o i s).seq = s.seq ∧ (xferComplete o i s).engCnt = s.engCnt ∧
    (xferComplete o i s).time = s.time ∧ (xferComplete o i s).csdir = s.csdir ∧
    (xferComplete o i s).hist = s.hist ++ [.xferEnd o i s.time] ∧
    (xferComplete o i s).respKnown = s.respKnown ∧ (xferComplete o i s).dataKnown = true ∧
    (xferComplete o i s).csKnown = s.csKnown ∧ (xferComplete o i s).fresh = s.fresh ∧
    (xferComplete o i s).host = s.host ∧ (xferComplete o i s).answers = s.answers ∧
    (xferComplete o i s).turns = s.turns ∧ (xferComplete o i s).wired = s.wired ∧
    (xferComplete o i s).timeRuns = s.timeRuns ∧ (xferComplete o i s).bitView = s.bitView ∧
    (xferComplete o i s).engOut = s.engOut := by
  repeat' apply And.intro
  all_goals rfl

@[simp] theorem turnTaken_fields (s : State) :
    (turnTaken s).dsLine = s.dsLine ∧ (turnTaken s).dsMode = s.dsMode ∧
    (turnTaken s).dsSel = s.dsSel ∧ (turnTaken s).dsDes = s.dsDes ∧ (turnTaken s).resp = s.resp ∧
    (turnTaken s).sdt = s.sdt ∧ (turnTaken s).cfg = s.cfg ∧ (turnTaken s).statTc = s.statTc ∧
    (turnTaken s).statBusy = s.statBusy ∧ (turnTaken s).data = s.data ∧
    (turnTaken s).busdir = s.busdir ∧ (turnTaken s).sessInited = s.sessInited ∧
    (turnTaken s).sessSelv = s.sessSelv ∧ (turnTaken s).sessSelid = s.sessSelid ∧
    (turnTaken s).fcause = s.fcause ∧ (turnTaken s).fcmd = s.fcmd ∧
    (turnTaken s).csout = s.csout ∧ (turnTaken s).buf = s.buf ∧ (turnTaken s).seq = s.seq ∧
    (turnTaken s).engCnt = s.engCnt ∧ (turnTaken s).time = s.time ∧
    (turnTaken s).csdir = s.csdir ∧ (turnTaken s).hist = s.hist ∧
    (turnTaken s).respKnown = s.respKnown ∧ (turnTaken s).dataKnown = s.dataKnown ∧
    (turnTaken s).csKnown = s.csKnown ∧ (turnTaken s).fresh = s.fresh ∧
    (turnTaken s).host = s.host ∧ (turnTaken s).answers = s.answers ∧
    (turnTaken s).turns = s.turns.tail ∧ (turnTaken s).wired = s.wired ∧
    (turnTaken s).timeRuns = s.timeRuns ∧ (turnTaken s).bitView = s.bitView ∧
    (turnTaken s).engOut = s.engOut := by
  repeat' apply And.intro
  all_goals rfl

@[simp] theorem initWrites_fields (d : Bool) (s : State) :
    (initWrites d s).dsLine = s.dsLine ∧ (initWrites d s).dsMode = s.dsMode ∧
    (initWrites d s).dsSel = s.dsSel ∧ (initWrites d s).dsDes = s.dsDes ∧
    (initWrites d s).resp = s.resp ∧ (initWrites d s).sdt = s.sdt ∧
    (initWrites d s).cfg = cfgInit s.cfg d ∧ (initWrites d s).statTc = s.statTc ∧
    (initWrites d s).statBusy = s.statBusy ∧ (initWrites d s).data = s.data ∧
    (initWrites d s).busdir = 0b11 ∧ (initWrites d s).sessInited = true ∧
    (initWrites d s).sessSelv = s.sessSelv ∧ (initWrites d s).sessSelid = s.sessSelid ∧
    (initWrites d s).fcause = s.fcause ∧ (initWrites d s).fcmd = s.fcmd ∧
    (initWrites d s).csout = s.csout ∧ (initWrites d s).buf = s.buf ∧
    (initWrites d s).seq = s.seq ∧ (initWrites d s).engCnt = s.engCnt ∧
    (initWrites d s).time = s.time ∧ (initWrites d s).csdir = s.csdir ∧
    (initWrites d s).hist = s.hist ∧ (initWrites d s).respKnown = s.respKnown ∧
    (initWrites d s).dataKnown = s.dataKnown ∧ (initWrites d s).csKnown = s.csKnown ∧
    (initWrites d s).fresh = s.fresh ∧ (initWrites d s).host = s.host ∧
    (initWrites d s).answers = s.answers ∧ (initWrites d s).turns = s.turns ∧
    (initWrites d s).wired = s.wired ∧ (initWrites d s).timeRuns = s.timeRuns ∧
    (initWrites d s).bitView = s.bitView ∧ (initWrites d s).engOut = s.engOut := by
  repeat' apply And.intro
  all_goals rfl

@[simp] theorem answerTaken_fields (s : State) :
    (answerTaken s).dsLine = s.dsLine ∧ (answerTaken s).dsMode = s.dsMode ∧
    (answerTaken s).dsSel = s.dsSel ∧ (answerTaken s).dsDes = s.dsDes ∧
    (answerTaken s).resp = s.resp ∧ (answerTaken s).sdt = s.sdt ∧ (answerTaken s).cfg = s.cfg ∧
    (answerTaken s).statTc = s.statTc ∧ (answerTaken s).statBusy = s.statBusy ∧
    (answerTaken s).data = s.data ∧ (answerTaken s).busdir = s.busdir ∧
    (answerTaken s).sessInited = s.sessInited ∧ (answerTaken s).sessSelv = s.sessSelv ∧
    (answerTaken s).sessSelid = s.sessSelid ∧ (answerTaken s).fcause = s.fcause ∧
    (answerTaken s).fcmd = s.fcmd ∧ (answerTaken s).csout = s.csout ∧
    (answerTaken s).buf = s.buf ∧ (answerTaken s).seq = s.seq ∧
    (answerTaken s).engCnt = s.engCnt ∧ (answerTaken s).time = s.time ∧
    (answerTaken s).csdir = s.csdir ∧ (answerTaken s).hist = s.hist ∧
    (answerTaken s).respKnown = s.respKnown ∧ (answerTaken s).dataKnown = s.dataKnown ∧
    (answerTaken s).csKnown = s.csKnown ∧ (answerTaken s).host = s.host ∧
    (answerTaken s).turns = s.turns ∧ (answerTaken s).wired = s.wired ∧
    (answerTaken s).timeRuns = s.timeRuns ∧ (answerTaken s).bitView = s.bitView ∧
    (answerTaken s).engOut = s.engOut := by
  unfold answerTaken
  cases s.answers <;> (repeat' apply And.intro) <;> rfl

@[simp] theorem bufRead_fields (a : Byte) (s : State) :
    (bufRead a s).2.dsLine = s.dsLine ∧ (bufRead a s).2.dsMode = s.dsMode ∧
    (bufRead a s).2.dsSel = s.dsSel ∧ (bufRead a s).2.dsDes = s.dsDes ∧
    (bufRead a s).2.resp = s.resp ∧ (bufRead a s).2.sdt = s.sdt ∧ (bufRead a s).2.cfg = s.cfg ∧
    (bufRead a s).2.statTc = s.statTc ∧ (bufRead a s).2.statBusy = s.statBusy ∧
    (bufRead a s).2.data = s.data ∧ (bufRead a s).2.busdir = s.busdir ∧
    (bufRead a s).2.sessInited = s.sessInited ∧ (bufRead a s).2.sessSelv = s.sessSelv ∧
    (bufRead a s).2.sessSelid = s.sessSelid ∧ (bufRead a s).2.fcause = s.fcause ∧
    (bufRead a s).2.fcmd = s.fcmd ∧ (bufRead a s).2.csout = s.csout ∧
    (bufRead a s).2.buf = s.buf ∧ (bufRead a s).2.seq = s.seq ∧
    (bufRead a s).2.engCnt = s.engCnt ∧ (bufRead a s).2.time = s.time ∧
    (bufRead a s).2.csdir = s.csdir ∧ (bufRead a s).2.hist = s.hist ∧
    (bufRead a s).2.respKnown = s.respKnown ∧ (bufRead a s).2.dataKnown = s.dataKnown ∧
    (bufRead a s).2.csKnown = s.csKnown ∧ (bufRead a s).2.host = s.host ∧
    (bufRead a s).2.answers = s.answers ∧ (bufRead a s).2.turns = s.turns ∧
    (bufRead a s).2.wired = s.wired ∧ (bufRead a s).2.timeRuns = s.timeRuns ∧
    (bufRead a s).2.bitView = s.bitView ∧ (bufRead a s).2.engOut = s.engOut := by
  unfold bufRead
  cases bufAt s a <;> (repeat' apply And.intro) <;> rfl

@[simp] theorem resetBlock_fields (s : State) :
    (resetBlock s).dsLine = 0 ∧ (resetBlock s).dsMode = 0 ∧ (resetBlock s).dsSel = 0 ∧
    (resetBlock s).dsDes = 0 ∧ (resetBlock s).resp = 0 ∧
    (resetBlock s).sdt = Vector.replicate 8 Slot.reset ∧ (resetBlock s).cfg = 0 ∧
    (resetBlock s).statTc = false ∧ (resetBlock s).statBusy = false ∧ (resetBlock s).data = 0 ∧
    (resetBlock s).busdir = 0 ∧ (resetBlock s).sessInited = false ∧
    (resetBlock s).sessSelv = false ∧ (resetBlock s).sessSelid = 0 ∧ (resetBlock s).fcause = 0 ∧
    (resetBlock s).fcmd = 0 ∧ (resetBlock s).csout = Vector.replicate 4 0 ∧
    (resetBlock s).buf = [] ∧ (resetBlock s).seq = Seq.reset ∧ (resetBlock s).engCnt = 0 ∧
    (resetBlock s).time = s.time ∧ (resetBlock s).csdir = s.csdir ∧ (resetBlock s).hist = s.hist ∧
    (resetBlock s).respKnown = false ∧ (resetBlock s).dataKnown = false ∧
    (resetBlock s).csKnown = Vector.replicate 4 0 ∧ (resetBlock s).fresh = s.fresh ∧
    (resetBlock s).host = s.host ∧ (resetBlock s).answers = s.answers ∧
    (resetBlock s).turns = s.turns ∧ (resetBlock s).wired = s.wired ∧
    (resetBlock s).timeRuns = s.timeRuns ∧ (resetBlock s).bitView = s.bitView ∧
    (resetBlock s).engOut = s.engOut := by
  repeat' apply And.intro
  all_goals rfl

/-- Reset of the reset state is the reset state. -/
theorem resetBlock_reset : resetBlock State.reset = State.reset := rfl

/-- The sizes of 00_scope.md R5 are those of the state's types. -/
theorem config_sizes :
    Config.nslots = State.reset.sdt.size ∧ Config.nports = State.reset.csout.size ∧
      Config.nlines = 2 ^ 5 ∧ Config.nmodes = 2 ^ 2 ∧ Config.bufsize = 2 ^ 8 ∧
      Config.maxBurst = 2 ^ 8 - 1 ∧ Config.npins = Config.xferBits := by decide

end Sys2Proof.Machine
end

