-- ==== Sys2Proof/Laws/Bits.lean ====
section
/-! SUPPORT. The bit-field helpers: fields of a word, fields of CFG, the table and the latches. -/

namespace Sys2Proof

theorem toNat_wordOf (op hi a b : Byte) :
    (wordOf op hi a b).toNat = op.toNat * 2 ^ 24 + hi.toNat * 2 ^ 16 + a.toNat * 2 ^ 8 + b.toNat := by
  have := hi.isLt; have := a.isLt; have := b.isLt
  simp only [wordOf, BitVec.toNat_append]
  rw [← Nat.shiftLeft_add_eq_or_of_lt (by omega), ← Nat.shiftLeft_add_eq_or_of_lt (by omega),
    ← Nat.shiftLeft_add_eq_or_of_lt (by omega)]
  simp only [Nat.shiftLeft_eq]
  omega

theorem toNat_wordOfD (f : Byte) (d : Half) :
    (wordOfD f d).toNat = 0x10 * 2 ^ 24 + f.toNat * 2 ^ 16 + d.toNat := by
  have := f.isLt; have := d.isLt
  simp only [wordOfD, BitVec.toNat_append]
  rw [← Nat.shiftLeft_add_eq_or_of_lt (by omega), ← Nat.shiftLeft_add_eq_or_of_lt (by omega)]
  simp only [Nat.shiftLeft_eq, BitVec.toNat_ofNat]
  omega

theorem toNat_opField (w : Word) : (opField w).toNat = w.toNat / 2 ^ 24 := by
  have := w.isLt
  simp only [opField, BitVec.extractLsb'_toNat, Nat.shiftRight_eq_div_pow]
  omega

theorem toNat_hiField (w : Word) : (hiField w).toNat = w.toNat / 2 ^ 16 % 2 ^ 8 := by
  simp [hiField, BitVec.extractLsb'_toNat, Nat.shiftRight_eq_div_pow]

theorem toNat_aField (w : Word) : (aField w).toNat = w.toNat / 2 ^ 8 % 2 ^ 8 := by
  simp [aField, BitVec.extractLsb'_toNat, Nat.shiftRight_eq_div_pow]

theorem toNat_bField (w : Word) : (bField w).toNat = w.toNat % 2 ^ 8 := by
  simp [bField, BitVec.extractLsb'_toNat]

theorem toNat_immField (w : Word) : (immField w).toNat = w.toNat % 2 ^ 16 := by
  simp [immField, BitVec.extractLsb'_toNat]

@[simp] theorem opField_wordOf (op hi a b : Byte) : opField (wordOf op hi a b) = op := by
  have := op.isLt; have := hi.isLt; have := a.isLt; have := b.isLt
  apply BitVec.eq_of_toNat_eq; rw [toNat_opField, toNat_wordOf]; omega

@[simp] theorem hiField_wordOf (op hi a b : Byte) : hiField (wordOf op hi a b) = hi := by
  have := op.isLt; have := hi.isLt; have := a.isLt; have := b.isLt
  apply BitVec.eq_of_toNat_eq; rw [toNat_hiField, toNat_wordOf]; omega

@[simp] theorem aField_wordOf (op hi a b : Byte) : aField (wordOf op hi a b) = a := by
  have := op.isLt; have := hi.isLt; have := a.isLt; have := b.isLt
  apply BitVec.eq_of_toNat_eq; rw [toNat_aField, toNat_wordOf]; omega

@[simp] theorem bField_wordOf (op hi a b : Byte) : bField (wordOf op hi a b) = b := by
  have := b.isLt
  apply BitVec.eq_of_toNat_eq; rw [toNat_bField, toNat_wordOf]; omega

@[simp] theorem opField_wordOfD (f : Byte) (d : Half) : opField (wordOfD f d) = 0x10 := by
  have := f.isLt; have := d.isLt
  apply BitVec.eq_of_toNat_eq; rw [toNat_opField, toNat_wordOfD]; simp; omega

@[simp] theorem hiField_wordOfD (f : Byte) (d : Half) : hiField (wordOfD f d) = f := by
  have := f.isLt; have := d.isLt
  apply BitVec.eq_of_toNat_eq; rw [toNat_hiField, toNat_wordOfD]; omega

@[simp] theorem immField_wordOfD (f : Byte) (d : Half) : immField (wordOfD f d) = d := by
  have := d.isLt
  apply BitVec.eq_of_toNat_eq; rw [toNat_immField, toNat_wordOfD]; omega

/-- The conjunction of two words, byte by byte. -/
theorem wordOf_and (a b c d a' b' c' d' : Byte) :
    wordOf a b c d &&& wordOf a' b' c' d' = wordOf (a &&& a') (b &&& b') (c &&& c') (d &&& d') := by
  simp only [wordOf]
  apply BitVec.eq_of_getLsbD_eq
  intro i hi
  simp only [BitVec.getLsbD_and, BitVec.getLsbD_append]
  split
  · simp
  · split
    · simp
    · split <;> simp

/-- Words are equal when their bytes are. -/
theorem wordOf_inj (a b c d a' b' c' d' : Byte) :
    wordOf a b c d = wordOf a' b' c' d' ↔ a = a' ∧ b = b' ∧ c = c' ∧ d = d' := by
  constructor
  · intro h
    exact ⟨by simpa using congrArg opField h, by simpa using congrArg hiField h,
      by simpa using congrArg aField h, by simpa using congrArg bField h⟩
  · rintro ⟨rfl, rfl, rfl, rfl⟩; rfl

/-- A word is made of its four byte fields. -/
theorem wordOf_fields (w : Word) : wordOf (opField w) (hiField w) (aField w) (bField w) = w := by
  apply BitVec.eq_of_toNat_eq
  rw [toNat_wordOf, toNat_opField, toNat_hiField, toNat_aField, toNat_bField]
  have := w.isLt
  omega

/-- A word with opcode 0x10 is made of its format D fields. -/
theorem wordOfD_fields (w : Word) (h : (opField w).toNat = 0x10) :
    wordOfD (hiField w) (immField w) = w := by
  apply BitVec.eq_of_toNat_eq
  rw [toNat_wordOfD, toNat_hiField, toNat_immField]
  rw [toNat_opField] at h
  omega

namespace Machine

@[simp] theorem slotAt_setSlot_same (t : Vector Slot 8) (i : BitVec 3) (x : Slot) :
    slotAt (setSlot t i x) i = x := by simp [slotAt, setSlot]

theorem slotAt_setSlot_other (t : Vector Slot 8) (i j : BitVec 3) (x : Slot) (h : j ≠ i) :
    slotAt (setSlot t i x) j = slotAt t j := by
  have : i.toNat ≠ j.toNat := fun e => h (BitVec.eq_of_toNat_eq e.symm)
  simp [slotAt, setSlot, this]

@[simp] theorem portAt_setPort_same (v : Vector Byte 4) (p : BitVec 2) (x : Byte) :
    portAt (setPort v p x) p = x := by simp [portAt, setPort]

theorem portAt_setPort_other (v : Vector Byte 4) (p q : BitVec 2) (x : Byte) (h : q ≠ p) :
    portAt (setPort v p x) q = portAt v q := by
  have : p.toNat ≠ q.toNat := fun e => h (BitVec.eq_of_toNat_eq e.symm)
  simp [portAt, setPort, this]

theorem getLsbD_setBit (v : Byte) (n m : BitVec 3) (b : Bool) :
    (setBit v n b).getLsbD m.toNat = if m = n then b else v.getLsbD m.toNat := by
  revert v n m b
  decide +kernel

/-- A line is its port and its pin (10_state.md R27). -/
theorem line_ext (l k : Line) (hp : linePort l = linePort k) (hn : linePin l = linePin k) : l = k := by
  revert l k
  decide +kernel

/-- One line's bit after a write of a line's bit: that bit, and every other bit as before. -/
theorem lineBit_setLineBit (v : Vector Byte 4) (l k : Line) (b : Bool) :
    lineBit (setLineBit v l b) k = if k = l then b else lineBit v k := by
  unfold lineBit setLineBit
  by_cases hp : linePort k = linePort l
  · rw [hp, portAt_setPort_same, getLsbD_setBit]
    by_cases hn : linePin k = linePin l
    · simp [line_ext k l hp hn]
    · have hk : k ≠ l := fun e => hn (by rw [e])
      simp [hn, hk, ← hp]
  · have hk : k ≠ l := fun e => hp (by rw [e])
    rw [portAt_setPort_other _ _ _ _ hp]
    simp [hk]

/-- The fields of CFG after INIT (40_init.md R90). -/
theorem cfgInit_fields (c : Byte) (d : Bool) :
    cfgEn (cfgInit c d) = true ∧ cfgMstr (cfgInit c d) = true ∧ cfgDbl (cfgInit c d) = d ∧
      cfgMode (cfgInit c d) = cfgMode c ∧ cfgReserved (cfgInit c d) = cfgReserved c := by
  revert c d
  decide +kernel

/-- The fields of CFG after SEL's mode write (42_select_deselect.md R110). -/
theorem cfgSetMode_fields (c : Byte) (m : BitVec 2) :
    cfgEn (cfgSetMode c m) = cfgEn c ∧ cfgMstr (cfgSetMode c m) = cfgMstr c ∧
      cfgDbl (cfgSetMode c m) = cfgDbl c ∧ cfgMode (cfgSetMode c m) = m ∧
      cfgReserved (cfgSetMode c m) = cfgReserved c := by
  revert c m
  decide +kernel

/-- The slot of an id in range is the slot of its number. -/
theorem slotIx_toNat (id : Byte) (h : id.toNat < 8) : (slotIx id).toNat = id.toNat := by
  simp [slotIx]; omega

/-- An id in range that names the selected slot is the selected id (42_select_deselect.md R113). -/
theorem slotIx_eq_of_setWidth (k : BitVec 3) (id : Byte) (h : k.setWidth 8 = id) : k = slotIx id := by
  subst h
  apply BitVec.eq_of_toNat_eq
  simp [slotIx]

/-- The WellFormed list of reserved numbers (R143) and the map of R56 agree. -/
theorem reservedRegNum_eq (r : Byte) : reservedRegNum r = (regOf r).isNone := by
  revert r
  decide +kernel

/-- One bit of the shift register after a shift (43_transfer.md R123). -/
theorem getLsbD_shiftIn (sr : Byte) (m : Bool) (k : Nat) (hk : k < 8) :
    (shiftIn sr m).getLsbD k = if k = 0 then m else sr.getLsbD (k - 1) := by
  revert sr m k
  decide +kernel

end Machine
end Sys2Proof
end

