-- ==== Sys2Proof/Laws/Memory.lean ====
section
/-! SUPPORT. The buffer's listing: read after write, and the canonical form is kept. -/

namespace Sys2Proof.Machine

theorem memLookup_memStore_same (m : List Host.Cell) (a : Nat) (v : Byte) :
    memLookup (memStore m a v) a = some v := by
  induction m with
  | nil => simp [memStore, memLookup]
  | cons c rest ih =>
    obtain ⟨k, b⟩ := c
    unfold memStore
    split
    · simp [memLookup]
    · split
      · simp [memLookup]
      · next h1 h2 => simp [memLookup, Ne.symm h2, ih]

theorem memLookup_memStore_other (m : List Host.Cell) (a a' : Nat) (v : Byte) (h : a' ≠ a) :
    memLookup (memStore m a v) a' = memLookup m a' := by
  induction m with
  | nil => simp [memStore, memLookup, h.symm]
  | cons c rest ih =>
    obtain ⟨k, b⟩ := c
    unfold memStore
    split
    · simp [memLookup, h.symm]
    · split
      · next h2 => simp [memLookup, ← h2, h.symm]
      · simp [memLookup, ih]

theorem memWfFrom_memStore (m : List Host.Cell) (lo a : Nat) (v : Byte) (hm : memWfFrom lo m = true)
    (hlo : lo ≤ a) (ha : a < 256) : memWfFrom lo (memStore m a v) = true := by
  induction m generalizing lo with
  | nil => simp [memStore, memWfFrom, hlo, ha]
  | cons c rest ih =>
    obtain ⟨k, b⟩ := c
    simp only [memWfFrom, Bool.and_eq_true, decide_eq_true_eq] at hm
    unfold memStore
    split
    · next h => simp [memWfFrom, hlo, ha, hm.2, hm.1.2]; omega
    · split
      · next h => subst h; simp [memWfFrom, hlo, ha, hm.2]
      · next h1 h2 =>
        simp only [memWfFrom, Bool.and_eq_true, decide_eq_true_eq]
        exact ⟨hm.1, ih (k + 1) hm.2 (by omega)⟩

/-- A store keeps the canonical form. -/
theorem memWf_memStore (m : List Host.Cell) (a v : Byte) (hm : memWf m = true) :
    memWf (memStore m a.toNat v) = true :=
  memWfFrom_memStore m 0 a.toNat v hm (Nat.zero_le _) a.isLt

/-- The reset state's buffer is canonical: it lists nothing. -/
theorem memWf_reset : memWf State.reset.buf = true := rfl

/-- A read of the buffer keeps its canonical form. -/
theorem bufRead_memWf (a : Byte) (s : State) (h : memWf s.buf = true) :
    memWf (bufRead a s).2.buf = true := by simpa using h

/-- A write of the buffer keeps its canonical form. -/
theorem bufWrite_memWf (a v : Byte) (s : State) (h : memWf s.buf = true) :
    memWf (bufWrite a v s).buf = true := by simpa using memWf_memStore s.buf a v h

/-- A listing in canonical form that starts at `k + 1` lists nothing at `k`. -/
theorem memLookup_below (m : List Host.Cell) (lo a : Nat) (h : memWfFrom lo m = true) (ha : a < lo) :
    memLookup m a = none := by
  induction m generalizing lo with
  | nil => rfl
  | cons c rest ih =>
    obtain ⟨k, b⟩ := c
    simp only [memWfFrom, Bool.and_eq_true, decide_eq_true_eq] at h
    have hk : k ≠ a := by omega
    simp only [memLookup, hk, if_false]
    exact ih (k + 1) h.2 (by omega)

/-- Two canonical listings that read the same everywhere are equal. -/
theorem memWf_ext (m m' : List Host.Cell) (lo : Nat) (h : memWfFrom lo m = true)
    (h' : memWfFrom lo m' = true) (heq : ∀ a, memLookup m a = memLookup m' a) : m = m' := by
  induction m generalizing m' lo with
  | nil =>
    cases m' with
    | nil => rfl
    | cons c rest => obtain ⟨k, b⟩ := c; simpa [memLookup, unlistedByte] using heq k
  | cons c rest ih =>
    obtain ⟨k, b⟩ := c
    simp only [memWfFrom, Bool.and_eq_true, decide_eq_true_eq] at h
    cases m' with
    | nil => simpa [memLookup, unlistedByte] using heq k
    | cons c' rest' =>
      obtain ⟨k', b'⟩ := c'
      simp only [memWfFrom, Bool.and_eq_true, decide_eq_true_eq] at h'
      have hkk : k = k' := by
        rcases Nat.lt_trichotomy k k' with hlt | he | hgt
        · have e := heq k
          have : k' ≠ k := by omega
          simp only [memLookup, if_true, this, if_false] at e
          rw [memLookup_below rest' (k' + 1) k h'.2 (by omega)] at e
          exact absurd e (by simp)
        · exact he
        · have e := heq k'
          have : k ≠ k' := by omega
          simp only [memLookup, if_true, this, if_false] at e
          rw [memLookup_below rest (k + 1) k' h.2 (by omega)] at e
          exact absurd e (by simp)
      subst hkk
      have hb : b = b' := by simpa [memLookup] using heq k
      subst hb
      congr 1
      refine ih rest' (k + 1) h.2 h'.2 fun a => ?_
      by_cases ha : k = a
      · subst ha
        rw [memLookup_below rest (k + 1) k h.2 (by omega),
          memLookup_below rest' (k + 1) k h'.2 (by omega)]
      · simpa [memLookup, ha] using heq a

/-- `BUF[a]` after a write: the byte at its address, every other byte as before. -/
theorem bufAt_bufWrite (a v x : Byte) (s : State) :
    bufAt (bufWrite a v s) x = if x = a then some v else bufAt s x := by
  unfold bufAt
  simp only [bufWrite_fields]
  split
  · next h => subst h; exact memLookup_memStore_same _ _ _
  · next h => exact memLookup_memStore_other _ _ _ _ fun e => h (BitVec.eq_of_toNat_eq e)

end Sys2Proof.Machine
end

