-- ==== Sys2Proof/Laws/Ops.lean ====
section
/-! SUPPORT. One lemma per shared operation that says everything it can do, and what exec can do. -/

namespace Sys2Proof.Machine

/-- The first failing check of a list is one of its checks, and it fails. -/
theorem firstFailing_some {l : List (Bool × Cause)} {c : Cause} (h : firstFailing l = some c) :
    (true, c) ∈ l := by
  induction l with
  | nil => simp [firstFailing] at h
  | cons x rest ih =>
    obtain ⟨b, d⟩ := x
    cases b
    · simp only [firstFailing, Bool.false_eq_true, if_false] at h
      exact List.mem_cons_of_mem _ (ih h)
    · simp only [firstFailing, if_true, Option.some.injEq] at h
      simp [h]

/-- No check fails exactly when every check of the list passes. -/
theorem firstFailing_none {l : List (Bool × Cause)} :
    firstFailing l = none ↔ ∀ x ∈ l, x.1 = false := by
  induction l with
  | nil => simp [firstFailing]
  | cons x rest ih =>
    obtain ⟨b, d⟩ := x
    cases b <;> simp [firstFailing, ih]

theorem ready_iff (s : State) : ready s = true ↔ s.seq.cmd = none ∧ faulted s = false := by
  simp [ready, seqIdle]

theorem faulted_iff (s : State) : faulted s = true ↔ s.fcause ≠ 0 := by
  simp [faulted]

theorem causeCode_ne_zero (c : Cause) : causeCode c ≠ 0 := by cases c <;> decide

theorem causeCode_le (c : Cause) : (causeCode c).toNat ≤ 8 := by cases c <;> decide

/-- `faulted` looks at FCAUSE alone. -/
theorem faulted_congr {s t : State} (h : t.fcause = s.fcause) : faulted t = faulted s := by
  simp [faulted, h]

/-- After a fault FAULT is 1 (60_exceptions.md R151). -/
@[simp] theorem faulted_raise (c : Cause) (w : Word) (s : State) : faulted (raise c w s) = true := by
  simpa [faulted] using causeCode_ne_zero c

/-- The accept step: a fault for the first failing check, or the start. -/
theorem accept_cases (i : Instr) (check : State → Option Cause) (s : State) :
    (∃ c, check s = some c ∧ accept i check s = raise c (encode i) s) ∨
      (check s = none ∧ accept i check s = start i s) := by
  unfold accept
  cases h : check s with
  | none => exact .inr ⟨rfl, rfl⟩
  | some c => exact .inl ⟨c, rfl, rfl⟩

theorem command_ready {i : Instr} {check : State → Option Cause} {micro : Nat → State → State}
    {s : State} (h : ready s = true) : command i check micro s = .next (accept i check s) := by
  obtain ⟨hc, hf⟩ := (ready_iff s).1 h
  simp [command, hc, hf]

theorem command_running {i : Instr} {check : State → Option Cause} {micro : Nat → State → State}
    {s : State} {p : Nat} (h : runningAt s i p) : command i check micro s = .next (micro p s) := by
  obtain ⟨hf, hc, hp⟩ := h
  simp [command, hc, hf, hp]

/-- What a command's step can do when it answers a next state. -/
theorem command_next {i : Instr} {check : State → Option Cause} {micro : Nat → State → State}
    {s t : State} (h : command i check micro s = .next t) :
    faulted s = false ∧
      ((s.seq.cmd = none ∧ t = accept i check s) ∨
        (s.seq.cmd = some i ∧ t = micro s.seq.phase s)) := by
  unfold command at h
  split at h
  · cases h
  · next hf =>
    refine ⟨by simpa using hf, ?_⟩
    split at h
    · next hc => exact .inl ⟨hc, by simpa using h.symm⟩
    · next j hc =>
      split at h
      · next hj => exact .inr ⟨by rw [hc, hj], by simpa using h.symm⟩
      · cases h

/-- A command that is one atomic step acts in phase 1 and otherwise lets time pass. -/
theorem onePhase_cases (act : State → State) (p : Nat) (s : State) :
    (p = 1 ∧ onePhase act p s = act s) ∨ onePhase act p s = waits s := by
  unfold onePhase
  split
  · exact .inl ⟨rfl, rfl⟩
  · exact .inr rfl

/-- The check a command makes at acceptance (60_exceptions.md R160). -/
def checkOf : Instr → State → Option Cause
  | .init _ => initCheck
  | .reg id => regCheck id
  | .sel id => selCheck id
  | .des id => desCheck id
  | .wr _ => xferCheck
  | .wrb _ _ => xferCheck
  | .rd => xferCheck
  | .rdb _ _ => xferCheck
  | .lddLine _ => noCheck
  | .lddMode _ => noCheck
  | .lddSeld _ => noCheck
  | .lddDesd _ => noCheck
  | .stb _ _ => noCheck
  | .ldb _ => noCheck
  | .rdr r => rdrCheck r

/-- The micro-steps of a command. -/
def microOf : Instr → Nat → State → State
  | .init dbl => onePhase fun s => done (.init dbl) (initWrites dbl s)
  | .reg id => regPhase id
  | .sel id => selPhase id
  | .des id => desPhase id
  | .wr b => singlePhase (.wr b) b
  | .wrb base len => wrbPhase base len
  | .rd => singlePhase .rd 0x00
  | .rdb base len => rdbPhase base len
  | .lddLine l => onePhase fun s => done (.lddLine l) { s with dsLine := l }
  | .lddMode m => onePhase fun s => done (.lddMode m) { s with dsMode := m }
  | .lddSeld d => onePhase fun s => done (.lddSeld d) { s with dsSel := d }
  | .lddDesd d => onePhase fun s => done (.lddDesd d) { s with dsDes := d }
  | .stb a b => onePhase fun s => done (.stb a b) (bufWrite a b s)
  | .ldb a => onePhase (ldbStep a)
  | .rdr r => onePhase (rdrStep r)

/-- Every meaning is the shared command step over its own checks and micro-steps. -/
theorem exec_eq_command (i : Instr) (s : State) :
    exec i s = command i (checkOf i) (microOf i) s := by cases i <;> rfl

theorem exec_ready {i : Instr} {s : State} (h : ready s = true) :
    exec i s = .next (accept i (checkOf i) s) := by rw [exec_eq_command, command_ready h]

theorem exec_running {i : Instr} {s : State} {p : Nat} (h : runningAt s i p) :
    exec i s = .next (microOf i p s) := by rw [exec_eq_command, command_running h]

/-- What exec can do when it answers a next state. -/
theorem exec_next {i : Instr} {s t : State} (h : exec i s = .next t) :
    faulted s = false ∧
      ((s.seq.cmd = none ∧ t = accept i (checkOf i) s) ∨
        (s.seq.cmd = some i ∧ t = microOf i s.seq.phase s)) :=
  command_next (by rw [← exec_eq_command]; exact h)

/-- An accepted command is running in its first phase (10_state.md R34). -/
theorem start_running (i : Instr) {s : State} (h : ready s = true) : runningAt (start i s) i 1 := by
  obtain ⟨_, hf⟩ := (ready_iff s).1 h
  refine ⟨?_, by simp, by simp⟩
  rw [faulted_congr (s := s) (by simp)]; exact hf

end Sys2Proof.Machine
end

