-- ==== Sys2Proof/Laws/PerInstr.lean ====
section
/-! SUPPORT. Per command: its word carries its opcode in bits 31:24 (30_encoding.md R70, R73). -/

namespace Sys2Proof.Laws.OpcodeField

/-- The command's word has the command's opcode. -/
def Statement (i : Instr) : Prop := opField (encode i) = i.opcode

theorem init (dbl : Bool) : Statement (.init dbl) := by simp [Statement, encode, Instr.opcode]
theorem reg (id : Byte) : Statement (.reg id) := by simp [Statement, encode, Instr.opcode]
theorem sel (id : Byte) : Statement (.sel id) := by simp [Statement, encode, Instr.opcode]
theorem des (id : Byte) : Statement (.des id) := by simp [Statement, encode, Instr.opcode]
theorem wr (b : Byte) : Statement (.wr b) := by simp [Statement, encode, Instr.opcode]
theorem wrb (base len : Byte) : Statement (.wrb base len) := by
  simp [Statement, encode, Instr.opcode]
theorem rd : Statement .rd := by simp [Statement, encode, Instr.opcode]
theorem rdb (base len : Byte) : Statement (.rdb base len) := by
  simp [Statement, encode, Instr.opcode]
theorem lddLine (l : Line) : Statement (.lddLine l) := by simp [Statement, encode, Instr.opcode]
theorem lddMode (m : BitVec 2) : Statement (.lddMode m) := by
  simp [Statement, encode, Instr.opcode]
theorem lddSeld (d : Half) : Statement (.lddSeld d) := by simp [Statement, encode, Instr.opcode]
theorem lddDesd (d : Half) : Statement (.lddDesd d) := by simp [Statement, encode, Instr.opcode]
theorem stb (a b : Byte) : Statement (.stb a b) := by simp [Statement, encode, Instr.opcode]
theorem ldb (a : Byte) : Statement (.ldb a) := by simp [Statement, encode, Instr.opcode]
theorem rdr (r : Byte) : Statement (.rdr r) := by simp [Statement, encode, Instr.opcode]

end Sys2Proof.Laws.OpcodeField
end

