-- ==== Sys2Proof/Laws/Step.lean ====
section
/-! SUPPORT. What a step can do: the environment's move, or one of the block's five. -/

namespace Sys2Proof.Machine

/-- The step, when it is the block's turn. -/
theorem step_block {s : State} (h : blockTurn s) : step s = blockStep (turnTaken s) := by
  unfold step machineStep
  rcases h with h | h
  · rw [h]
  · obtain ⟨rest, hr⟩ := List.head?_eq_some_iff.1 h
    rw [hr]

/-- Taking a turn where none is listed changes nothing. -/
theorem turnTaken_nil {s : State} (h : s.turns = []) : turnTaken s = s := by
  unfold turnTaken
  rw [h, List.tail_nil, ← h]

/-- A step is a listed move of the environment, or the block's own. -/
theorem step_cases {s t : State} (h : step s = .next t) :
    (∃ m, s.turns.head? = some (.env m) ∧ t = envMove m (turnTaken s)) ∨
      (blockTurn s ∧ blockStep (turnTaken s) = .next t) := by
  unfold step machineStep at h
  split at h
  · next m rest he => exact .inl ⟨m, by rw [he]; rfl, by simpa using h.symm⟩
  · next rest he => exact .inr ⟨.inr (by rw [he]; rfl), h⟩
  · next he => exact .inr ⟨.inl he, h⟩

/-- Everything the block's step can do: a wait; a word accepted, either a command's accept step or an
illegal word's fault; the engine's step; the sequencer's micro-step. -/
theorem blockStep_cases {s t : State} (h : blockStep s = .next t) :
    ((faulted s = true ∨ (s.seq.cmd = none ∧ s.host = []) ∨
        (s.seq.cmd ≠ none ∧ engineEnabled s = true ∧ s.wired = false)) ∧ t = waits s) ∨
    (faulted s = false ∧ s.seq.cmd = none ∧ ∃ w rest i, s.host = w :: rest ∧
        decode w = .ok i ∧
        t = accept i (checkOf i) (record (.accept w s.time) { s with host := rest })) ∨
    (faulted s = false ∧ s.seq.cmd = none ∧ ∃ w rest e, s.host = w :: rest ∧
        decode w = .error e ∧
        t = raise .illegalCommand w (record (.accept w s.time) { s with host := rest })) ∨
    (faulted s = false ∧ s.seq.cmd ≠ none ∧ engineEnabled s = true ∧
        s.wired = true ∧ t = engineStep s) ∨
    (faulted s = false ∧ engineEnabled s = false ∧
        ∃ i, s.seq.cmd = some i ∧ t = microOf i s.seq.phase s) := by
  unfold blockStep at h
  split at h
  · next hf => exact .inl ⟨.inl hf, by simpa using h.symm⟩
  · next hf =>
    have hf : faulted s = false := by simpa using hf
    split at h
    · next i hc =>
      unfold runStep at h
      split at h
      · next hen =>
        split at h
        · next hw =>
          exact .inr (.inr (.inr (.inl ⟨hf, by simp [hc], hen, hw, by simpa using h.symm⟩)))
        · next hw =>
          exact .inl ⟨.inr (.inr ⟨by simp [hc], hen, by simpa using hw⟩), by simpa using h.symm⟩
      · next hen =>
        rw [exec_running (p := s.seq.phase) ⟨hf, hc, rfl⟩] at h
        exact .inr (.inr (.inr (.inr ⟨hf, by simpa using hen, i, hc, by simpa using h.symm⟩)))
    · next hc =>
      unfold hostStep at h
      split at h
      · next hh => exact .inl ⟨.inr (.inl ⟨hc, hh⟩), by simpa using h.symm⟩
      · next w rest hh =>
        unfold acceptWord at h
        split at h
        · next i hd =>
          rw [exec_ready (by simp [ready_iff, hc, faulted_congr (s := s), hf])] at h
          exact .inr (.inl ⟨hf, hc, w, rest, i, hh, hd, by simpa using h.symm⟩)
        · next e hd =>
          exact .inr (.inr (.inl ⟨hf, hc, w, rest, e, hh, hd, by simpa using h.symm⟩))

/-- A micro-step does not look at the schedule. -/
theorem microOf_turns (i : Instr) (p : Nat) (s : State) (x : List Turn) :
    microOf i p { s with turns := x } = { microOf i p s with turns := x } := by
  have hb : ∀ a, bufRead a { s with turns := x } =
      ((bufRead a s).1, { (bufRead a s).2 with turns := x }) := by
    intro a
    have h2 : bufAt { s with turns := x } a = bufAt s a := rfl
    unfold bufRead
    rw [h2]
    cases bufAt s a <;> rfl
  have he : expired { s with turns := x } = expired s := rfl
  cases i <;>
    simp only [microOf, onePhase, regPhase, selPhase, desPhase, singlePhase, wrbPhase, rdbPhase,
      wrbLoad, ldbStep, rdrStep, hb, he] <;>
    repeat' (first | rfl | split)

/-- The accept step does not look at the schedule. -/
theorem accept_turns (i : Instr) (s : State) (x : List Turn) :
    accept i (checkOf i) { s with turns := x } = { accept i (checkOf i) s with turns := x } := by
  have h : checkOf i { s with turns := x } = checkOf i s := by cases i <;> rfl
  unfold accept
  rw [h]
  cases checkOf i s <;> rfl

/-- A command's step does not look at the schedule. -/
theorem exec_turns {i : Instr} {s t : State} (h : exec i s = .next t) (x : List Turn) :
    exec i { s with turns := x } = .next { t with turns := x } := by
  obtain ⟨hf, ⟨hc, rfl⟩ | ⟨hc, rfl⟩⟩ := exec_next h
  · rw [exec_ready (s := { s with turns := x }) ((ready_iff _).2 ⟨hc, hf⟩), accept_turns]
  · rw [exec_running (s := { s with turns := x }) (p := s.seq.phase) ⟨hf, hc, rfl⟩, microOf_turns]

/-- The engine's step does not look at the schedule. -/
theorem engineStep_turns (s : State) (x : List Turn) :
    engineStep { s with turns := x } = { engineStep s with turns := x } := by
  have ha : answerTaken { s with turns := x } = { answerTaken s with turns := x } := by
    simp only [answerTaken]
    split <;> rfl
  have hs : slaveAnswer { s with turns := x } = slaveAnswer s := rfl
  unfold engineStep shiftByte shiftBit
  simp only [ha, hs]
  split
  · split <;> rfl
  · rfl

/-- The block's step does not look at the schedule: whose turn comes later is the environment's. -/
theorem blockStep_turns {s t : State} (h : blockStep s = .next t) (x : List Turn) :
    blockStep { s with turns := x } = .next { t with turns := x } := by
  have h1 : faulted { s with turns := x } = faulted s := rfl
  have h2 : engineEnabled { s with turns := x } = engineEnabled s := rfl
  unfold blockStep at h ⊢
  rw [h1]
  cases hf : faulted s
  · simp only [hf, Bool.false_eq_true, if_false] at h ⊢
    cases hc : s.seq.cmd with
    | some i =>
      simp only [hc, runStep, h2] at h ⊢
      split at h
      · next he =>
        rw [if_pos he]
        by_cases hw : s.wired = true
        · rw [if_pos hw] at h ⊢
          cases h
          exact congrArg _ (engineStep_turns s x)
        · rw [if_neg hw] at h ⊢
          cases h
          rfl
      · next he =>
        rw [if_neg he]
        exact exec_turns h x
    | none =>
      simp only [hc, hostStep, acceptWord] at h ⊢
      revert h
      split
      · intro h; cases h; rfl
      · split
        · intro h; exact exec_turns h x
        · intro h; cases h; rfl
  · simp only [hf, if_true] at h ⊢
    cases h; rfl

/-- The block's step leaves the schedule as it is. -/
theorem blockStep_keeps_turns {s t : State} (h : blockStep s = .next t) : t.turns = s.turns := by
  have h' := blockStep_turns h s.turns
  rw [show ({ s with turns := s.turns } : State) = s from rfl, h] at h'
  injection h' with h'
  rw [h']

/-- A run of one step more is the step, then the run. -/
theorem run_succ {s t : State} (k : Nat) (h : step s = .next t) :
    Host.Core.run Sys2Proof.core (k + 1) s = Host.Core.run Sys2Proof.core k t := by
  have h' : Sys2Proof.core.step s = .next t := h
  simp only [Host.Core.run, h']

/-- A waiting step passes time and does nothing else. -/
theorem waits_passesTime (s : State) : passesTime s (waits s) := by
  by_cases h : s.timeRuns = true
  · refine ⟨1 + Config.timeStep s.fresh, s.fresh + 1, ?_, fun _ => Nat.le_add_right 1 _, fun h' => ?_⟩
    · rw [waits, if_pos h, Nat.add_assoc]
    · rw [h] at h'; cases h'
  · refine ⟨0, s.fresh + 1, ?_, fun h' => absurd h' h, fun _ => rfl⟩
    rw [waits, if_neg h]
    rfl

/-- The latest chip-select event of an appended history. -/
theorem lastDrive_append (l m : List Event) :
    lastDrive (l ++ m) = (lastDrive m).or (lastDrive l) := by
  induction l with
  | nil => cases h : lastDrive m <;> simp [lastDrive, h]
  | cons x rest ih =>
    simp only [List.cons_append, lastDrive, ih]
    cases lastDrive m <;> simp

end Sys2Proof.Machine
end

