-- ==== Sys2Proof/Tests/Slice0.lean ====
section
/-! SUPPORT. Tests from the vectors of 95_test_vectors.md, and for every obligation with hypotheses a
state and operands that meet them. -/

namespace Sys2Proof.Tests

open Sys2Proof Sys2Proof.Machine

/-! ### Decoding: 95_test_vectors.md 2.1, words written from 30_encoding.md R71 to R76 -/

theorem test_decode_init : decode 0x01000000 = .ok (.init false) ∧ decode 0x01000001 = .ok (.init true) :=
  ⟨rfl, rfl⟩
theorem test_decode_reg : decode 0x02000007 = .ok (.reg 7) := rfl
theorem test_decode_sel : decode 0x030000FF = .ok (.sel 255) := rfl
theorem test_decode_des : decode 0x04000003 = .ok (.des 3) := rfl
theorem test_decode_wr : decode 0x050000A5 = .ok (.wr 0xA5) := rfl
theorem test_decode_wrb : decode 0x06001003 = .ok (.wrb 0x10 3) := rfl
theorem test_decode_rd : decode 0x07000000 = .ok .rd := rfl
theorem test_decode_rdb : decode 0x0800FE03 = .ok (.rdb 0xFE 3) := rfl
theorem test_decode_lddLine : decode 0x1000000A = .ok (.lddLine 10) := rfl
theorem test_decode_lddMode : decode 0x10010003 = .ok (.lddMode 3) := rfl
theorem test_decode_lddSeld : decode 0x1002FFFF = .ok (.lddSeld 65535) := rfl
theorem test_decode_lddDesd : decode 0x10030020 = .ok (.lddDesd 32) := rfl
theorem test_decode_stb : decode 0x1100100A = .ok (.stb 0x10 0x0A) := rfl
theorem test_decode_ldb : decode 0x120000FF = .ok (.ldb 0xFF) := rfl
theorem test_decode_rdr : decode 0x13000004 = .ok (.rdr 0x04) := rfl

/-- V-DEC-3, 6, 10, 12, 15, 17: a must-be-zero bit. -/
theorem test_decode_must_be_zero :
    decode 0x01000002 = .error .mustBeZero ∧ decode 0x02000100 = .error .mustBeZero ∧
    decode 0x06011003 = .error .mustBeZero ∧ decode 0x07000001 = .error .mustBeZero ∧
    decode 0x10000020 = .error .mustBeZero ∧ decode 0x10010004 = .error .mustBeZero :=
  ⟨rfl, rfl, rfl, rfl, rfl, rfl⟩

/-- V-DEC-20, 25 to 28: reserved `fsel` and opcodes. -/
theorem test_decode_reserved :
    decode 0x10040000 = .error (.reservedFsel 4) ∧
    decode 0x00000000 = .error (.reservedOpcode 0) ∧
    decode 0xFFFFFFFF = .error (.reservedOpcode 0xFF) ∧
    decode 0x09000000 = .error (.reservedOpcode 9) ∧
    decode 0x14000000 = .error (.reservedOpcode 0x14) := ⟨rfl, rfl, rfl, rfl, rfl⟩

/-! ### WellFormed (30_encoding.md R77, R78): each check refuses an ill-formed command -/

theorem test_wf_ids_refused :
    (Instr.reg 8).wellFormed = false ∧ (Instr.sel 255).wellFormed = false ∧
    (Instr.des 8).wellFormed = false := ⟨rfl, rfl, rfl⟩
theorem test_wf_ids_accepted :
    (Instr.reg 7).wellFormed = true ∧ (Instr.sel 0).wellFormed = true ∧
    (Instr.des 7).wellFormed = true := ⟨rfl, rfl, rfl⟩
/-- The edges of the reserved ranges of 44_host_access.md R143. -/
theorem test_wf_rdr_refused :
    (Instr.rdr 0x05).wellFormed = false ∧ (Instr.rdr 0x07).wellFormed = false ∧
    (Instr.rdr 0x13).wellFormed = false ∧ (Instr.rdr 0x2F).wellFormed = false ∧
    (Instr.rdr 0x30).wellFormed = false ∧ (Instr.rdr 0xFF).wellFormed = false :=
  ⟨rfl, rfl, rfl, rfl, rfl, rfl⟩
theorem test_wf_rdr_accepted :
    (Instr.rdr 0x04).wellFormed = true ∧ (Instr.rdr 0x08).wellFormed = true ∧
    (Instr.rdr 0x12).wellFormed = true ∧ (Instr.rdr 0x2E).wellFormed = true := ⟨rfl, rfl, rfl, rfl⟩

/-! ### Small states -/

/-- After V-INIT-1. -/
def inited : State := { State.reset with cfg := 0xC0, busdir := 3, sessInited := true }

/-- Slot 0 of V-REG-1. -/
def slave0 : Slot := { valid := true, line := 10, mode := 1, seldly := 80, desdly := 32 }

/-- After V-REG-1. -/
def registered : State :=
  { inited with
    dsLine := 10, dsMode := 1, dsSel := 80, dsDes := 32
    sdt := setSlot State.reset.sdt 0 slave0
    csout := setLineBit State.reset.csout 10 true
    csKnown := setLineBit State.reset.csKnown 10 true }

/-- After V-SEL-1, its falling edge at 1003. -/
def selected : State :=
  { registered with
    cfg := 0xC1, sessSelv := true, csout := State.reset.csout
    hist := [.csDrive 10 false 1003], time := 1083 }

/-- `s` with command `i` running in phase `p`. -/
def running (s : State) (i : Instr) (p : Nat) : State :=
  { s with seq := { s.seq with cmd := some i, phase := p } }

/-- V-SEL-1 waiting for its deadline, at `t`. -/
def selWait (t : Nat) : State :=
  { running selected (.sel 0) 3 with
    time := t, seq := { cmd := some (.sel 0), phase := 3, idx := 0, deadline := 1083 } }

/-- WR 0xA5 with its exchange in flight; the slave will answer 0x3C. -/
def shifting : State :=
  { running selected (.wr 0xA5) 2 with
    data := 0xA5, dataKnown := true, statBusy := true, answers := [0x3C] }

/-- The same exchange, ended. -/
def shifted : State := { shifting with data := 0x3C, statBusy := false, statTc := true, answers := [] }

/-- V-FLT-6: after a fault. -/
def failed : State := { inited with fcause := 7, fcmd := 0x04000000 }

/-- A word for the host to present. -/
def presents (s : State) (w : Word) : State := { s with host := [w] }

/-- What a next state shows; nothing where there is none. -/
def shows {α : Type} (f : State → α) : Result → Option α
  | .next t => some (f t)
  | .fault _ => none
  | .refused _ => none

/-! ### One step of each command -/

/-- V-INIT-1. -/
theorem test_init : shows (fun t => (t.cfg, t.busdir, sessByte t))
    (exec (.init false) (running State.reset (.init false) 1)) = some (0xC0, 3, 0x40) := by decide
/-- V-INIT-3. -/
theorem test_init_again : shows (fun t => (t.fcause, t.fcmd, t.cfg)) (exec (.init true) inited) =
    some (3, 0x01000001, 0xC0) := by decide
/-- V-LDD-1 to 4. -/
theorem test_lddLine : shows State.dsLine
    (exec (.lddLine 10) (running State.reset (.lddLine 10) 1)) = some 10 := by decide
theorem test_lddMode : shows (fun t => (t.dsMode, t.cfg))
    (exec (.lddMode 1) (running State.reset (.lddMode 1) 1)) = some (1, 0) := by decide
theorem test_lddSeld : shows State.dsSel
    (exec (.lddSeld 80) (running State.reset (.lddSeld 80) 1)) = some 80 := by decide
theorem test_lddDesd : shows State.dsDes
    (exec (.lddDesd 32) (running State.reset (.lddDesd 32) 1)) = some 32 := by decide
/-- V-REG-1, the slot and its word 0. -/
theorem test_reg_slot : shows (fun t => (slotAt t.sdt 0, regStored t (.word0 0)))
    (exec (.reg 0) (running { inited with dsLine := 10, dsMode := 1, dsSel := 80, dsDes := 32 } (.reg 0) 1)) =
      some (slave0, 0x810A) := by decide
/-- V-REG-1, the line. -/
theorem test_reg_line : shows (fun t => (latch t 10, t.hist.head?))
    (exec (.reg 0) (running { registered with csout := State.reset.csout, time := 9 } (.reg 0) 2)) =
      some (true, some (.csDrive 10 true 9)) := by decide
/-- V-SEL-2. -/
theorem test_sel_mode : shows State.cfg
    (exec (.sel 0) (running { registered with cfg := 0xE2 } (.sel 0) 1)) = some 0xE1 := by decide
/-- V-SEL-1, phase 2 at 1003. -/
theorem test_sel_edge : shows (fun t => (latch t 10, sessByte t, t.seq.deadline))
    (exec (.sel 0) (running { registered with time := 1003 } (.sel 0) 2)) =
      some (false, 0xC0, 1083) := by decide
/-- V-SEL-3, the DES. -/
theorem test_des_edge : shows (fun t => (latch t 10, sessByte t, t.seq.deadline))
    (exec (.des 0) (running { selected with time := 2000 } (.des 0) 1)) =
      some (true, 0x40, 2032) := by decide
/-- V-DES-3: the slot is checked before the selection. -/
theorem test_des_empty : shows (fun t => (t.fcause, t.fcmd)) (exec (.des 1) selected) =
    some (5, 0x04000001) := by decide
/-- V-WR-1, the load. -/
theorem test_wr_load : shows (fun t => (t.data, statByte t, t.hist.getLast?))
    (exec (.wr 0xA5) (running selected (.wr 0xA5) 1)) =
      some (0xA5, 0x01, some (.xferStart 0xA5 1 false 1083)) := by decide
/-- V-WR-1, the completion. -/
theorem test_wr_done : shows (fun t => (t.resp, seqIdle t)) (exec (.wr 0xA5) shifted) =
    some (0x003C, true) := by decide
/-- V-RD-1, the load. -/
theorem test_rd_load : shows (fun t => (t.data, t.hist.getLast?))
    (exec .rd (running { selected with data := 0x77 } .rd 1)) =
      some (0, some (.xferStart 0 1 false 1083)) := by decide
/-- V-WR-4. -/
theorem test_rd_not_initialised : shows State.fcause (exec .rd State.reset) = some 2 := by decide
/-- V-WRB-3: the second byte of a burst from 0xFF is at 0x00. -/
theorem test_wrb_wraps : shows State.data
    (exec (.wrb 0xFF 2) { running selected (.wrb 0xFF 2) 1 with
      buf := [(0, 0x88), (255, 0x77)]
      seq := { cmd := some (.wrb 0xFF 2), phase := 1, idx := 1, deadline := 0 } }) = some 0x88 := by
  decide
/-- V-WRB-4: the check is made even for length 0. -/
theorem test_wrb_not_selected : shows State.fcause (exec (.wrb 0 0) registered) = some 7 := by decide
/-- V-RDB-1: the third answer goes to 0x00. -/
theorem test_rdb_wraps : shows (fun t => (bufAt t 0x00, bufAt t 0xFE, t.seq.idx))
    (exec (.rdb 0xFE 3) { running selected (.rdb 0xFE 3) 2 with
      data := 0x33, statTc := true, buf := [(254, 0x11), (255, 0x22)]
      seq := { cmd := some (.rdb 0xFE 3), phase := 2, idx := 2, deadline := 0 } }) =
      some (some 0x33, some 0x11, 3) := by decide
/-- V-RDB-1: every byte sent is 0x00. -/
theorem test_rdb_sends_zero : shows State.data
    (exec (.rdb 0xFE 3) (running { selected with data := 0x11 } (.rdb 0xFE 3) 1)) = some 0 := by decide
/-- V-STB-1. -/
theorem test_stb : shows (fun t => (bufAt t 0x10, bufAt t 0x11))
    (exec (.stb 0x10 0x0A) (running State.reset (.stb 0x10 0x0A) 1)) = some (some 0x0A, none) := by decide
/-- V-LDB-1. -/
theorem test_ldb : shows State.resp
    (exec (.ldb 0x10) (running { State.reset with buf := [(16, 0x0A)] } (.ldb 0x10) 1)) =
      some 0x000A := by decide
/-- V-RDR-3, SESS. -/
theorem test_rdr : shows State.resp (exec (.rdr 4) (running selected (.rdr 4) 1)) = some 0x00C0 := by
  have h : exec (.rdr 4) (running selected (.rdr 4) 1) =
      .next (doneVal (.rdr 4) (withFree 0x00C0 0 (Config.freeBits 0))
        (drawn (running selected (.rdr 4) 1))) := rfl
  rw [h]
  simp [shows, withFree]
/-- V-RDR-5. -/
theorem test_rdr_reserved : shows (fun t => (t.fcause, t.fcmd, t.resp))
    (exec (.rdr 0x13) State.reset) = some (1, 0x13000013, 0) := by decide

/-! ### The engine, the faults' order, the arithmetic -/

/-- V-WR-1, the shift step. -/
theorem test_shift : shows (fun t => (t.data, statByte t, t.hist.getLast?)) (step shifting) =
    some (0x3C, 0x80, some (.xferEnd 0xA5 0x3C 1083)) := by decide
/-- V-BIT-1: MOSI, MISO, the resting level and the sampling edge of mode 1. -/
theorem test_waveform :
    (waveform 1 0xA5 0x3C).map Period.mosi = [true, false, true, false, false, true, false, true] ∧
    (waveform 1 0xA5 0x3C).map Period.miso = [false, false, true, true, true, true, false, false] ∧
    (waveform 1 0xA5 0x3C).all (fun p => !p.rest && !p.sampleLeading) = true := by decide
/-- R123 and R16 for mode 1: MOSI changes on the leading edge and keeps the bit until the next one. -/
theorem test_waveform_change :
    (waveform 1 0xA5 0x3C).all Period.changeLeading = true ∧
    ((waveform 1 0xA5 0x3C).map Period.mosiBefore).take 3 = [none, some true, some false] ∧
    mosiPin { shifting with bitView := true, engCnt := 1, engOut := 0xA5, data := 0x4A } = some true := by
  decide
/-- R182, R40: a reset in the middle of a command, and a turn of the block before a listed move. -/
theorem test_turns :
    shows (fun t => (t.cfg, t.seq.cmd)) (step { running registered (.sel 0) 2 with turns := [.env .rst] }) =
      some (0, none) ∧
    shows (fun t => (t.seq.phase, t.time, t.turns))
      (step { running registered (.sel 0) 1 with turns := [.block, .env (.time 6)] }) =
      some (2, 0, [.env (.time 6)]) := by decide
/-- V-FLT-1, 2, 3, 4. -/
theorem test_fault_order :
    shows State.fcause (exec (.sel 9) State.reset) = some 2 ∧
    shows State.fcause (exec (.sel 1) selected) = some 5 ∧
    shows State.fcause (exec (.sel 9) selected) = some 4 ∧
    shows State.fcause (exec (.reg 9) selected) = some 4 := by decide
/-- V-SEL-4, V-REG-6, V-DES-1. -/
theorem test_faults_of_selection :
    shows State.fcause (exec (.sel 0) selected) = some 6 ∧
    shows State.fcause (exec (.reg 1) selected) = some 8 ∧
    shows State.fcause (exec (.des 0) registered) = some 7 := by decide
/-- V-FLT-5: an illegal word through the port. -/
theorem test_illegal_word : shows (fun t => (t.fcause, t.fcmd))
    (step (State.reset.withFetchWord 32 0)) = some (1, 0) := by decide
/-- V-AR-1 to 6 and 8. -/
theorem test_arithmetic :
    ea 0x10 2 = 0x12 ∧ ea 0xFE 3 = 0x01 ∧ ea 0x20 254 = 0x1E ∧ cfgSetMode 0xE3 0 = 0xE0 ∧
    cfgSetMode 0xC0 3 = 0xC3 ∧ (arm 0xFFFF { State.reset with time := 70000 }).seq.deadline = 135535 ∧
    slotWord0 { valid := true, line := 31, mode := 3, seldly := 0, desdly := 0 } = 0x831F := by decide
/-- The notations of 2.1: pins and times. -/
theorem test_notations :
    lineOf 0 0 = 0 ∧ lineOf 1 2 = 10 ∧ lineOf 2 5 = 21 ∧ lineOf 3 6 = 30 ∧ lineOf 3 7 = 31 ∧
    delayOfMicros 5 1 = some 80 ∧ delayOfMicros 1 10 = some 2 ∧ delayOfMicros 0 1 = some 0 ∧
    delayOfMicros 40959375 10000 = some 65535 ∧ delayOfMicros 4096 1 = none := by decide
/-- P1 steps 2 to 6 and 7 to 9: the words of the pseudo-instructions. -/
theorem test_pseudo :
    assemble (regd 0 10 1 80 32) = [0x1000000A, 0x10010001, 0x10020050, 0x10030020, 0x02000000] ∧
    assemble (xchg 0 0xA5) = [0x03000000, 0x050000A5, 0x04000000] := ⟨rfl, rfl⟩
/-- A placed word is the first command after reset. -/
theorem test_withFetchWord : shows (fun t => t.seq.cmd)
    (step (State.reset.withFetchWord 32 0x13000004)) = some (some (.rdr 4)) := by decide

/-! ### Witnesses: what each obligation assumes is met -/

theorem witness_EncodeOfDecode : decode 0x10010003 = .ok (.lddMode 3) := rfl

theorem witness_DecodeFollowsMatchAndMask :
    ((0x01000000, 0xFFFFFFFE) : Word × Word) ∈ opcodeRows ∧
      (0x01000001 : Word) &&& 0xFFFFFFFE = 0x01000000 := by
  refine ⟨?_, ?_⟩
  · simp [opcodeRows]
  · decide

theorem witness_IllegalWordsFault :
    (∀ r ∈ opcodeRows, (0x01000002 : Word) &&& r.2 ≠ r.1) ∧
    blockTurn (presents State.reset 0) ∧ ready (presents State.reset 0) = true ∧
    (presents State.reset 0).host = [0] ∧ decode 0 = .error (.reservedOpcode 0) ∧
    (opField 0x00FFFFFF).toNat = 0 ∧ (opField 0x09000000).toNat = 9 ∧
    (opField 0x0F000000).toNat = 0x0F ∧ (opField 0x14000000).toNat = 0x14 ∧
    (opField 0xFF000000).toNat = 0xFF ∧ opField 0x10040000 = 0x10 ∧
    (hiField 0x10040000).toNat = 4 ∧ (hiField 0x10FF0000).toNat = 255 := by
  refine ⟨?_, .inl rfl, rfl, rfl, rfl, ?_⟩
  · simp [opcodeRows]
  decide

/-- A must-be-zero bit at each end of each range of 30_encoding.md R76. -/
theorem witness_IllegalWordsFault_must_be_zero :
    (0x02000100 : Word).extractLsb' 8 16 ≠ 0 ∧ (0x13800000 : Word).extractLsb' 8 16 ≠ 0 ∧
    (0x07000001 : Word).extractLsb' 0 8 ≠ 0 ∧ (0x07000080 : Word).extractLsb' 0 8 ≠ 0 ∧
    (0x06010000 : Word).extractLsb' 16 8 ≠ 0 ∧ (0x11800000 : Word).extractLsb' 16 8 ≠ 0 ∧
    (0x01000002 : Word).extractLsb' 1 7 ≠ 0 ∧ (0x01000080 : Word).extractLsb' 1 7 ≠ 0 ∧
    (0x10000020 : Word).extractLsb' 5 11 ≠ 0 ∧ (0x10008000 : Word).extractLsb' 5 11 ≠ 0 ∧
    (0x10010004 : Word).extractLsb' 2 14 ≠ 0 ∧ (0x10018000 : Word).extractLsb' 2 14 ≠ 0 := by decide

/-- With no turn listed, and with the block's turn listed. -/
theorem witness_PresentedWordIsExecuted :
    blockTurn (presents State.reset 0x01000001) ∧
    blockTurn { presents State.reset 0x01000001 with turns := [.block, .env .rst] } ∧
    ready (presents State.reset 0x01000001) = true ∧
    (presents State.reset 0x01000001).host = [0x01000001] ∧ decode 0x01000001 = .ok (.init true) :=
  ⟨.inl rfl, .inr rfl, rfl, rfl, rfl⟩

theorem witness_RunningCommandIsExecuted :
    (blockTurn shifting ∧ faulted shifting = false ∧ shifting.seq.cmd = some (.wr 0xA5)) ∧
    (engineEnabled shifting = true ∧ shifting.wired = true) ∧
    (blockTurn shifted ∧ faulted shifted = false ∧ shifted.seq.cmd = some (.wr 0xA5) ∧
      engineEnabled shifted = false) :=
  ⟨⟨.inl rfl, by decide, rfl⟩, by decide, .inl rfl, by decide⟩

theorem witness_EnvironmentMovesAtItsTurn :
    ({ State.reset with turns := [.env (.time 0)] }).turns = .env (.time 0) :: [] ∧
    ({ State.reset with turns := [.env (.dir 3 0xFF)] }).turns = .env (.dir 3 0xFF) :: [] ∧
    ({ State.reset with turns := [.env (.wire false)] }).turns = .env (.wire false) :: [] ∧
    ({ State.reset with turns := [.env (.clock false)] }).turns = .env (.clock false) :: [] :=
  ⟨rfl, rfl, rfl, rfl⟩

theorem witness_EnvironmentMovesBetweenAnySteps : shifting.turns = [] := rfl

theorem witness_ResetFromAnyState :
    ({ shifting with turns := [.env .rst] }).turns = .env .rst :: [] := rfl

/-- A fault, no word, broken wiring, SEL one unit before its deadline, a poll with nothing to end. -/
theorem witness_WaitingStepOnlyPassesTime :
    (blockTurn failed ∧ faulted failed = true) ∧
    (blockTurn State.reset ∧ State.reset.seq.cmd = none ∧ State.reset.host = []) ∧
    (blockTurn { shifting with wired := false } ∧ ({ shifting with wired := false }).seq.cmd ≠ none ∧
      engineEnabled { shifting with wired := false } = true ∧
      ({ shifting with wired := false }).wired = false) ∧
    (blockTurn (selWait 1082) ∧ sequencerWaits (selWait 1082) ∧ engineEnabled (selWait 1082) = false) ∧
    sequencerWaits (running selected .rd 2) :=
  ⟨⟨.inl rfl, by decide⟩, ⟨.inl rfl, rfl, rfl⟩, ⟨.inl rfl, by decide⟩,
    ⟨.inl rfl, .inl ⟨0, .inl ⟨rfl, rfl, rfl⟩, by decide⟩, by decide⟩,
    .inr ⟨.rd, rfl, ⟨rfl, rfl, rfl⟩, rfl⟩⟩

theorem witness_PlacedWordIsTheNextCommand : decodeTableWord 32 0x07000000 = some .rd := rfl

/-- Only slot 0 is registered after V-REG-1. -/
theorem registered_slot : ∀ i : BitVec 3, (slotAt registered.sdt i).valid = true → i = 0 := by decide

/-- SEL waiting meets the invariant. -/
theorem witness_inv_selWait (t : Nat) : Inv (selWait t) where
  busyPolls h := nomatch h
  selected _ := by refine ⟨rfl, ?_⟩; show (slotAt registered.sdt 0).valid = true; decide
  inited _ := ⟨by show cfgEn 0xC1 = true; decide, by show cfgMstr 0xC1 = true; decide, rfl⟩
  selectedMode _ := by
    show cfgMode 0xC1 = (slotAt registered.sdt 0).mode ∧
      lineBit State.reset.csout (slotAt registered.sdt 0).line = false
    decide
  faultIdle h := nomatch h
  cfgReservedZero := by show cfgReserved 0xC1 = 0; decide
  causeCodes := by show (0 : Byte).toNat ≤ 8; decide
  phases _ := by show 1 ≤ 3 ∧ 3 ≤ 3; decide
  sequencer := by
    refine ⟨rfl, by show (slotAt registered.sdt 0).valid = true; decide, fun h => ?_, fun h => ?_, ?_⟩
    · exact absurd h (by show ¬ 3 ≤ 2; decide)
    · exact absurd h (by show ¬ 3 = 2; decide)
    · exact fun _ => ⟨rfl, rfl⟩
  bufWf := rfl
  engCount := ⟨by show (0 : BitVec 4).toNat ≤ 7; decide, fun _ => rfl⟩
  registeredHigh i hv _ hs := by
    cases registered_slot i hv
    exact absurd rfl (hs rfl)
  registeredDriven i hv _ := by
    cases registered_slot i hv
    show lineBit registered.csKnown (slotAt registered.sdt 0).line = true
    decide

/-- The state before V-WR-1's load meets the invariant. -/
theorem witness_inv_wr : Inv (running selected (.wr 0xA5) 1) where
  busyPolls h := nomatch h
  selected _ := by refine ⟨rfl, ?_⟩; decide
  inited _ := by refine ⟨?_, ?_, rfl⟩ <;> decide
  selectedMode _ := by decide
  faultIdle h := nomatch h
  cfgReservedZero := by decide
  causeCodes := by decide
  phases _ := by decide
  sequencer := fun _ => ⟨rfl, rfl⟩
  bufWf := rfl
  engCount := ⟨by decide, fun _ => rfl⟩
  registeredHigh i hv _ hs := by
    cases registered_slot i hv
    exact absurd rfl (hs rfl)
  registeredDriven i hv _ := by
    cases registered_slot i hv
    decide

/-- After V-REG-1, REG 7 before it drives its line. -/
def registering : State :=
  running { registered with
    dsLine := 3, sdt := setSlot registered.sdt 7 { slave0 with line := 3 } } (.reg 7) 2

theorem registering_slot :
    ∀ i : BitVec 3, (slotAt registering.sdt i).valid = true → i ≠ 7 → i = 0 := by decide

/-- REG before it drives its line meets the invariant: slot 0's line is high. -/
theorem witness_inv_reg : Inv registering where
  busyPolls h := nomatch h
  selected h := nomatch h
  inited _ := by refine ⟨?_, ?_, rfl⟩ <;> decide
  selectedMode h := nomatch h
  faultIdle h := nomatch h
  cfgReservedZero := by decide
  causeCodes := by decide
  phases _ := by decide
  sequencer := ⟨rfl, rfl, fun _ => by decide⟩
  bufWf := rfl
  engCount := ⟨by decide, fun _ => rfl⟩
  registeredHigh i hv hr _ := by
    cases registering_slot i hv fun h => hr ⟨7, rfl, rfl, h ▸ rfl⟩
    decide
  registeredDriven i hv hr := by
    cases registering_slot i hv fun h => hr ⟨7, rfl, rfl, h ▸ rfl⟩
    decide

theorem witness_StepKeepsTheInvariant :
    (Inv (running selected (.wr 0xA5) 1) ∧ ∃ t, step (running selected (.wr 0xA5) 1) = .next t) ∧
    (slotAt registered.sdt 0).valid = true ∧ latch registered (slotAt registered.sdt 0).line = true :=
  ⟨⟨witness_inv_wr, _, rfl⟩, by decide, by decide⟩

/-- V-SEL-3's DES waiting for its deadline, at `t`; its rising edge came at 2000. -/
def desWait (t : Nat) : State :=
  { registered with
    time := t, hist := [.csDrive 10 true 2000]
    seq := { cmd := some (.des 0), phase := 2, idx := 0, deadline := 2032 } }

theorem desWait_timed (t : Nat) : DeselectionTimed (desWait t) := fun id h _ => by
  cases h
  refine ⟨2000, ?_, ?_⟩
  · show some ((10 : Line), true, 2000) = some ((slotAt registered.sdt 0).line, true, 2000)
    decide
  · show 2032 = 2000 + (slotAt registered.sdt 0).desdly.toNat
    decide

/-- SEL waiting, the selection it leaves, and DES waiting are timed. -/
theorem witness_StepKeepsSelectionTiming :
    (Inv (selWait 1003) ∧ SelectionTimed (selWait 1003) ∧ ∃ t, step (selWait 1003) = .next t) ∧
    SelectionTimed (running selected (.wr 0xA5) 1) ∧
    (DeselectionTimed (desWait 2000) ∧ ∃ t, step (desWait 2000) = .next t) :=
  ⟨⟨witness_inv_selWait 1003, fun _ => ⟨1003, rfl, by decide⟩, _, rfl⟩, fun _ => ⟨1003, rfl, by decide⟩,
    desWait_timed 2000, _, rfl⟩

/-- DES completes at its deadline; and after a DES a SEL makes a falling edge, in a run whose
environment lets time pass to the deadline. -/
theorem witness_NothingBeforeTheDeselectDelay :
    (DeselectionTimed (desWait 2032) ∧ runningAt (desWait 2032) (.des 0) 2 ∧
      ∃ t, exec (.des 0) (desWait 2032) = .next t ∧ t.seq.cmd = none) ∧
    (∃ s t u es, s = { running selected (.des 0) 1 with
        host := [0x03000000], turns := [.env (.time 31)] } ∧
      runningAt s (.des 0) 1 ∧ .env .rst ∉ s.turns ∧ exec (.des 0) s = .next t ∧
      Host.Core.run Sys2Proof.core 5 t = .next u ∧ u.hist = t.hist ++ es ∧
      .csDrive 10 false 1115 ∈ es) :=
  ⟨⟨desWait_timed 2032, ⟨rfl, rfl, rfl⟩, _, rfl, rfl⟩,
    _, _, _, [.done 0x04000000 none 1115, .accept 0x03000000 1115, .modeSet 1 1115,
      .csDrive 10 false 1115],
    rfl, ⟨rfl, rfl, rfl⟩, by decide, rfl, rfl, by decide, by decide⟩

theorem witness_NothingBeforeTheSelectDelay :
    (Inv (selWait 1083) ∧ SelectionTimed (selWait 1083) ∧ runningAt (selWait 1083) (.sel 0) 3 ∧
      ∃ t, exec (.sel 0) (selWait 1083) = .next t ∧ t.seq.cmd = none) ∧
    (∃ t, step (running selected (.wr 0xA5) 1) = .next t ∧
      t.hist = (running selected (.wr 0xA5) 1).hist ++ [.xferStart 0xA5 1 false 1083]) :=
  ⟨⟨witness_inv_selWait 1083, fun _ => ⟨1003, rfl, by decide⟩, ⟨rfl, rfl, rfl⟩, _, rfl, rfl⟩, _, rfl, rfl⟩

theorem witness_LinesFallOnlyInSelect :
    latch (running registered (.sel 0) 2) 10 = true ∧
    ∃ t, step (running registered (.sel 0) 2) = .next t ∧ latch t 10 = false :=
  ⟨by decide, _, rfl, by decide⟩

/-- A command changes each of the staging registers, the response, the table, CFG, BUSDIR, SESS. -/
theorem witness_RegistersKeepToTheirWriters :
    (∃ t, exec (.lddLine 31) (running State.reset (.lddLine 31) 1) = .next t ∧ t.dsLine ≠ 0) ∧
    (∃ t, exec (.lddMode 3) (running State.reset (.lddMode 3) 1) = .next t ∧ t.dsMode ≠ 0) ∧
    (∃ t, exec (.lddSeld 65535) (running State.reset (.lddSeld 65535) 1) = .next t ∧ t.dsSel ≠ 0) ∧
    (∃ t, exec (.lddDesd 65535) (running State.reset (.lddDesd 65535) 1) = .next t ∧ t.dsDes ≠ 0) ∧
    (∃ t, exec (.wr 0xA5) shifted = .next t ∧ t.resp ≠ shifted.resp) ∧
    (∃ t, exec (.reg 7) (running inited (.reg 7) 1) = .next t ∧ t.sdt ≠ inited.sdt) ∧
    (∃ t, exec (.init true) (running State.reset (.init true) 1) = .next t ∧
      t.cfg ≠ 0 ∧ t.busdir ≠ 0 ∧ t.sessInited ≠ false) ∧
    (∃ t, exec (.sel 0) (running registered (.sel 0) 1) = .next t ∧ t.cfg ≠ 0xC0) :=
  ⟨⟨_, rfl, by decide⟩, ⟨_, rfl, by decide⟩, ⟨_, rfl, by decide⟩, ⟨_, rfl, by decide⟩,
    ⟨_, rfl, by decide⟩, ⟨_, rfl, by decide⟩, ⟨_, rfl, by decide⟩, ⟨_, rfl, by decide⟩⟩

/-- And STAT and DATA, SELV, SELID, the fault registers, the latches, the buffer. -/
theorem witness_RegistersKeepToTheirWriters_rest :
    (∃ t, exec (.wr 0xA5) (running selected (.wr 0xA5) 1) = .next t ∧ t.statBusy ≠ false ∧ t.data ≠ 0) ∧
    (∃ t, exec (.des 0) (running selected (.des 0) 1) = .next t ∧ t.sessSelv ≠ true) ∧
    (∃ t, exec (.sel 7) (running registered (.sel 7) 2) = .next t ∧ t.sessSelid ≠ 0) ∧
    (∃ t, exec (.sel 8) registered = .next t ∧ t.fcause ≠ 0 ∧ t.fcmd ≠ 0) ∧
    (∃ t, exec (.sel 0) (running registered (.sel 0) 2) = .next t ∧ t.csout ≠ registered.csout) ∧
    (∃ t, exec (.stb 255 1) (running State.reset (.stb 255 1) 1) = .next t ∧ t.buf ≠ []) :=
  ⟨⟨_, rfl, by decide⟩, ⟨_, rfl, by decide⟩, ⟨_, rfl, by decide⟩, ⟨_, rfl, by decide⟩,
    ⟨_, rfl, by decide⟩, ⟨_, rfl, by decide⟩⟩

theorem witness_BufferBytesChangeOnlyWhereStored :
    (∃ t, exec (.stb 255 1) (running State.reset (.stb 255 1) 1) = .next t ∧
      bufAt t 255 ≠ bufAt State.reset 255) ∧
    (∃ t, exec (.rdb 255 1) (running { selected with statTc := true } (.rdb 255 1) 2) = .next t ∧
      bufAt t 255 ≠ bufAt selected 255) := ⟨⟨_, rfl, by decide⟩, ⟨_, rfl, by decide⟩⟩

theorem witness_OtherLinesKeepTheirLevel :
    (∃ t, exec (.reg 0) (running { registered with csout := State.reset.csout } (.reg 0) 2) = .next t ∧
      latch t 10 ≠ lineBit State.reset.csout 10) ∧
    (∃ t, exec (.sel 0) (running registered (.sel 0) 2) = .next t ∧ latch t 10 ≠ latch registered 10) ∧
    (∃ t, exec (.des 0) (running selected (.des 0) 1) = .next t ∧ latch t 10 ≠ latch selected 10) :=
  ⟨⟨_, rfl, by decide⟩, ⟨_, rfl, by decide⟩, ⟨_, rfl, by decide⟩⟩

theorem witness_FaultIsTerminalUntilReset :
    faulted failed = true ∧ (∃ t, step failed = .next t) ∧ ¬ resetNext failed :=
  ⟨by decide, ⟨_, rfl⟩, (fun h => nomatch h)⟩

theorem witness_FaultOnlyInTheAcceptStep : ∃ t, step (presents State.reset 0) = .next t ∧
    faulted (presents State.reset 0) = false ∧ faulted t = true := ⟨_, rfl, by decide, by decide⟩

theorem witness_RegistrationAndInitialisationLast :
    (∃ t, step shifting = .next t) ∧ ¬ resetNext shifting ∧ (slotAt shifting.sdt 0).valid = true ∧
    shifting.sessInited = true ∧ cfgEn shifting.cfg = true ∧ cfgMstr shifting.cfg = true :=
  ⟨⟨_, rfl⟩, (fun h => nomatch h), by decide, rfl, by decide, by decide⟩

theorem witness_ConfigurationBitsHaveOneWriter :
    (∃ t, step (running registered (.sel 0) 1) = .next t ∧ cfgMode t.cfg ≠ cfgMode registered.cfg) ∧
    (∃ t, step (running State.reset (.init true) 1) = .next t ∧
      cfgEn t.cfg ≠ cfgEn State.reset.cfg ∧ cfgDbl t.cfg ≠ cfgDbl State.reset.cfg) ∧
    ¬ resetNext (running registered (.sel 0) 1) ∧ ¬ resetNext (running State.reset (.init true) 1) :=
  ⟨⟨_, rfl, by decide⟩, ⟨_, rfl, by decide⟩, (fun h => nomatch h), (fun h => nomatch h)⟩

theorem witness_TransferFlagsChangeAtTwoPoints :
    (∃ t, step (running selected (.wr 0xA5) 1) = .next t ∧ t.statBusy ≠ selected.statBusy) ∧
    (∃ t, step shifting = .next t ∧ t.statTc ≠ shifting.statTc) ∧
    ¬ resetNext (running selected (.wr 0xA5) 1) ∧ ¬ resetNext shifting :=
  ⟨⟨_, rfl, by decide⟩, ⟨_, rfl, by decide⟩, (fun h => nomatch h), (fun h => nomatch h)⟩

theorem witness_SlotsFixedWhileSelected : Inv (running selected (.wr 0xA5) 1) ∧
    (running selected (.wr 0xA5) 1).sessSelv = true ∧
    (∃ t, step (running selected (.wr 0xA5) 1) = .next t) ∧
    ¬ resetNext (running selected (.wr 0xA5) 1) :=
  ⟨witness_inv_wr, rfl, ⟨_, rfl⟩, (fun h => nomatch h)⟩

theorem witness_HistoryOnlyGrows : ∃ t, step shifting = .next t ∧ t.hist ≠ shifting.hist :=
  ⟨_, rfl, by decide⟩

theorem witness_ResponseChangesOnlyAtCompletion :
    (∃ t, step shifted = .next t ∧ t.resp ≠ shifted.resp) ∧ ¬ resetNext shifted :=
  ⟨⟨_, rfl, by decide⟩, (fun h => nomatch h)⟩

theorem witness_ChecksInOrder :
    decode 0 = .error (.reservedOpcode 0) ∧ ready registered = true ∧
    isTransfer (.rdb 0 0) = true ∧ isHostAccess (.ldb 0) = true ∧ (∀ r, Instr.ldb 0 ≠ .rdr r) ∧
    faulted failed = true ∧ (∃ t, step failed = .next t) ∧ ¬ resetNext failed :=
  ⟨rfl, by decide, rfl, rfl, (fun _ h => nomatch h), by decide, ⟨_, rfl⟩, (fun h => nomatch h)⟩

theorem witness_NotInitialisedRule :
    (ready State.reset = true ∧ State.reset.sessInited = false ∧ isHostAccess .rd = false ∧
      ∀ d, Instr.rd ≠ .init d) ∧
    (isHostAccess (.rdr 0x30) = true ∧ ∃ t, exec (.rdr 0x30) State.reset = .next t) :=
  ⟨⟨rfl, rfl, rfl, (fun _ h => nomatch h)⟩, rfl, _, rfl⟩

theorem witness_ReinitRule :
    (ready inited = true ∧ inited.sessInited = true) ∧
    (State.reset.sessInited = false ∧ ∃ t, exec (.init false) State.reset = .next t) ∧
    (resetNext { inited with turns := [.env .rst] } ∧
      ∃ t, step { inited with turns := [.env .rst] } = .next t) ∧
    (∃ t, step (running State.reset (.init true) 1) = .next t ∧ t.sessInited = true) :=
  ⟨⟨rfl, rfl⟩, ⟨rfl, _, rfl⟩, ⟨rfl, _, rfl⟩, _, rfl, rfl⟩

theorem witness_InitCompletes : ready State.reset = true ∧ State.reset.sessInited = false := ⟨rfl, rfl⟩

theorem witness_LoadDescriptorCompletes : ready State.reset = true := rfl

theorem witness_RegisterCompletes : ready inited = true ∧ inited.sessInited = true ∧
    (0 : Byte).toNat < 8 ∧ (7 : Byte).toNat < 8 ∧ inited.sessSelv = false := by decide

theorem witness_SelectCompletes :
    (ready registered = true ∧ registered.sessInited = true ∧ (0 : Byte).toNat < 8 ∧
      (slotAt registered.sdt (slotIx 0)).valid = true ∧ registered.sessSelv = false) ∧
    runningAt (running registered (.sel 0) 1) (.sel 0) 1 ∧
    runningAt (running registered (.sel 0) 2) (.sel 0) 2 ∧
    (runningAt (selWait 1083) (.sel 0) 3 ∧ (selWait 1083).seq.deadline ≤ (selWait 1083).time) ∧
    (runningAt (selWait 1082) (.sel 0) 3 ∧ (selWait 1082).time < (selWait 1082).seq.deadline) :=
  ⟨by decide, ⟨rfl, rfl, rfl⟩, ⟨rfl, rfl, rfl⟩, ⟨⟨rfl, rfl, rfl⟩, by decide⟩, ⟨rfl, rfl, rfl⟩, by decide⟩

theorem witness_DeselectCompletes :
    (ready selected = true ∧ selected.sessInited = true ∧
      (slotAt selected.sdt (slotIx 0)).valid = true ∧ selected.sessSelv = true ∧
      selected.sessSelid.toNat = (0 : Byte).toNat) ∧
    runningAt (running selected (.des 0) 1) (.des 0) 1 ∧
    (runningAt (running registered (.des 0) 2) (.des 0) 2 ∧
      (running registered (.des 0) 2).seq.deadline ≤ (running registered (.des 0) 2).time) ∧
    (∃ s : State, runningAt s (.des 0) 2 ∧ s.time < s.seq.deadline) :=
  ⟨by decide, ⟨rfl, rfl, rfl⟩, ⟨⟨rfl, rfl, rfl⟩, by decide⟩,
    { registered with seq := { cmd := some (.des 0), phase := 2, idx := 0, deadline := 1 } },
    ⟨rfl, rfl, rfl⟩, by decide⟩

theorem witness_SingleTransferCompletes :
    (ready selected = true ∧ selected.sessInited = true ∧ selected.sessSelv = true) ∧
    runningAt (running selected (.wr 0xA5) 1) (.wr 0xA5) 1 ∧
    (runningAt shifted (.wr 0xA5) 2 ∧ shifted.statTc = true) ∧
    (runningAt shifting (.wr 0xA5) 2 ∧ shifting.statTc = false) ∧
    runningAt (running selected .rd 1) .rd 1 ∧
    (runningAt (running { selected with statTc := true } .rd 2) .rd 2) :=
  ⟨by decide, ⟨rfl, rfl, rfl⟩, ⟨⟨rfl, rfl, rfl⟩, rfl⟩, ⟨⟨rfl, rfl, rfl⟩, rfl⟩, ⟨rfl, rfl, rfl⟩,
    ⟨rfl, rfl, rfl⟩⟩

theorem witness_ReadIsWriteOfZero : ready selected = true ∧ ready State.reset = true ∧
    runningAt (running selected .rd 1) .rd 1 ∧ runningAt (running selected .rd 2) .rd 2 :=
  ⟨by decide, rfl, ⟨rfl, rfl, rfl⟩, ⟨rfl, rfl, rfl⟩⟩

/-- The clauses of both bursts: the start, the end of length 0 and of length 255, the load, the poll. -/
theorem witness_BurstWriteCompletes :
    (ready selected = true ∧ selected.sessInited = true ∧ selected.sessSelv = true) ∧
    (runningAt (running selected (.wrb 0xFF 0) 1) (.wrb 0xFF 0) 1 ∧
      (running selected (.wrb 0xFF 0) 1).seq.idx = 0) ∧
    (runningAt (running selected (.wrb 0xFF 255) 1) (.wrb 0xFF 255) 1 ∧
      (running selected (.wrb 0xFF 255) 1).seq.idx ≠ 255) ∧
    (runningAt (running { selected with statTc := true } (.wrb 0xFF 255) 2) (.wrb 0xFF 255) 2) ∧
    (runningAt (running selected (.wrb 0xFF 255) 2) (.wrb 0xFF 255) 2 ∧
      (running selected (.wrb 0xFF 255) 2).statTc = false) :=
  ⟨by decide, ⟨⟨rfl, rfl, rfl⟩, rfl⟩, ⟨⟨rfl, rfl, rfl⟩, by decide⟩, ⟨rfl, rfl, rfl⟩,
    ⟨⟨rfl, rfl, rfl⟩, rfl⟩⟩

theorem witness_BurstReadCompletes :
    (ready selected = true ∧ selected.sessInited = true ∧ selected.sessSelv = true) ∧
    (runningAt (running selected (.rdb 0xFF 0) 1) (.rdb 0xFF 0) 1 ∧
      (running selected (.rdb 0xFF 0) 1).seq.idx = 0) ∧
    (runningAt (running selected (.rdb 0xFF 255) 1) (.rdb 0xFF 255) 1 ∧
      (running selected (.rdb 0xFF 255) 1).seq.idx ≠ 255) ∧
    (runningAt (running { selected with statTc := true } (.rdb 0xFF 255) 2) (.rdb 0xFF 255) 2) ∧
    (runningAt (running selected (.rdb 0xFF 255) 2) (.rdb 0xFF 255) 2 ∧
      (running selected (.rdb 0xFF 255) 2).statTc = false) :=
  ⟨by decide, ⟨⟨rfl, rfl, rfl⟩, rfl⟩, ⟨⟨rfl, rfl, rfl⟩, by decide⟩, ⟨rfl, rfl, rfl⟩,
    ⟨⟨rfl, rfl, rfl⟩, rfl⟩⟩

theorem witness_HostAccessCompletes : ready State.reset = true := rfl

/-- The edges of the map. -/
theorem witness_RegisterReadCompletes : ready State.reset = true ∧ regOf 0x00 = some .cfg ∧
    regOf 0x0F = some .dsDes ∧ regOf 0x10 = some (.word0 0) ∧ regOf 0x2E = some (.desdly 7) := by decide

/-- The edges of the reserved numbers, and numbers beside them. -/
theorem witness_ReservedRegisterNumbers : ready State.reset = true ∧
    (∀ r : Byte, r = 0x05 ∨ r = 0x07 ∨ r = 0x13 ∨ r = 0x2F ∨ r = 0x30 ∨ r = 0xFF →
      ((5 ≤ r.toNat ∧ r.toNat ≤ 7) ∨ (∃ k, k ≤ 7 ∧ r.toNat = 0x13 + 4 * k) ∨ 0x30 ≤ r.toNat)) ∧
    (∀ r : Byte, r = 0x04 ∨ r = 0x08 ∨ r = 0x12 ∨ r = 0x2E →
      ¬ ((5 ≤ r.toNat ∧ r.toNat ≤ 7) ∨ (∃ k, k ≤ 7 ∧ r.toNat = 0x13 + 4 * k) ∨ 0x30 ≤ r.toNat)) := by
  refine ⟨rfl, ?_, ?_⟩
  · rintro r (rfl | rfl | rfl | rfl | rfl | rfl)
    · exact .inl (by decide)
    · exact .inl (by decide)
    · exact .inr (.inl ⟨0, by decide⟩)
    · exact .inr (.inl ⟨7, by decide⟩)
    · exact .inr (.inr (by decide))
    · exact .inr (.inr (by decide))
  · rintro r (rfl | rfl | rfl | rfl) <;> rintro (h | ⟨k, hk, h⟩ | h) <;> simp at h <;> omega

theorem witness_UnspecifiedBitsOnly : (slotAt State.reset.sdt 7).valid = false ∧
    regUnspecified State.reset .data ≠ 0 ∧ lineBit registered.csKnown 10 = true := by decide

theorem witness_ShiftStepRule : blockTurn shifting ∧ faulted shifting = false ∧
    shifting.seq.cmd = some (.wr 0xA5) ∧ shifting.statBusy = true ∧ cfgEn shifting.cfg = true ∧
    cfgMstr shifting.cfg = true ∧ shifting.wired = true ∧ shifting.bitView = false :=
  ⟨.inl rfl, by decide⟩

theorem witness_BitViewRefinesByteView : shifting.engCnt = 0 := rfl

theorem witness_BitViewShowsTheWaveform : ∀ s : State, s = { shifting with bitView := true } →
    s.engCnt = 0 ∧ s.statBusy = true ∧ s.bitView = true ∧ cfgEn s.cfg = true ∧ sckOe s = true ∧
    mosiOe s = true ∧ ((waveform (cfgMode s.cfg) s.data (slaveAnswer s))[0]?).isSome = true ∧
    ((waveform (cfgMode s.cfg) s.data (slaveAnswer s))[7]?).isSome = true ∧
    sckOe State.reset = false ∧ mosiOe State.reset = false := by
  rintro s rfl
  decide

theorem witness_SingleTransferAnswersSlaveByte : ∀ s : State,
    s = { selected with host := [encode .rd], answers := [0xFF] } →
    s.turns = [] ∧ ready s = true ∧ s.host = encode .rd :: [] ∧ s.sessInited = true ∧
    s.sessSelv = true ∧ s.statBusy = false ∧ cfgEn s.cfg = true ∧ cfgMstr s.cfg = true ∧
    s.wired = true ∧ s.bitView = false ∧ s.answers = 0xFF :: [] := by
  rintro s rfl
  exact ⟨rfl, by decide, rfl, rfl, rfl, rfl, by decide, by decide, rfl, rfl, rfl⟩

/-- A burst of one byte from the top of the buffer. -/
theorem witness_BurstWriteSendsBufferInOrder : ∀ s : State,
    s = { selected with host := [encode (.wrb 0xFF 1)], answers := [7], buf := [(255, 0x77)] } →
    s.turns = [] ∧ ready s = true ∧ s.host = encode (.wrb 0xFF 1) :: [] ∧ s.sessInited = true ∧
    s.sessSelv = true ∧ s.statBusy = false ∧ cfgEn s.cfg = true ∧ cfgMstr s.cfg = true ∧
    s.wired = true ∧ s.bitView = false ∧ ([0x77] : List Byte).length = (1 : Byte).toNat ∧
    s.answers = [7] ++ [] ∧
    ∀ k, k < (1 : Byte).toNat → bufAt s (0xFF + BitVec.ofNat 8 k) = ([0x77] : List Byte)[k]? := by
  rintro s rfl
  refine ⟨rfl, by decide, rfl, rfl, rfl, rfl, by decide, by decide, rfl, rfl, rfl, rfl, ?_⟩
  decide

theorem witness_BurstReadStoresAnswersInOrder : ∀ s : State,
    s = { selected with host := [encode (.rdb 0xFF 2)], answers := [7, 8] } →
    s.turns = [] ∧ ready s = true ∧ s.host = encode (.rdb 0xFF 2) :: [] ∧ s.sessInited = true ∧
    s.sessSelv = true ∧ s.statBusy = false ∧ cfgEn s.cfg = true ∧ cfgMstr s.cfg = true ∧
    s.wired = true ∧ s.bitView = false ∧ ([7, 8] : List Byte).length = (2 : Byte).toNat ∧
    s.answers = [7, 8] ++ [] := by
  rintro s rfl
  exact ⟨rfl, by decide, rfl, rfl, rfl, rfl, by decide, by decide, rfl, rfl, rfl, rfl⟩

theorem witness_DelayWaitEnds :
    ((selWait 1003).turns = [] ∧ (selWait 1003).timeRuns = true ∧ engineEnabled (selWait 1003) = false ∧
      runningAt (selWait 1003) (.sel 0) 3) ∧
    ((running registered (.des 0) 2).turns = [] ∧ (running registered (.des 0) 2).timeRuns = true ∧
      engineEnabled (running registered (.des 0) 2) = false ∧
      runningAt (running registered (.des 0) 2) (.des 0) 2) :=
  ⟨⟨rfl, rfl, by decide, ⟨rfl, rfl, rfl⟩⟩, rfl, rfl, by decide, ⟨rfl, rfl, rfl⟩⟩

theorem witness_BrokenWiringHangs : ∀ s : State, s = { shifting with wired := false } →
    s.turns = [] ∧ faulted s = false ∧ s.seq.cmd = some (.wr 0xA5) ∧ engineEnabled s = true ∧
    s.wired = false := by
  rintro s rfl
  decide

/-- SEL and DES one unit before the deadline, the time stopped. -/
theorem witness_StoppedTimeHangs :
    (∀ s : State, s = { selWait 1082 with timeRuns := false } →
      s.turns = [] ∧ s.timeRuns = false ∧ engineEnabled s = false ∧ runningAt s (.sel 0) 3 ∧
      s.time < s.seq.deadline) ∧
    ∃ s : State, s.turns = [] ∧ s.timeRuns = false ∧ engineEnabled s = false ∧
      runningAt s (.des 0) 2 ∧ s.time < s.seq.deadline := by
  refine ⟨?_, { registered with
    timeRuns := false, seq := { cmd := some (.des 0), phase := 2, idx := 0, deadline := 1 } },
    rfl, rfl, by decide, ⟨rfl, rfl, rfl⟩, by decide⟩
  rintro s rfl
  exact ⟨rfl, rfl, by decide, ⟨rfl, rfl, rfl⟩, by decide⟩

/-- SEL one unit before its deadline with the time stopped, after `f` draws. -/
def stuck (f : Nat) : State := { selWait 1082 with timeRuns := false, fresh := f }

/-- A state from which the run is infinite. -/
theorem witness_hangs (f : Nat) : hangs (stuck f) := by
  have h : ∀ n f, Host.Core.run Sys2Proof.core n (stuck f) = .next (stuck (f + n)) := by
    intro n
    induction n with
    | zero => exact fun _ => rfl
    | succ n ih =>
      intro f
      have e : f + (n + 1) = f + 1 + n := by omega
      rw [e, ← ih (f + 1)]
      rfl
  exact fun n => ⟨_, h n f, fun e => Bool.false_ne_true e.2.2.1, rfl⟩

/-- An idle block with no word left; a fault; a run that never ends; a run of one command, ended. -/
theorem witness_EndOfARun :
    (endedWell inited ∧ ∃ t, step inited = .next t) ∧ faulted failed = true ∧
    (goneWrong (stuck 0) ∧ faulted (stuck 0) = false ∧
      ∃ t, Host.Core.run Sys2Proof.core 0 (stuck 0) = .next t) ∧
    endedWell { inited with hist := [.accept 0x01000000 0, .done 0x01000000 none 0] } :=
  ⟨⟨⟨rfl, rfl, rfl, rfl, by decide⟩, _, rfl⟩, by decide,
    ⟨.inr (witness_hangs 0), rfl, _, rfl⟩, rfl, by decide, rfl, rfl, by decide⟩

theorem witness_DelaysRoundUp : (10000 : Nat) ≠ 0 ∧ delayOfMicros 40959375 10000 = some 65535 ∧
    65535 * 1 < 4096 * 16 := by decide

end Sys2Proof.Tests
end

/-! Scope (00_scope.md R6): the block's step always has a next state, and the environment's moves fall
between any two of the block's steps. -/

namespace Sys2Proof.Machine

/-! ### The block always has a next state (60_exceptions.md R170) -/

/-- With a word to decode at a ready port, accepting it ends in a state. -/
theorem acceptWord_total (w : Word) {s : State} (h : ready s = true) :
    ∃ t, acceptWord w s = .next t := by
  have hr : ready (record (.accept w s.time) s) = true := h
  unfold acceptWord
  cases decode w with
  | ok i => exact ⟨_, exec_ready hr⟩
  | error e => exact ⟨_, rfl⟩

theorem hostStep_total {s : State} (h : ready s = true) : ∃ t, hostStep s = .next t := by
  unfold hostStep
  cases s.host with
  | nil => exact ⟨_, rfl⟩
  | cons w rest => exact acceptWord_total w (s := { s with host := rest }) h

theorem runStep_total {i : Instr} {s : State} (h : runningAt s i s.seq.phase) :
    ∃ t, runStep i s = .next t := by
  unfold runStep
  by_cases he : engineEnabled s = true
  · exact ⟨_, if_pos he⟩
  · exact ⟨_, (if_neg he).trans (exec_running h)⟩

/-- No state leaves the block without a step: a fault, a running command and an idle sequencer each
have one. -/
theorem blockStep_total (s : State) : ∃ t, blockStep s = .next t := by
  unfold blockStep
  cases hf : faulted s with
  | true => exact ⟨_, rfl⟩
  | false =>
    cases hc : s.seq.cmd with
    | none => exact hostStep_total ((ready_iff s).2 ⟨hc, hf⟩)
    | some i => exact runStep_total ⟨hf, hc, rfl⟩

/-! ### Runs of a schedule -/

/-- A listed turn of the block is the block's step on the rest of the schedule. -/
theorem step_block_cons (s : State) (x : List Turn) :
    step { s with turns := .block :: x } = blockStep { s with turns := x } := rfl

/-- A listed move of the environment is that move, then the rest of the schedule. -/
theorem run_one_env (s : State) (m : EnvMove) (rest : List Turn) :
    Host.Core.run Sys2Proof.core 1 { s with turns := .env m :: rest } =
      .next (envMove m { s with turns := rest }) := rfl

/-- `n` listed turns of the block do what `n` steps of the block do with nothing listed; whatever the
schedule lists after them comes next. -/
theorem run_block_turns (n : Nat) {s : State} (hs : s.turns = []) :
    ∃ t, Host.Core.run Sys2Proof.core n s = .next t ∧ t.turns = [] ∧
      ∀ (k : Nat) (x : List Turn),
        Host.Core.run Sys2Proof.core (n + k) { s with turns := List.replicate n .block ++ x } =
          Host.Core.run Sys2Proof.core k { t with turns := x } := by
  induction n generalizing s with
  | zero => exact ⟨s, rfl, hs, fun k x => by rw [Nat.zero_add]; rfl⟩
  | succ n ih =>
    obtain ⟨u, hu⟩ := blockStep_total s
    have hstep : step s = .next u := by rw [step_block (.inl hs), turnTaken_nil hs, hu]
    obtain ⟨t, hrun, ht, hsched⟩ := ih ((blockStep_keeps_turns hu).trans hs)
    refine ⟨t, (run_succ n hstep).trans hrun, ht, fun k x => ?_⟩
    have hturn : step { s with turns := List.replicate (n + 1) .block ++ x } =
        .next { u with turns := List.replicate n .block ++ x } :=
      (step_block_cons s _).trans (blockStep_turns hu _)
    rw [Nat.add_right_comm, run_succ _ hturn, hsched]

/-- Settles O9: the schedule's `n` turns of the block give the state of the `n` steps, by induction on
`n`, and its next turn is the move. -/
theorem environmentMovesBetweenAnySteps : Obligations.EnvironmentMovesBetweenAnySteps := by
  intro s n m rest hs
  obtain ⟨t, hrun, ht, hsched⟩ := run_block_turns n hs
  exact ⟨t, hrun, ht, (hsched 1 (.env m :: rest)).trans (run_one_env t m rest)⟩

end Sys2Proof.Machine

/-! State (10_state.md): what one step of the sequencer and of the engine can be, which registers it
writes, and that it keeps the invariant. -/

namespace Sys2Proof.Machine

/-! ### Every step of the sequencer and of the engine -/

/-- One micro-step of a running command, from `s` to the second state: a wait, or the act of one
phase of one command (10_state.md R34). `k` is the draw counter after a read of the buffer. -/
inductive MicroStep (s : State) : Instr → State → Prop
  | wait (i : Instr) : MicroStep s i (waits s)
  | init (d : Bool) (hp : s.seq.phase = 1) :
      MicroStep s (.init d) (done (.init d) (initWrites d s))
  | lddLine (l : Line) (hp : s.seq.phase = 1) :
      MicroStep s (.lddLine l) (done (.lddLine l) { s with dsLine := l })
  | lddMode (m : BitVec 2) (hp : s.seq.phase = 1) :
      MicroStep s (.lddMode m) (done (.lddMode m) { s with dsMode := m })
  | lddSeld (d : Half) (hp : s.seq.phase = 1) :
      MicroStep s (.lddSeld d) (done (.lddSeld d) { s with dsSel := d })
  | lddDesd (d : Half) (hp : s.seq.phase = 1) :
      MicroStep s (.lddDesd d) (done (.lddDesd d) { s with dsDes := d })
  | regCopy (id : Byte) (hp : s.seq.phase = 1) :
      MicroStep s (.reg id) (goto 2 { s with sdt := setSlot s.sdt (slotIx id) (stagedSlot s) })
  | regDrive (id : Byte) (hp : s.seq.phase = 2) :
      MicroStep s (.reg id) (done (.reg id) (drivePin (slotAt s.sdt (slotIx id)).line true s))
  | selMode (id : Byte) (hp : s.seq.phase = 1) :
      MicroStep s (.sel id) (goto 2 (record (.modeSet (slotAt s.sdt (slotIx id)).mode s.time)
        { s with cfg := cfgSetMode s.cfg (slotAt s.sdt (slotIx id)).mode }))
  | selFall (id : Byte) (hp : s.seq.phase = 2) :
      MicroStep s (.sel id) (goto 3 (arm (slotAt s.sdt (slotIx id)).seldly
        { drivePin (slotAt s.sdt (slotIx id)).line false s with
          sessSelv := true, sessSelid := slotIx id }))
  | selEnd (id : Byte) (hp : s.seq.phase = 3) (he : expired s = true) :
      MicroStep s (.sel id) (done (.sel id) s)
  | desRise (id : Byte) (hp : s.seq.phase = 1) :
      MicroStep s (.des id) (goto 2 (arm (slotAt s.sdt (slotIx id)).desdly
        { drivePin (slotAt s.sdt (slotIx id)).line true s with sessSelv := false }))
  | desEnd (id : Byte) (hp : s.seq.phase = 2) (he : expired s = true) :
      MicroStep s (.des id) (done (.des id) s)
  | load (i : Instr) (b : Byte) (k : Nat) (hi : isTransfer i = true) (hp : s.seq.phase = 1) :
      MicroStep s i (goto 2 (load b { s with fresh := k }))
  | single (i : Instr) (hi : i = .rd ∨ ∃ b, i = .wr b) (hp : s.seq.phase = 2)
      (htc : s.statTc = true) : MicroStep s i (doneVal i (s.data.setWidth 16) s)
  | wrbNext (base len : Byte) (hp : s.seq.phase = 2) (htc : s.statTc = true) :
      MicroStep s (.wrb base len) (goto 1 (nextIdx s))
  | rdbNext (base len : Byte) (hp : s.seq.phase = 2) (htc : s.statTc = true) :
      MicroStep s (.rdb base len) (goto 1 (nextIdx (bufWrite (ea base s.seq.idx) s.data s)))
  | burstEnd (i : Instr) (hi : isTransfer i = true) (hp : s.seq.phase = 1) :
      MicroStep s i (done i s)
  | stb (a b : Byte) (hp : s.seq.phase = 1) :
      MicroStep s (.stb a b) (done (.stb a b) (bufWrite a b s))
  | ldb (a : Byte) (k : Nat) (hp : s.seq.phase = 1) :
      MicroStep s (.ldb a)
        (doneVal (.ldb a) ((bufRead a s).1.setWidth 16) { s with fresh := k })
  | rdr (r : Byte) (n : RegName) (hr : regOf r = some n) (hp : s.seq.phase = 1) :
      MicroStep s (.rdr r) (doneVal (.rdr r) (regRead s n) (drawn s))

/-- A read of the buffer changes at most the draw counter (20_memory.md R52). -/
theorem bufRead_state (a : Byte) (s : State) : ∃ k, (bufRead a s).2 = { s with fresh := k } := by
  unfold bufRead
  cases bufAt s a with
  | none => exact ⟨_, rfl⟩
  | some b => exact ⟨s.fresh, rfl⟩

/-- The micro-step of a command that is one atomic step. -/
theorem microStep_onePhase {i : Instr} {act : State → State} {s : State}
    (hm : microOf i = onePhase act) (h : s.seq.phase = 1 → MicroStep s i (act s)) :
    MicroStep s i (microOf i s.seq.phase s) := by
  rw [hm]
  obtain ⟨hp, he⟩ | he := onePhase_cases act s.seq.phase s
  · exact he ▸ h hp
  · exact he ▸ .wait i

theorem microStep_regPhase (id : Byte) (s : State) :
    MicroStep s (.reg id) (regPhase id s.seq.phase s) := by
  unfold regPhase
  split
  · next hp => exact .regCopy id hp
  · next hp => exact .regDrive id hp
  · exact .wait _

theorem microStep_selPhase (id : Byte) (s : State) :
    MicroStep s (.sel id) (selPhase id s.seq.phase s) := by
  unfold selPhase
  split
  · next hp => exact .selMode id hp
  · next hp => exact .selFall id hp
  · next hp =>
    split
    · next he => exact .selEnd id hp he
    · exact .wait _
  · exact .wait _

theorem microStep_desPhase (id : Byte) (s : State) :
    MicroStep s (.des id) (desPhase id s.seq.phase s) := by
  unfold desPhase
  split
  · next hp => exact .desRise id hp
  · next hp =>
    split
    · next he => exact .desEnd id hp he
    · exact .wait _
  · exact .wait _

theorem microStep_singlePhase {i : Instr} (hi : i = .rd ∨ ∃ b, i = .wr b) (b : Byte) (s : State) :
    MicroStep s i (singlePhase i b s.seq.phase s) := by
  have ht : isTransfer i = true := by
    obtain rfl | ⟨b, rfl⟩ := hi <;> rfl
  unfold singlePhase
  split
  · next hp => exact .load i b s.fresh ht hp
  · next hp =>
    split
    · next htc => exact .single i hi hp htc
    · exact .wait _
  · exact .wait _

theorem microStep_wrbPhase (base len : Byte) (s : State) :
    MicroStep s (.wrb base len) (wrbPhase base len s.seq.phase s) := by
  unfold wrbPhase
  split
  · next hp =>
    split
    · exact .burstEnd _ rfl hp
    · obtain ⟨k, hk⟩ := bufRead_state (ea base s.seq.idx) s
      simp only [wrbLoad, hk]
      exact .load _ _ k rfl hp
  · next hp =>
    split
    · next htc => exact .wrbNext base len hp htc
    · exact .wait _
  · exact .wait _

theorem microStep_rdbPhase (base len : Byte) (s : State) :
    MicroStep s (.rdb base len) (rdbPhase base len s.seq.phase s) := by
  unfold rdbPhase
  split
  · next hp =>
    split
    · exact .burstEnd _ rfl hp
    · exact .load _ _ s.fresh rfl hp
  · next hp =>
    split
    · next htc => exact .rdbNext base len hp htc
    · exact .wait _
  · exact .wait _

theorem microStep_ldbStep (a : Byte) {s : State} (hp : s.seq.phase = 1) :
    MicroStep s (.ldb a) (ldbStep a s) := by
  obtain ⟨k, hk⟩ := bufRead_state a s
  simp only [ldbStep, hk]
  exact .ldb a k hp

theorem microStep_rdrStep (r : Byte) {s : State} (hp : s.seq.phase = 1) :
    MicroStep s (.rdr r) (rdrStep r s) := by
  unfold rdrStep
  cases hr : regOf r with
  | none => exact .wait _
  | some n => exact .rdr r n hr hp

/-- The micro-step of the model is one of the listed ones. -/
theorem microStep_microOf (i : Instr) (s : State) : MicroStep s i (microOf i s.seq.phase s) := by
  cases i with
  | init d => exact microStep_onePhase rfl (.init d)
  | reg id => exact microStep_regPhase id s
  | sel id => exact microStep_selPhase id s
  | des id => exact microStep_desPhase id s
  | wr b => exact microStep_singlePhase (.inr ⟨b, rfl⟩) b s
  | wrb base len => exact microStep_wrbPhase base len s
  | rd => exact microStep_singlePhase (.inl rfl) 0 s
  | rdb base len => exact microStep_rdbPhase base len s
  | lddLine l => exact microStep_onePhase rfl (.lddLine l)
  | lddMode m => exact microStep_onePhase rfl (.lddMode m)
  | lddSeld d => exact microStep_onePhase rfl (.lddSeld d)
  | lddDesd d => exact microStep_onePhase rfl (.lddDesd d)
  | stb a b => exact microStep_onePhase rfl (.stb a b)
  | ldb a => exact microStep_onePhase rfl (microStep_ldbStep a)
  | rdr r => exact microStep_onePhase rfl (microStep_rdrStep r)

/-- One step of the shift engine: the completion of an exchange, or, in the bit view, a clock period
before the last (43_transfer.md R122, R123). -/
inductive EngineStep (s : State) : State → Prop
  | complete (out inp eo : Byte) (n : BitVec 4) (a : List Byte) (k : Nat)
      (hn : n = 0 ∨ (s.bitView = false ∧ n = s.engCnt)) :
      EngineStep s (xferComplete out inp
        { s with answers := a, fresh := k, engCnt := n, engOut := eo })
  | period (sr eo : Byte) (hv : s.bitView = true) (hn : s.engCnt.toNat < 7) :
      EngineStep s { s with data := sr, engCnt := s.engCnt + 1, engOut := eo }

/-- Taking the answer changes at most the list of answers and the draw counter. -/
theorem answerTaken_state (s : State) :
    ∃ a k, answerTaken s = { s with answers := a, fresh := k } := by
  unfold answerTaken
  cases s.answers with
  | nil => exact ⟨s.answers, _, rfl⟩
  | cons b rest => exact ⟨rest, s.fresh, rfl⟩

/-- The engine's step of the model is one of the two. -/
theorem engineStep_engineStep (s : State) : EngineStep s (engineStep s) := by
  obtain ⟨a, k, ha⟩ := answerTaken_state s
  unfold engineStep
  split
  · next hv =>
    simp only [shiftBit, ha]
    split
    · exact .complete _ _ _ 0 a k (.inl rfl)
    · next hn => exact .period _ _ hv (by omega)
  · next hv =>
    rw [shiftByte, ha]
    exact .complete _ _ s.engOut s.engCnt a k (.inr ⟨by simpa using hv, rfl⟩)

/-! ### What an accepted command has checked (60_exceptions.md R160) -/

theorem initCheck_eq_none {s : State} : initCheck s = none ↔ s.sessInited = false := by
  simp [initCheck, firstFailing_none]

theorem regCheck_eq_none {id : Byte} {s : State} : regCheck id s = none ↔
    s.sessInited = true ∧ id.toNat < 8 ∧ s.sessSelv = false := by
  simp [regCheck, firstFailing_none]

theorem selCheck_eq_none {id : Byte} {s : State} : selCheck id s = none ↔
    s.sessInited = true ∧ id.toNat < 8 ∧ (slotAt s.sdt (slotIx id)).valid = true ∧
      s.sessSelv = false := by
  simp [selCheck, firstFailing_none]

theorem desCheck_eq_none {id : Byte} {s : State} : desCheck id s = none ↔
    s.sessInited = true ∧ id.toNat < 8 ∧ (slotAt s.sdt (slotIx id)).valid = true ∧
      s.sessSelv = true ∧ s.sessSelid.setWidth 8 = id := by
  simp [desCheck, firstFailing_none]

theorem xferCheck_eq_none {s : State} : xferCheck s = none ↔
    s.sessInited = true ∧ s.sessSelv = true := by
  simp [xferCheck, firstFailing_none]

theorem checkOf_transfer {i : Instr} (hi : isTransfer i = true) : checkOf i = xferCheck := by
  cases i <;> simp_all [isTransfer, checkOf]

/-! ### What the sequencer's invariant says of each running command -/

theorem sequencerInv_idle {s : State} (hc : s.seq.cmd = none) : sequencerInv s := by
  simp [sequencerInv, hc]

theorem sequencerInv_init {d : Bool} {s : State} (hc : s.seq.cmd = some (.init d)) :
    sequencerInv s ↔ s.sessInited = false := by
  simp [sequencerInv, hc]

theorem sequencerInv_reg {id : Byte} {s : State} (hc : s.seq.cmd = some (.reg id)) :
    sequencerInv s ↔ s.sessInited = true ∧ s.sessSelv = false ∧
      (s.seq.phase = 2 → (slotAt s.sdt (slotIx id)).valid = true) := by
  simp [sequencerInv, hc]

theorem sequencerInv_sel {id : Byte} {s : State} (hc : s.seq.cmd = some (.sel id)) :
    sequencerInv s ↔ s.sessInited = true ∧ (slotAt s.sdt (slotIx id)).valid = true ∧
      (s.seq.phase ≤ 2 → s.sessSelv = false) ∧
      (s.seq.phase = 2 → cfgMode s.cfg = (slotAt s.sdt (slotIx id)).mode) ∧
      (s.seq.phase = 3 → s.sessSelv = true ∧ s.sessSelid = slotIx id) := by
  simp [sequencerInv, hc]

theorem sequencerInv_des {id : Byte} {s : State} (hc : s.seq.cmd = some (.des id)) :
    sequencerInv s ↔ s.sessInited = true ∧ (slotAt s.sdt (slotIx id)).valid = true ∧
      (s.seq.phase = 1 → s.sessSelv = true ∧ s.sessSelid = slotIx id) ∧
      (2 ≤ s.seq.phase → s.sessSelv = false) := by
  simp [sequencerInv, hc]

theorem sequencerInv_transfer {i : Instr} {s : State} (hc : s.seq.cmd = some i)
    (hi : isTransfer i = true) :
    sequencerInv s ↔ s.sessInited = true ∧ s.sessSelv = true := by
  cases i <;> simp_all [sequencerInv, isTransfer]

theorem sequencerInv_hostAccess {i : Instr} {s : State} (hc : s.seq.cmd = some i)
    (hi : isHostAccess i = true) : sequencerInv s := by
  cases i <;> simp_all [sequencerInv, isTransfer, isHostAccess]

/-- An accepted command's checks are what the sequencer relies on. -/
theorem sequencerInv_start {i : Instr} {s : State} (hk : checkOf i s = none) :
    sequencerInv (start i s) := by
  have transfer (hi : isTransfer i = true) : sequencerInv (start i s) := by
    rw [checkOf_transfer hi] at hk
    exact (sequencerInv_transfer rfl hi).2 (xferCheck_eq_none.1 hk)
  cases i with
  | init d => exact (sequencerInv_init rfl).2 (initCheck_eq_none.1 hk)
  | reg id =>
    obtain ⟨hin, -, hsel⟩ := regCheck_eq_none.1 hk
    exact (sequencerInv_reg rfl).2 ⟨hin, hsel, nofun⟩
  | sel id =>
    obtain ⟨hin, -, hv, hsel⟩ := selCheck_eq_none.1 hk
    exact (sequencerInv_sel rfl).2 ⟨hin, hv, fun _ => hsel, nofun, nofun⟩
  | des id =>
    obtain ⟨hin, -, hv, hsel, hid⟩ := desCheck_eq_none.1 hk
    exact (sequencerInv_des rfl).2 ⟨hin, hv, fun _ => ⟨hsel, slotIx_eq_of_setWidth _ _ hid⟩,
      fun h => absurd h (by simp)⟩
  | wr b => exact transfer rfl
  | wrb base len => exact transfer rfl
  | rd => exact transfer rfl
  | rdb base len => exact transfer rfl
  | lddLine l => exact sequencerInv_hostAccess rfl rfl
  | lddMode m => exact sequencerInv_hostAccess rfl rfl
  | lddSeld d => exact sequencerInv_hostAccess rfl rfl
  | lddDesd d => exact sequencerInv_hostAccess rfl rfl
  | stb a b => exact sequencerInv_hostAccess rfl rfl
  | ldb a => exact sequencerInv_hostAccess rfl rfl
  | rdr r => exact sequencerInv_hostAccess rfl rfl

/-! ### The invariant of the reachable states

`{ h with … }` below states only the parts of `Inv` that the update can change: of the others `Inv`
says the same before and after, since the update leaves the elements they speak of as they are. -/

/-- REG drives a line only while it is the command in the sequencer. -/
theorem not_regDriving {s : State} (h : ∀ id, s.seq.cmd ≠ some (.reg id)) (j : BitVec 3) :
    ¬ regDriving s j :=
  fun ⟨id, hc, _⟩ => h id hc

theorem not_regDriving_of_cmd {i : Instr} {s : State} (hc : s.seq.cmd = some i)
    (hi : ∀ id, i ≠ .reg id) (j : BitVec 3) : ¬ regDriving s j :=
  not_regDriving (fun id h => hi id (Option.some.inj (hc.symm.trans h))) j

theorem transfer_ne_reg {i : Instr} (hi : isTransfer i = true) (id : Byte) : i ≠ .reg id := by
  rintro rfl; cases hi

theorem inv_resetBlock (s : State) : Inv (resetBlock s) where
  busyPolls h := by cases h
  selected h := by cases h
  inited h := by cases h
  selectedMode h := by cases h
  faultIdle _ := rfl
  cfgReservedZero := by simp [cfgReserved]
  causeCodes := by simp
  phases h := absurd rfl h
  sequencer := trivial
  bufWf := rfl
  engCount := ⟨by simp, fun _ => rfl⟩
  registeredHigh i h := by simp [slotAt, Slot.reset] at h
  registeredDriven i h := by simp [slotAt, Slot.reset] at h

section Preservation

variable {s : State} (h : Inv s)
include h

/-- A running command has no exchange in flight when the engine is not enabled: the transfer that
started one holds a selected, initialised block (10_state.md R43 (a) to (c)). -/
theorem busy_of_engine_off (he : engineEnabled s = false) : s.statBusy = false := by
  cases hb : s.statBusy with
  | false => rfl
  | true =>
    obtain ⟨i, hc, hi, -⟩ := h.busyPolls hb
    obtain ⟨hin, -⟩ := (sequencerInv_transfer hc hi).1 h.sequencer
    obtain ⟨hen, hms, -⟩ := h.inited hin
    simp [engineEnabled, hb, hen, hms] at he

/-- No exchange is in flight unless a transfer command is running (10_state.md R43 (a)). -/
theorem busy_of_no_transfer (hn : ∀ i, s.seq.cmd = some i → isTransfer i = false) :
    s.statBusy = false := by
  cases hb : s.statBusy with
  | false => rfl
  | true =>
    obtain ⟨i, hc, hi, -⟩ := h.busyPolls hb
    rw [hn i hc] at hi; cases hi

theorem inv_envMove (m : EnvMove) : Inv (envMove m s) := by
  cases m with
  | rst => exact inv_resetBlock s
  | time k => exact { h with }
  | dir p v => exact { h with }
  | wire ok => exact { h with }
  | clock runs => exact { h with }

theorem inv_waits : Inv (waits s) := { h with }

/-- Acceptance records the word and takes it from the host's queue. -/
theorem inv_accepted (w : Word) (rest : List Word) :
    Inv (record (.accept w s.time) { s with host := rest }) := { h with }

theorem inv_raise (c : Cause) (w : Word) (hc : s.seq.cmd = none) : Inv (raise c w s) :=
  { h with
    faultIdle := fun _ => hc
    causeCodes := causeCode_le c }

theorem inv_start {i : Instr} (hc : s.seq.cmd = none) (hf : faulted s = false)
    (hk : checkOf i s = none) : Inv (start i s) := by
  have hb : s.statBusy = false := busy_of_no_transfer h (by simp [hc])
  have hr : ∀ j, ¬ regDriving s j := not_regDriving fun id => by simp [hc]
  exact { h with
    busyPolls := (ne_true_of_eq_false hb).elim
    faultIdle := (ne_true_of_eq_false hf).elim
    phases := fun _ => by simp
    sequencer := sequencerInv_start hk
    registeredHigh := fun j hv _ => h.registeredHigh j hv (hr j)
    registeredDriven := fun j hv _ => h.registeredDriven j hv (hr j) }

theorem inv_accept (i : Instr) (hc : s.seq.cmd = none) (hf : faulted s = false) :
    Inv (accept i (checkOf i) s) := by
  obtain ⟨c, -, ha⟩ | ⟨hk, ha⟩ := accept_cases i (checkOf i) s
  · exact ha ▸ inv_raise h c (encode i) hc
  · exact ha ▸ inv_start h hc hf hk

theorem inv_engineStep {t : State} (hen : engineEnabled s = true) (he : EngineStep s t) :
    Inv t := by
  obtain ⟨hle, hzero⟩ := h.engCount
  cases he with
  | complete out inp eo n a k hn =>
    have hn0 : n = 0 := by
      obtain hn | ⟨hv, hn⟩ := hn
      · exact hn
      · exact hn.trans (hzero (.inr hv))
    exact { h with
      busyPolls := fun hb => by cases hb
      engCount := ⟨by simp [hn0], fun _ => hn0⟩ }
  | period sr eo hv hn =>
    have hbusy : s.statBusy = true := by
      simp only [engineEnabled, Bool.and_eq_true] at hen
      exact hen.1.1
    exact { h with
      engCount := ⟨by simp [BitVec.toNat_add]; omega, fun hb => by simp [hv, hbusy] at hb⟩ }

/-- The command is done, and no line was left to drive. -/
theorem inv_finish (hb : s.statBusy = false) (hr : ∀ j, ¬ regDriving s j) :
    Inv { s with seq := { s.seq with cmd := none } } :=
  { h with
    busyPolls := (ne_true_of_eq_false hb).elim
    faultIdle := fun _ => rfl
    phases := fun hc => absurd rfl hc
    sequencer := trivial
    registeredHigh := fun j hv _ => h.registeredHigh j hv (hr j)
    registeredDriven := fun j hv _ => h.registeredDriven j hv (hr j) }

theorem inv_bufWrite (a v : Byte) : Inv (bufWrite a v s) :=
  { h with bufWf := bufWrite_memWf a v s h.bufWf }

/-- A transfer command goes to its other phase. -/
theorem inv_transferPhase {i : Instr} (hc : s.seq.cmd = some i) (hi : isTransfer i = true)
    (hb : s.statBusy = false) {p : Nat} (hp : 1 ≤ p ∧ p ≤ 3) (n : Byte) :
    Inv { s with seq := { s.seq with phase := p, idx := n } } := by
  have hr := not_regDriving_of_cmd hc (transfer_ne_reg hi)
  exact { h with
    busyPolls := (ne_true_of_eq_false hb).elim
    phases := fun _ => hp
    sequencer := Iff.mpr (sequencerInv_transfer hc hi) <|
      (sequencerInv_transfer hc hi).1 h.sequencer
    registeredHigh := fun j hv _ => h.registeredHigh j hv (hr j)
    registeredDriven := fun j hv _ => h.registeredDriven j hv (hr j) }

theorem inv_load {i : Instr} (b : Byte) (hc : s.seq.cmd = some i) (hi : isTransfer i = true)
    (hb : s.statBusy = false) : Inv (goto 2 (load b s)) :=
  { inv_transferPhase h hc hi hb (p := 2) (by decide) s.seq.idx with
    busyPolls := fun _ => ⟨i, hc, hi, rfl⟩
    engCount := ⟨h.engCount.1, fun _ => h.engCount.2 (.inl hb)⟩ }

theorem inv_initWrites {d : Bool} (hc : s.seq.cmd = some (.init d)) (hb : s.statBusy = false) :
    Inv (done (.init d) (initWrites d s)) := by
  obtain ⟨hen, hms, -, -, hres⟩ := cfgInit_fields s.cfg d
  have hsel : s.sessSelv = false := by
    cases hv : s.sessSelv with
    | false => rfl
    | true => exact absurd (h.selected hv).1 (by simp [(sequencerInv_init hc).1 h.sequencer])
  have hf := inv_finish h hb (not_regDriving_of_cmd hc (by simp))
  exact { hf with
    selected := (ne_true_of_eq_false hsel).elim
    inited := fun _ => ⟨hen, hms, rfl⟩
    selectedMode := (ne_true_of_eq_false hsel).elim
    cfgReservedZero := hres.trans h.cfgReservedZero }

/-- REG copies a slot only while nothing is selected, and the copied slot's line is left to its second
phase (41_registry.md R104). -/
theorem inv_regCopy {id : Byte} (hc : s.seq.cmd = some (.reg id)) :
    Inv (goto 2 { s with sdt := setSlot s.sdt (slotIx id) (stagedSlot s) }) := by
  obtain ⟨hin, hsel, -⟩ := (sequencerInv_reg hc).1 h.sequencer
  have hb : s.statBusy = false := busy_of_no_transfer h (by simp [hc, isTransfer])
  have before {j : BitVec 3}
      (hj : ¬ regDriving (goto 2 { s with sdt := setSlot s.sdt (slotIx id) (stagedSlot s) }) j) :
      slotAt (setSlot s.sdt (slotIx id) (stagedSlot s)) j = slotAt s.sdt j ∧ ¬ regDriving s j :=
    ⟨slotAt_setSlot_other _ _ _ _ fun e => hj ⟨id, hc, rfl, e.symm⟩,
      fun ⟨id', hc', _, e⟩ => hj ⟨id', hc', rfl, e⟩⟩
  exact { h with
    busyPolls := (ne_true_of_eq_false hb).elim
    selected := (ne_true_of_eq_false hsel).elim
    selectedMode := (ne_true_of_eq_false hsel).elim
    phases := fun _ => by simp
    sequencer := Iff.mpr (sequencerInv_reg hc) ⟨hin, hsel, fun _ => by simp [stagedSlot]⟩
    registeredHigh := fun j hv hj _ => by
      obtain ⟨hs, hr⟩ := before hj
      simp only [goto_fields, hs] at hv ⊢
      exact h.registeredHigh j hv hr (ne_true_of_eq_false hsel).elim
    registeredDriven := fun j hv hj => by
      obtain ⟨hs, hr⟩ := before hj
      simp only [goto_fields, hs] at hv ⊢
      exact h.registeredDriven j hv hr }

/-- REG's second phase drives the line that its first left open; all other registered lines were
driven before (41_registry.md R104). -/
theorem inv_regDrive {id : Byte} (hc : s.seq.cmd = some (.reg id)) :
    Inv (done (.reg id) (drivePin (slotAt s.sdt (slotIx id)).line true s)) := by
  obtain ⟨hin, hsel, -⟩ := (sequencerInv_reg hc).1 h.sequencer
  have hb : s.statBusy = false := busy_of_no_transfer h (by simp [hc, isTransfer])
  have other {j : BitVec 3} (hj : slotIx id ≠ j) : ¬ regDriving s j := by
    rintro ⟨id', hc', -, e⟩
    obtain rfl : id = id' := by simpa [hc] using hc'
    exact hj e
  exact { h with
    busyPolls := (ne_true_of_eq_false hb).elim
    selectedMode := (ne_true_of_eq_false hsel).elim
    faultIdle := fun _ => rfl
    phases := fun hc => absurd rfl hc
    sequencer := sequencerInv_idle rfl
    registeredHigh := fun j hv _ _ => by
      by_cases hj : slotIx id = j
      · simp [latch, lineBit_setLineBit, hj]
      · have hhigh := h.registeredHigh j hv (other hj) (ne_true_of_eq_false hsel).elim
        simp_all [latch, lineBit_setLineBit]
    registeredDriven := fun j hv _ => by
      by_cases hj : slotIx id = j
      · simp [lineBit_setLineBit, hj]
      · have hdriven := h.registeredDriven j hv (other hj)
        simp [lineBit_setLineBit, hdriven] }

theorem inv_selMode {id : Byte} (hc : s.seq.cmd = some (.sel id)) (hp : s.seq.phase = 1) :
    Inv (goto 2 (record (.modeSet (slotAt s.sdt (slotIx id)).mode s.time)
      { s with cfg := cfgSetMode s.cfg (slotAt s.sdt (slotIx id)).mode })) := by
  obtain ⟨hin, hval, hsel, -, -⟩ := (sequencerInv_sel hc).1 h.sequencer
  obtain ⟨hen, hms, -, hmode, hres⟩ := cfgSetMode_fields s.cfg (slotAt s.sdt (slotIx id)).mode
  have hsel : s.sessSelv = false := hsel (by omega)
  have hb : s.statBusy = false := busy_of_no_transfer h (by simp [hc, isTransfer])
  have hr := not_regDriving_of_cmd hc (by simp)
  exact { h with
    busyPolls := (ne_true_of_eq_false hb).elim
    inited := fun hi => by
      obtain ⟨h1, h2, h3⟩ := h.inited hi
      exact ⟨hen.trans h1, hms.trans h2, h3⟩
    selectedMode := (ne_true_of_eq_false hsel).elim
    cfgReservedZero := hres.trans h.cfgReservedZero
    phases := fun _ => by simp
    sequencer := Iff.mpr (sequencerInv_sel hc) ⟨hin, hval, fun _ => hsel, fun _ => hmode, nofun⟩
    registeredHigh := fun j hv _ => h.registeredHigh j hv (hr j)
    registeredDriven := fun j hv _ => h.registeredDriven j hv (hr j) }

/-- Before SEL's falling edge nothing is selected, so every registered line is high; after it only the
selected slot's line, which other slots may share, is low (42_select_deselect.md R110). -/
theorem inv_selFall {id : Byte} (hc : s.seq.cmd = some (.sel id)) (hp : s.seq.phase = 2) :
    Inv (goto 3 (arm (slotAt s.sdt (slotIx id)).seldly
      { drivePin (slotAt s.sdt (slotIx id)).line false s with
        sessSelv := true, sessSelid := slotIx id })) := by
  obtain ⟨hin, hval, hsel, hmode, -⟩ := (sequencerInv_sel hc).1 h.sequencer
  have hsel : s.sessSelv = false := hsel (by omega)
  have hb : s.statBusy = false := busy_of_no_transfer h (by simp [hc, isTransfer])
  have hr := not_regDriving_of_cmd hc (by simp)
  exact { h with
    busyPolls := (ne_true_of_eq_false hb).elim
    selected := fun _ => ⟨hin, hval⟩
    selectedMode := fun _ => ⟨hmode hp, by simp [latch, selectedSlot, lineBit_setLineBit]⟩
    phases := fun _ => by simp
    sequencer := Iff.mpr (sequencerInv_sel hc) ⟨hin, hval, nofun, nofun, fun _ => ⟨rfl, rfl⟩⟩
    registeredHigh := fun j hv _ hother => by
      have hhigh := h.registeredHigh j hv (hr j) (ne_true_of_eq_false hsel).elim
      have hother := hother rfl
      simp_all [latch, selectedSlot, lineBit_setLineBit]
    registeredDriven := fun j hv _ => by
      have hdriven := h.registeredDriven j hv (hr j)
      simp [lineBit_setLineBit, hdriven] }

/-- DES drives the selected slot's line, the only registered one that was not high
(42_select_deselect.md R113). -/
theorem inv_desRise {id : Byte} (hc : s.seq.cmd = some (.des id)) (hp : s.seq.phase = 1) :
    Inv (goto 2 (arm (slotAt s.sdt (slotIx id)).desdly
      { drivePin (slotAt s.sdt (slotIx id)).line true s with sessSelv := false })) := by
  obtain ⟨hin, hval, hsel, -⟩ := (sequencerInv_des hc).1 h.sequencer
  obtain ⟨-, hid⟩ := hsel hp
  have hb : s.statBusy = false := busy_of_no_transfer h (by simp [hc, isTransfer])
  have hr := not_regDriving_of_cmd hc (by simp)
  exact { h with
    busyPolls := (ne_true_of_eq_false hb).elim
    selected := nofun
    selectedMode := nofun
    phases := fun _ => by simp
    sequencer := Iff.mpr (sequencerInv_des hc) ⟨hin, hval, nofun, fun _ => rfl⟩
    registeredHigh := fun j hv _ _ => by
      have hhigh := h.registeredHigh j hv (hr j)
      by_cases hj : (slotAt s.sdt j).line = (slotAt s.sdt (slotIx id)).line
      · simp [latch, lineBit_setLineBit, hj]
      · simp_all [latch, lineBit_setLineBit, selectedSlot]
    registeredDriven := fun j hv _ => by
      have hdriven := h.registeredDriven j hv (hr j)
      simp [lineBit_setLineBit, hdriven] }

/-- Every micro-step, taken while no exchange is in flight, keeps the invariant. -/
theorem inv_microStep {i : Instr} {t : State} (hc : s.seq.cmd = some i) (hb : s.statBusy = false)
    (hm : MicroStep s i t) : Inv t := by
  have finish (hi : ∀ id, i ≠ .reg id) := inv_finish h hb (not_regDriving_of_cmd hc hi)
  have phase (hi : isTransfer i = true) := inv_transferPhase h hc hi hb (p := 1) (by decide)
  cases hm with
  | wait => exact inv_waits h
  | init d => exact inv_initWrites h hc hb
  | regCopy => exact inv_regCopy h hc
  | regDrive => exact inv_regDrive h hc
  | selMode _ hp => exact inv_selMode h hc hp
  | selFall _ hp => exact inv_selFall h hc hp
  | desRise _ hp => exact inv_desRise h hc hp
  | load _ b k hi => exact { inv_load h b hc hi hb with }
  | wrbNext => exact { phase rfl (s.seq.idx + 1) with }
  | rdbNext => exact { inv_bufWrite (phase rfl (s.seq.idx + 1)) _ s.data with }
  | burstEnd _ hi => exact { finish (transfer_ne_reg hi) with }
  | single _ hi => exact { finish (by rintro id rfl; simp at hi) with }
  | stb a b => exact { inv_bufWrite (finish (by simp)) a b with }
  | _ => exact { finish (by simp) with }

end Preservation

/-- The block's step keeps the invariant. -/
theorem inv_blockStep {s t : State} (h : Inv s) (ht : blockStep s = .next t) : Inv t := by
  obtain ⟨-, rfl⟩ | ⟨hf, hc, w, rest, i, -, -, rfl⟩ | ⟨-, hc, w, rest, e, -, -, rfl⟩ |
    ⟨-, -, hen, -, rfl⟩ | ⟨-, hoff, i, hc, rfl⟩ := blockStep_cases ht
  · exact inv_waits h
  · exact inv_accept (inv_accepted h w rest) i hc hf
  · exact inv_raise (inv_accepted h w rest) .illegalCommand w hc
  · exact inv_engineStep h hen (engineStep_engineStep s)
  · exact inv_microStep h hc (busy_of_engine_off h hoff) (microStep_microOf i s)

theorem inv_turnTaken {s : State} (h : Inv s) : Inv (turnTaken s) := { h with }

/-- Settles O15: the environment's moves and the block's steps keep `Inv`, each by its own lemma. -/
theorem stepKeepsTheInvariant : Obligations.StepKeepsTheInvariant := by
  intro s t h ht
  obtain ⟨m, -, rfl⟩ | ⟨-, ht⟩ := step_cases ht
  · exact inv_envMove (inv_turnTaken h) m
  · exact inv_blockStep (inv_turnTaken h) ht

/-- Settles O14: the invariant at reset is that after a reset; nothing is selected, so nothing is
timed. -/
theorem resetMeetsTheInvariant : Obligations.ResetMeetsTheInvariant :=
  ⟨resetBlock_reset ▸ inv_resetBlock State.reset, nofun, nofun⟩

/-! ### Which micro-step writes which register (10_state.md R10) -/

section Writers

variable {i : Instr} {s t : State} (hm : MicroStep s i t)
include hm

theorem microStep_sdt : t.sdt = s.sdt ∨ ∃ id, i = .reg id ∧ s.seq.phase = 1 ∧
    t.sdt = setSlot s.sdt (slotIx id) (stagedSlot s) := by
  cases hm with
  | regCopy id hp => exact .inr ⟨id, rfl, hp, rfl⟩
  | _ => simp

theorem microStep_cfg : t.cfg = s.cfg ∨
    (∃ d, i = .init d ∧ s.seq.phase = 1 ∧ t.cfg = cfgInit s.cfg d) ∨
    ∃ id, i = .sel id ∧ s.seq.phase = 1 ∧
      t.cfg = cfgSetMode s.cfg (slotAt s.sdt (slotIx id)).mode := by
  cases hm with
  | init d hp => exact .inr (.inl ⟨d, rfl, hp, rfl⟩)
  | selMode id hp => exact .inr (.inr ⟨id, rfl, hp, rfl⟩)
  | _ => simp

theorem microStep_inited :
    t.sessInited = s.sessInited ∨ (∃ d, i = .init d) ∧ t.sessInited = true := by
  cases hm with
  | init d => exact .inr ⟨⟨d, rfl⟩, rfl⟩
  | _ => simp

/-- TC, BUSY and DATA belong to a transfer command's load; the engine writes them too. -/
theorem microStep_exchange :
    (t.statTc = s.statTc ∧ t.statBusy = s.statBusy ∧ t.data = s.data) ∨
    (isTransfer i = true ∧ s.seq.phase = 1 ∧ t.statTc = false ∧ t.statBusy = true ∧
      t.hist = s.hist ++ [.xferStart t.data (cfgMode s.cfg) (cfgDbl s.cfg) s.time]) := by
  cases hm with
  | load _ b k hi hp => exact .inr ⟨hi, hp, rfl, rfl, rfl⟩
  | _ => simp

theorem microStep_resp : t.resp = s.resp ∨
    (returnsValue i = true ∧ t.seq.cmd = none ∧ t.respKnown = true ∧
      t.hist = s.hist ++ [.done (encode i) (some t.resp) s.time]) := by
  cases hm with
  | single _ hi =>
    have hi : returnsValue i = true := by obtain rfl | ⟨b, rfl⟩ := hi <;> rfl
    exact .inr ⟨hi, rfl, rfl, rfl⟩
  | ldb => exact .inr ⟨rfl, rfl, rfl, rfl⟩
  | rdr => exact .inr ⟨rfl, rfl, rfl, rfl⟩
  | _ => simp

/-- The latches change only where a command drives the line of the slot it names (10_state.md R28). -/
theorem microStep_csout : t.csout = s.csout ∨ ∃ id v,
    t.csout = setLineBit s.csout (slotAt s.sdt (slotIx id)).line v ∧
      ((i = .reg id ∧ s.seq.phase = 2 ∧ v = true) ∨ (i = .sel id ∧ s.seq.phase = 2 ∧ v = false) ∨
        (i = .des id ∧ s.seq.phase = 1 ∧ v = true)) := by
  cases hm with
  | regDrive id hp => exact .inr ⟨id, true, rfl, .inl ⟨rfl, hp, rfl⟩⟩
  | selFall id hp => exact .inr ⟨id, false, rfl, .inr (.inl ⟨rfl, hp, rfl⟩)⟩
  | desRise id hp => exact .inr ⟨id, true, rfl, .inr (.inr ⟨rfl, hp, rfl⟩)⟩
  | _ => simp

/-- One line's latch bit after a micro-step: as before, or driven by the command of its slot. -/
theorem microStep_latch (l : Line) : latch t l = latch s l ∨
    ∃ id, l = (slotAt s.sdt (slotIx id)).line ∧
      ((i = .reg id ∧ s.seq.phase = 2 ∧ latch t l = true) ∨
        (i = .sel id ∧ s.seq.phase = 2 ∧ latch t l = false) ∨
        (i = .des id ∧ s.seq.phase = 1 ∧ latch t l = true)) := by
  obtain he | ⟨id, v, he, hv⟩ := microStep_csout hm
  · exact .inl (by rw [latch, he, latch])
  · have hl : latch t l = if l = (slotAt s.sdt (slotIx id)).line then v else latch s l := by
      rw [latch, he, lineBit_setLineBit]; rfl
    split at hl
    · next h => exact .inr ⟨id, h, by rwa [hl]⟩
    · exact .inl hl

/-- The buffer is written by STB and by RDB's poll alone (20_memory.md R52). -/
theorem microStep_buf : t.buf = s.buf ∨
    (∃ a b, i = .stb a b ∧ s.seq.phase = 1 ∧ t.buf = (bufWrite a b s).buf) ∨
    ∃ base len, i = .rdb base len ∧ s.seq.phase = 2 ∧ s.statTc = true ∧
      t.buf = (bufWrite (ea base s.seq.idx) s.data s).buf := by
  cases hm with
  | stb a b hp => exact .inr (.inl ⟨a, b, rfl, hp, rfl⟩)
  | rdbNext base len hp htc => exact .inr (.inr ⟨base, len, rfl, hp, htc, rfl⟩)
  | _ => simp

theorem microStep_staging :
    (t.dsLine = s.dsLine ∨ ∃ l, i = .lddLine l) ∧ (t.dsMode = s.dsMode ∨ ∃ m, i = .lddMode m) ∧
    (t.dsSel = s.dsSel ∨ ∃ d, i = .lddSeld d) ∧ (t.dsDes = s.dsDes ∨ ∃ d, i = .lddDesd d) := by
  cases hm with
  | lddLine l => exact ⟨.inr ⟨l, rfl⟩, .inl rfl, .inl rfl, .inl rfl⟩
  | lddMode m => exact ⟨.inl rfl, .inr ⟨m, rfl⟩, .inl rfl, .inl rfl⟩
  | lddSeld d => exact ⟨.inl rfl, .inl rfl, .inr ⟨d, rfl⟩, .inl rfl⟩
  | lddDesd d => exact ⟨.inl rfl, .inl rfl, .inl rfl, .inr ⟨d, rfl⟩⟩
  | _ => simp

theorem microStep_busdir : t.busdir = s.busdir ∨ ∃ d, i = .init d := by
  cases hm with
  | init d => exact .inr ⟨d, rfl⟩
  | _ => simp

theorem microStep_selection :
    (t.sessSelv = s.sessSelv ∨ ∃ id, i = .sel id ∨ i = .des id) ∧
    (t.sessSelid = s.sessSelid ∨ ∃ id, i = .sel id) := by
  cases hm with
  | selFall id => exact ⟨.inr ⟨id, .inl rfl⟩, .inr ⟨id, rfl⟩⟩
  | desRise id => exact ⟨.inr ⟨id, .inr rfl⟩, .inl rfl⟩
  | _ => simp

/-- No micro-step writes the fault registers, the engine's counter, or what belongs to the
environment and the schedule. -/
theorem microStep_frame :
    t.fcause = s.fcause ∧ t.fcmd = s.fcmd ∧ t.engCnt = s.engCnt ∧ t.csdir = s.csdir ∧
    t.host = s.host ∧ t.answers = s.answers ∧ t.turns = s.turns ∧ t.wired = s.wired ∧
    t.timeRuns = s.timeRuns ∧ t.bitView = s.bitView := by
  cases hm <;> simp

end Writers

/-! ### What one step of a command leaves unchanged -/

/-- A command's step is a fault or the start at acceptance, or a micro-step. -/
theorem exec_cases {i : Instr} {s t : State} (h : exec i s = .next t) : faulted s = false ∧
    ((s.seq.cmd = none ∧ ((∃ c, t = raise c (encode i) s) ∨ t = start i s)) ∨
      (s.seq.cmd = some i ∧ MicroStep s i t)) := by
  obtain ⟨hf, ⟨hc, rfl⟩ | ⟨hc, rfl⟩⟩ := exec_next h
  · obtain ⟨c, -, ha⟩ | ⟨-, ha⟩ := accept_cases i (checkOf i) s
    · exact ⟨hf, .inl ⟨hc, .inl ⟨c, ha⟩⟩⟩
    · exact ⟨hf, .inl ⟨hc, .inr ha⟩⟩
  · exact ⟨hf, .inr ⟨hc, microStep_microOf i s⟩⟩

/-- Settles O20: acceptance writes the fault registers or starts the sequencer; of the micro-steps
each register has its writers. -/
theorem registersKeepToTheirWriters : Obligations.RegistersKeepToTheirWriters := by
  intro i s t h
  obtain ⟨hf, ⟨hc, ⟨c, rfl⟩ | rfl⟩ | ⟨-, hm⟩⟩ := exec_cases h
  · simp [ready_iff, hc, hf]
  · simp
  · obtain ⟨hline, hmode, hseld, hdesd⟩ := microStep_staging hm
    obtain ⟨hselv, hselid⟩ := microStep_selection hm
    obtain ⟨hcause, hcmd, hframe⟩ := microStep_frame hm
    refine ⟨hline.resolve_left, hmode.resolve_left, hseld.resolve_left, hdesd.resolve_left,
      fun h => ((microStep_resp hm).resolve_left h).1, fun h => ?sdt, fun h => ?cfg,
      fun h => ?exchange, (microStep_busdir hm).resolve_left,
      fun h => ((microStep_inited hm).resolve_left h).1, hselv.resolve_left, hselid.resolve_left,
      fun h => ?fault, fun h => ?csout, fun h => ?buf, hframe⟩
    case sdt =>
      obtain ⟨id, hi, -⟩ := (microStep_sdt hm).resolve_left h
      exact ⟨id, hi⟩
    case cfg =>
      obtain ⟨d, hi, -⟩ | ⟨id, hi, -⟩ := (microStep_cfg hm).resolve_left h
      · exact .inl ⟨d, hi⟩
      · exact .inr ⟨id, hi⟩
    case exchange =>
      obtain ⟨htc, hbusy, hdata⟩ | ⟨hi, -⟩ := microStep_exchange hm
      · simp [htc, hbusy, hdata] at h
      · exact hi
    case fault => simp [hcause, hcmd] at h
    case csout =>
      obtain ⟨id, -, -, ⟨hi, -⟩ | ⟨hi, -⟩ | ⟨hi, -⟩⟩ := (microStep_csout hm).resolve_left h
      · exact ⟨id, .inl hi⟩
      · exact ⟨id, .inr (.inl hi)⟩
      · exact ⟨id, .inr (.inr hi)⟩
    case buf =>
      obtain ⟨a, b, hi, -⟩ | ⟨base, len, hi, -⟩ := (microStep_buf hm).resolve_left h
      · exact .inl ⟨a, b, hi⟩
      · exact .inr ⟨base, len, hi⟩

/-- A byte that a store has changed is the stored one (20_memory.md R52). -/
theorem bufAt_changed {s t : State} {x v a : Byte} (h : t.buf = (bufWrite x v s).buf)
    (ha : bufAt t a ≠ bufAt s a) : a = x ∧ bufAt t a = some v := by
  have hb : bufAt t a = if a = x then some v else bufAt s a := by
    rw [← bufAt_bufWrite, bufAt, h, bufAt]
  split at hb
  · next hx => exact ⟨hx, hb⟩
  · exact absurd hb ha

/-- Settles O21: only STB's step and RDB's poll write the buffer, each one byte. -/
theorem bufferBytesChangeOnlyWhereStored : Obligations.BufferBytesChangeOnlyWhereStored := by
  intro i s t h a ha
  obtain ⟨hf, ⟨-, ⟨c, rfl⟩ | rfl⟩ | ⟨hc, hm⟩⟩ := exec_cases h
  · exact absurd rfl ha
  · exact absurd rfl ha
  · obtain hb | ⟨x, b, hi, hp, hb⟩ | ⟨base, len, hi, hp, htc, hb⟩ := microStep_buf hm
    · exact absurd (by rw [bufAt, hb, bufAt]) ha
    · obtain ⟨rfl, hv⟩ := bufAt_changed hb ha
      exact .inl ⟨b, hi, ⟨hf, hc, hp⟩, hv⟩
    · obtain ⟨hx, hv⟩ := bufAt_changed hb ha
      exact .inr ⟨base, len, hi, ⟨hf, hc, hp⟩, htc, hx, hv⟩

/-- Settles O22: only REG's, SEL's and DES's pin phases drive a line, that of their slot. -/
theorem otherLinesKeepTheirLevel : Obligations.OtherLinesKeepTheirLevel := by
  intro i s t h l hl
  obtain ⟨hf, ⟨-, ⟨c, rfl⟩ | rfl⟩ | ⟨hc, hm⟩⟩ := exec_cases h
  · exact absurd rfl hl
  · exact absurd rfl hl
  · obtain ⟨id, hid, hw⟩ := (microStep_latch hm l).resolve_left hl
    refine ⟨id, hid, ?_⟩
    obtain ⟨hi, hp, hv⟩ | ⟨hi, hp, hv⟩ | ⟨hi, hp, hv⟩ := hw
    · exact .inl ⟨hi, ⟨hf, hc, hp⟩, hv⟩
    · exact .inr (.inl ⟨hi, ⟨hf, hc, hp⟩, hv⟩)
    · exact .inr (.inr ⟨hi, ⟨hf, hc, hp⟩, hv⟩)

/-! ### Whole-machine rules: who else moves -/

/-- A step of the environment, of the host or of the engine: what it leaves as it was, and the one
way it can change TC and BUSY, the completion of an exchange (10_state.md R20). -/
structure NotSequencer (s t : State) : Prop where
  resp : t.resp = s.resp
  sdt : t.sdt = s.sdt
  cfg : t.cfg = s.cfg
  inited : t.sessInited = s.sessInited
  csout : t.csout = s.csout
  flags : (t.statTc = s.statTc ∧ t.statBusy = s.statBusy) ∨
    (engineEnabled s = true ∧ t.statTc = true ∧ t.statBusy = false ∧
      ∃ o, t.hist = s.hist ++ [.xferEnd o t.data s.time])

theorem notSequencer_envMove {m : EnvMove} (s : State) (hm : m ≠ .rst) :
    NotSequencer s (envMove m s) := by
  cases m with
  | rst => exact absurd rfl hm
  | _ => exact ⟨rfl, rfl, rfl, rfl, rfl, .inl ⟨rfl, rfl⟩⟩

theorem notSequencer_accept (i : Instr) (w : Word) (rest : List Word) (s : State) :
    NotSequencer s (accept i (checkOf i) (record (.accept w s.time) { s with host := rest })) := by
  obtain ⟨c, -, ha⟩ | ⟨-, ha⟩ :=
    accept_cases i (checkOf i) (record (.accept w s.time) { s with host := rest })
  · exact ha ▸ ⟨rfl, rfl, rfl, rfl, rfl, .inl ⟨rfl, rfl⟩⟩
  · exact ha ▸ ⟨rfl, rfl, rfl, rfl, rfl, .inl ⟨rfl, rfl⟩⟩

theorem notSequencer_engine {s t : State} (hen : engineEnabled s = true) (he : EngineStep s t) :
    NotSequencer s t := by
  cases he with
  | complete => exact ⟨rfl, rfl, rfl, rfl, rfl, .inr ⟨hen, rfl, rfl, _, rfl⟩⟩
  | period => exact ⟨rfl, rfl, rfl, rfl, rfl, .inl ⟨rfl, rfl⟩⟩

/-- Every step but a reset is a micro-step of the running command, or one of the other agents'. -/
theorem step_sequencer_or_not {s t : State} (h : step s = .next t) (hr : ¬ resetNext s) :
    NotSequencer s t ∨ ∃ i, runningAt s i s.seq.phase ∧ MicroStep (turnTaken s) i t := by
  obtain ⟨m, hm, rfl⟩ | ⟨-, hb⟩ := step_cases h
  · refine .inl { notSequencer_envMove (turnTaken s) ?_ with }
    rintro rfl; exact hr hm
  · obtain ⟨-, rfl⟩ | ⟨-, -, w, rest, i, -, -, rfl⟩ | ⟨-, -, w, rest, e, -, -, rfl⟩ |
      ⟨-, -, hen, -, rfl⟩ | ⟨hf, -, i, hc, rfl⟩ := blockStep_cases hb
    · exact .inl ⟨rfl, rfl, rfl, rfl, rfl, .inl ⟨rfl, rfl⟩⟩
    · exact .inl { notSequencer_accept i w rest (turnTaken s) with }
    · exact .inl ⟨rfl, rfl, rfl, rfl, rfl, .inl ⟨rfl, rfl⟩⟩
    · exact .inl { notSequencer_engine hen (engineStep_engineStep (turnTaken s)) with }
    · exact .inr ⟨i, ⟨hf, hc, rfl⟩, microStep_microOf i (turnTaken s)⟩

/-- Settles O19: of the pin phases only SEL's drives its line low. -/
theorem linesFallOnlyInSelect : Obligations.LinesFallOnlyInSelect := by
  intro s t l h hs ht
  refine or_iff_not_imp_left.2 fun hr => ?_
  obtain ho | ⟨i, ⟨hf, hc, -⟩, hm⟩ := step_sequencer_or_not h hr
  · rw [latch, ho.csout, ← latch, hs] at ht
    cases ht
  · obtain he | ⟨id, hid, ⟨-, -, hv⟩ | ⟨rfl, hp, -⟩ | ⟨-, -, hv⟩⟩ := microStep_latch hm l
    · exact absurd (ht.symm.trans (he.trans hs)) (by decide)
    · exact absurd (ht.symm.trans hv) (by decide)
    · exact ⟨id, ⟨hf, hc, hp⟩, hid⟩
    · exact absurd (ht.symm.trans hv) (by decide)

/-- REG makes a slot valid and leaves the others as they are. -/
theorem valid_setSlot {tbl : Vector Slot 8} {i j : BitVec 3} {x : Slot} (hx : x.valid = true)
    (hj : (slotAt tbl j).valid = true) : (slotAt (setSlot tbl i x) j).valid = true := by
  by_cases h : j = i
  · rw [h, slotAt_setSlot_same, hx]
  · rw [slotAt_setSlot_other _ _ _ _ h, hj]

/-- Settles O25: REG registers, INIT initialises, SEL keeps EN and MSTR; nothing else writes them. -/
theorem registrationAndInitialisationLast : Obligations.RegistrationAndInitialisationLast := by
  intro s t h hr
  obtain ho | ⟨i, -, hm⟩ := step_sequencer_or_not h hr
  · simp [ho.sdt, ho.inited, ho.cfg]
  · refine ⟨fun j hv => ?_, fun hin => ?_, ?_⟩
    · obtain he | ⟨id, -, -, he⟩ := microStep_sdt hm
      · rw [he]; exact hv
      · rw [he]; exact valid_setSlot rfl hv
    · obtain he | ⟨-, he⟩ := microStep_inited hm
      · exact he.trans hin
      · exact he
    · obtain he | ⟨d, -, -, he⟩ | ⟨id, -, -, he⟩ := microStep_cfg hm
      · simp [he]
      · simp [he, cfgInit_fields]
      · simp [he, cfgSetMode_fields]

/-- Settles O26: of CFG's two writers INIT keeps the mode and SEL the other bits. -/
theorem configurationBitsHaveOneWriter : Obligations.ConfigurationBitsHaveOneWriter := by
  intro s t h hr
  obtain ho | ⟨i, ⟨hf, hc, -⟩, hm⟩ := step_sequencer_or_not h hr
  · simp [ho.cfg]
  · obtain he | ⟨d, rfl, hp, he⟩ | ⟨id, rfl, hp, he⟩ := microStep_cfg hm
    · simp [he]
    · obtain ⟨-, -, hdbl, hmode, hres⟩ := cfgInit_fields s.cfg d
      rw [he]
      exact ⟨fun hne => absurd hmode hne, fun _ => ⟨d, ⟨hf, hc, hp⟩, hdbl⟩, hres⟩
    · obtain ⟨hen, hms, hdbl, hmode, hres⟩ :=
        cfgSetMode_fields s.cfg (slotAt s.sdt (slotIx id)).mode
      rw [he]
      exact ⟨fun _ => ⟨id, ⟨hf, hc, hp⟩, hmode⟩, fun hne => by simp [hen, hms, hdbl] at hne, hres⟩

/-- Settles O27: the sequencer changes TC and BUSY at a load, the engine at a completion. -/
theorem transferFlagsChangeAtTwoPoints : Obligations.TransferFlagsChangeAtTwoPoints := by
  intro s t h hr hne
  obtain ho | ⟨i, ⟨hf, hc, -⟩, hm⟩ := step_sequencer_or_not h hr
  · obtain ⟨htc, hbusy⟩ | hend := ho.flags
    · simp [htc, hbusy] at hne
    · exact .inr hend
  · obtain ⟨htc, hbusy, -⟩ | ⟨hi, hp, hload⟩ := microStep_exchange hm
    · simp [htc, hbusy] at hne
    · exact .inl ⟨i, hi, ⟨hf, hc, hp⟩, hload⟩

/-- Settles O28: REG, the one writer of the table, runs only while nothing is selected. -/
theorem slotsFixedWhileSelected : Obligations.SlotsFixedWhileSelected := by
  intro s t hinv hsel h hr
  obtain ho | ⟨i, ⟨-, hc, -⟩, hm⟩ := step_sequencer_or_not h hr
  · exact ho.sdt
  · obtain he | ⟨id, rfl, -⟩ := microStep_sdt hm
    · exact he
    · obtain ⟨-, hun, -⟩ := (sequencerInv_reg hc).1 hinv.sequencer
      exact absurd (hsel.symm.trans hun) (by decide)

/-- Settles O30: a micro-step that changes RESP completes a command that returns a value. -/
theorem responseChangesOnlyAtCompletion : Obligations.ResponseChangesOnlyAtCompletion := by
  intro s t h hr hne
  obtain ho | ⟨i, ⟨-, hc, -⟩, hm⟩ := step_sequencer_or_not h hr
  · exact absurd ho.resp hne
  · exact ⟨i, hc, (microStep_resp hm).resolve_left hne⟩

/-! ### The history (10_state.md R40, R42) -/

/-- Time does not go back, and the history gains events of the time before the step only. -/
def Grows (s t : State) : Prop :=
  s.time ≤ t.time ∧ ∃ es, t.hist = s.hist ++ es ∧ ∀ e ∈ es, eventTime e = s.time

theorem grows_silent {s t : State} (ht : s.time ≤ t.time) (h : t.hist = s.hist) : Grows s t :=
  ⟨ht, [], by simp [h], nofun⟩

theorem grows_event {s t : State} {e : Event} (ht : t.time = s.time) (h : t.hist = s.hist ++ [e])
    (he : eventTime e = s.time) : Grows s t :=
  ⟨ht.ge, [e], h, by simp [he]⟩

theorem grows_two_events {s t : State} {e e' : Event} (ht : t.time = s.time)
    (h : t.hist = s.hist ++ [e] ++ [e']) (he : eventTime e = s.time) (he' : eventTime e' = s.time) :
    Grows s t :=
  ⟨ht.ge, [e, e'], by simp [h], by simp [he, he']⟩

theorem grows_waits (s : State) : Grows s (waits s) :=
  grows_silent (by simp; split <;> omega) rfl

theorem grows_envMove (m : EnvMove) (s : State) : Grows s (envMove m s) := by
  cases m with
  | time k => exact grows_silent (Nat.le_add_right _ _) rfl
  | _ => exact grows_silent le_rfl rfl

theorem grows_accept (i : Instr) (w : Word) (rest : List Word) (s : State) :
    Grows s (accept i (checkOf i) (record (.accept w s.time) { s with host := rest })) := by
  obtain ⟨c, -, ha⟩ | ⟨-, ha⟩ :=
    accept_cases i (checkOf i) (record (.accept w s.time) { s with host := rest })
  · exact ha ▸ grows_two_events rfl rfl rfl rfl
  · exact ha ▸ grows_event rfl rfl rfl

theorem grows_engineStep {s t : State} (he : EngineStep s t) : Grows s t := by
  cases he with
  | complete => exact grows_event rfl rfl rfl
  | period => exact grows_silent le_rfl rfl

theorem grows_microStep {i : Instr} {s t : State} (hm : MicroStep s i t) : Grows s t := by
  cases hm with
  | wait => exact grows_waits s
  | regCopy => exact grows_silent le_rfl rfl
  | wrbNext => exact grows_silent le_rfl rfl
  | regDrive => exact grows_two_events rfl rfl rfl rfl
  | stb => exact grows_two_events rfl rfl rfl rfl
  | _ => exact grows_event rfl rfl rfl

/-- Settles O29: every kind of step appends no event, one or two, each of the current time. -/
theorem historyOnlyGrows : Obligations.HistoryOnlyGrows := by
  intro s t h
  obtain ⟨m, -, rfl⟩ | ⟨-, hb⟩ := step_cases h
  · exact grows_envMove m (turnTaken s)
  · obtain ⟨-, rfl⟩ | ⟨-, -, w, rest, i, -, -, rfl⟩ | ⟨-, -, w, rest, e, -, -, rfl⟩ |
      ⟨-, -, -, -, rfl⟩ | ⟨-, -, i, -, rfl⟩ := blockStep_cases hb
    · exact grows_waits (turnTaken s)
    · exact grows_accept i w rest (turnTaken s)
    · exact grows_two_events rfl rfl rfl rfl
    · exact grows_engineStep (s := turnTaken s) (engineStep_engineStep (turnTaken s))
    · exact grows_microStep (s := turnTaken s) (microStep_microOf i (turnTaken s))

/-! ### The block's turn and the environment's -/

theorem blockStep_faulted {s : State} (hf : faulted s = true) : blockStep s = .next (waits s) := by
  simp [blockStep, hf]

theorem blockStep_idle {s : State} (hf : faulted s = false) (hc : s.seq.cmd = none) :
    blockStep s = hostStep s := by
  simp [blockStep, hf, hc]

theorem blockStep_running {i : Instr} {s : State} (hf : faulted s = false)
    (hc : s.seq.cmd = some i) : blockStep s = runStep i s := by
  simp [blockStep, hf, hc]

theorem runStep_sequencer {s : State} (i : Instr) (he : engineEnabled s = false) :
    runStep i s = exec i s := by
  simp [runStep, he]

theorem runStep_engine {s : State} (i : Instr) (he : engineEnabled s = true) :
    runStep i s = .next (if s.wired then engineStep s else waits s) := by
  simp [runStep, he]

theorem acceptWord_decoded {w : Word} {i : Instr} (s : State) (hd : decode w = .ok i) :
    acceptWord w s = exec i (record (.accept w s.time) s) := by
  simp [acceptWord, hd]

/-- Settles O6: the ready block asks the host, whose next word decodes. -/
theorem presentedWordIsExecuted : Obligations.PresentedWordIsExecuted := by
  intro s w rest i hb hr hh hd
  obtain ⟨hc, hf⟩ := (ready_iff s).1 hr
  rw [step_block hb, blockStep_idle (s := turnTaken s) hf hc]
  simp only [hostStep, turnTaken_fields, hh]
  exact acceptWord_decoded _ hd

/-- Settles O7: the running command's step is the engine's or the sequencer's. -/
theorem runningCommandIsExecuted : Obligations.RunningCommandIsExecuted := by
  intro s i hb hf hc
  rw [step_block hb, blockStep_running (s := turnTaken s) hf hc]
  refine ⟨runStep_sequencer (s := turnTaken s) i, fun he hw => ?_⟩
  rw [runStep_engine (s := turnTaken s) i he, if_pos (by exact hw)]

/-- The environment's move is the step where the schedule lists it next. -/
theorem step_env {s : State} {m : EnvMove} {rest : List Turn} (h : s.turns = .env m :: rest) :
    step s = .next (envMove m { s with turns := rest }) := by
  simp [step, machineStep, turnTaken, h]

/-- Settles O8: each move is the model's own update; a direction write touches one port. -/
theorem environmentMovesAtItsTurn : Obligations.EnvironmentMovesAtItsTurn :=
  ⟨fun _ _ _ h => step_env h,
    fun s p v _ h => ⟨setPort s.csdir p v, step_env h, portAt_setPort_same _ _ _,
      fun q hq => portAt_setPort_other _ _ q _ hq⟩,
    fun _ _ _ h => step_env h, fun _ _ _ h => step_env h⟩

theorem decode_of_decodeTableWord {nbits w : Nat} {i : Instr}
    (h : decodeTableWord nbits w = some i) : decode (BitVec.ofNat 32 (w % 2 ^ nbits)) = .ok i := by
  unfold decodeTableWord at h
  split at h
  · next j hd => rw [hd, Option.some.inj h]
  · cases h

/-- Settles O13: the placed word is presented at a ready port. -/
theorem placedWordIsTheNextCommand : Obligations.PlacedWordIsTheNextCommand :=
  fun s nbits w i h =>
    presentedWordIsExecuted (s.withFetchWord nbits w) (BitVec.ofNat 32 (w % 2 ^ nbits)) s.host i
      (.inl rfl) rfl rfl (decode_of_decodeTableWord h)

/-- Settles O48: the two written latches are those of the model's own update. -/
theorem drivePinRule : Obligations.DrivePinRule :=
  fun l v s => ⟨setLineBit s.csout l v, setLineBit s.csKnown l true,
    fun k => lineBit_setLineBit s.csout l k v, fun k => lineBit_setLineBit s.csKnown l k true, rfl⟩

/-! ### Waiting (10_state.md R40, R41) -/

/-- The waiting phase of SEL and of DES ends when the deadline has passed. -/
theorem microOf_sel_wait (id : Byte) (s : State) :
    microOf (.sel id) 3 s = if expired s then done (.sel id) s else waits s := rfl

theorem microOf_des_wait (id : Byte) (s : State) :
    microOf (.des id) 2 s = if expired s then done (.des id) s else waits s := rfl

theorem microOf_transfer_poll {i : Instr} {s : State} (hi : isTransfer i = true)
    (htc : s.statTc = false) : microOf i 2 s = waits s := by
  cases i <;> simp_all [isTransfer, microOf, singlePhase, wrbPhase, rdbPhase]

theorem expired_eq_false {s : State} (h : s.time < s.seq.deadline) : expired s = false := by
  simpa [expired] using h

/-- A sequencer that waits runs a command whose micro-step only waits. -/
theorem sequencerWaits_exec {s : State} (h : sequencerWaits s) :
    ∃ i p, runningAt s i p ∧ microOf i p s = waits s := by
  obtain ⟨id, hrun | hrun, hd⟩ | ⟨i, hi, hrun, htc⟩ := h
  · exact ⟨_, _, hrun, by rw [microOf_sel_wait, expired_eq_false hd]; rfl⟩
  · exact ⟨_, _, hrun, by rw [microOf_des_wait, expired_eq_false hd]; rfl⟩
  · exact ⟨_, _, hrun, microOf_transfer_poll hi htc⟩

/-- With nothing to do, the block waits. -/
theorem blockStep_waits {s : State} (h : faulted s = true ∨ (s.seq.cmd = none ∧ s.host = []) ∨
    (s.seq.cmd ≠ none ∧ engineEnabled s = true ∧ s.wired = false) ∨
    (sequencerWaits s ∧ engineEnabled s = false)) : blockStep s = .next (waits s) := by
  cases hf : faulted s with
  | true => exact blockStep_faulted hf
  | false =>
    obtain hf' | ⟨hc, hh⟩ | ⟨hc, he, hw⟩ | ⟨hs, he⟩ := h
    · rw [hf] at hf'; cases hf'
    · rw [blockStep_idle hf hc, hostStep, hh]
    · obtain ⟨i, hi⟩ := Option.ne_none_iff_exists'.1 hc
      rw [blockStep_running hf hi, runStep_engine i he, hw]
      rfl
    · obtain ⟨i, p, hrun, hm⟩ := sequencerWaits_exec hs
      rw [blockStep_running hf hrun.2.1, runStep_sequencer i he, exec_running hrun, hm]

/-- Settles O11: the block's step is `waits`, which passes time. -/
theorem waitingStepOnlyPassesTime : Obligations.WaitingStepOnlyPassesTime :=
  fun s hb h => ⟨waits (turnTaken s), by rw [step_block hb]; exact blockStep_waits h,
    waits_passesTime (turnTaken s)⟩

/-- Within `b` steps the running command is done, at or after its deadline, and only time, draws,
history and the sequencer's command have changed. -/
def DelayEndsWithin (b : Nat) (s : State) : Prop :=
  ∃ n t, n ≤ b ∧ Host.Core.run Sys2Proof.core n s = .next t ∧
    t.seq.cmd = none ∧ s.seq.deadline ≤ t.time ∧
    ∃ tm fr h, t = { s with
      time := tm, fresh := fr, hist := h, seq := { s.seq with cmd := none } }

section Delay

variable {i : Instr} {p : Nat} (hmicro : ∀ s, microOf i p s = if expired s then done i s else waits s)
  {s : State} (hturns : s.turns = []) (hoff : engineEnabled s = false) (hrun : runningAt s i p)
include hmicro hturns hoff hrun

/-- With nothing scheduled, the step of a delay wait is its micro-step. -/
theorem step_delay : step s = .next (if expired s then done i s else waits s) := by
  have ⟨hf, hc, _⟩ := hrun
  rw [step_block (.inl hturns), turnTaken_nil hturns, blockStep_running hf hc,
    runStep_sequencer i hoff, exec_running hrun, hmicro]

theorem delayEndsWithin_of_expired (b : Nat) (he : s.seq.deadline ≤ s.time) :
    DelayEndsWithin (b + 1) s := by
  have hstep := step_delay hmicro hturns hoff hrun
  rw [if_pos (by simpa [expired] using he)] at hstep
  exact ⟨1, done i s, by omega, run_succ 0 hstep, rfl, he, _, _, _, rfl⟩

end Delay

/-- A wait takes at least one of the units that are left. -/
theorem delayEndsWithin {i : Instr} {p : Nat}
    (hmicro : ∀ s, microOf i p s = if expired s then done i s else waits s) (b : Nat) {s : State}
    (hturns : s.turns = []) (hruns : s.timeRuns = true) (hoff : engineEnabled s = false)
    (hrun : runningAt s i p) (hb : s.seq.deadline - s.time ≤ b) : DelayEndsWithin (b + 1) s := by
  induction b generalizing s with
  | zero => exact delayEndsWithin_of_expired hmicro hturns hoff hrun 0 (by omega)
  | succ b ih =>
    by_cases he : s.seq.deadline ≤ s.time
    · exact delayEndsWithin_of_expired hmicro hturns hoff hrun (b + 1) he
    · have hstep := step_delay hmicro hturns hoff hrun
      rw [expired_eq_false (by omega)] at hstep
      have hleft : (waits s).seq.deadline - (waits s).time ≤ b := by
        simp only [waits_fields, hruns, if_true]; omega
      obtain ⟨n, t, hn, ht, hc, hd, tm, fr, h, he⟩ := ih (s := waits s) hturns hruns hoff hrun hleft
      exact ⟨n + 1, t, by omega, (run_succ n hstep).trans ht, hc, hd, tm, fr, h, he⟩

/-- Settles O56: SEL's and DES's waits are both delay waits. -/
theorem delayWaitEnds : Obligations.DelayWaitEnds := by
  intro s id hturns hruns hoff hrun
  obtain hrun | hrun := hrun
  · exact delayEndsWithin (microOf_sel_wait id) _ hturns hruns hoff hrun le_rfl
  · exact delayEndsWithin (microOf_des_wait id) _ hturns hruns hoff hrun le_rfl

end Sys2Proof.Machine

/-! Memory (20_memory.md): the register-number map, the layout of the values it returns, and which
of their bits may read as unspecified. -/

namespace Sys2Proof.Machine

/-! ### The register map and the layout of its values (20_memory.md R56) -/

/-- The map gives each register's number its register. -/
theorem regOf_numOf (n : RegName) : regOf (numOf n) = some n := by
  cases n with
  | csout p => revert p; decide
  | word0 i => revert i; decide
  | seldly i => revert i; decide
  | desdly i => revert i; decide
  | _ => rfl

/-- A concatenation is the sum of its parts, the upper one shifted. -/
theorem toNat_append_eq_add {m n : Nat} (x : BitVec m) (y : BitVec n) :
    (x ++ y).toNat = x.toNat * 2 ^ n + y.toNat := by
  rw [BitVec.toNat_append, ← Nat.shiftLeft_add_eq_or_of_lt y.isLt, Nat.shiftLeft_eq]

theorem toNat_statByte (s : State) :
    (statByte s).toNat = 128 * s.statTc.toNat + s.statBusy.toNat := by
  simp only [statByte, toNat_append_eq_add, BitVec.toNat_ofBool, BitVec.toNat_ofNat]
  omega

theorem toNat_sessByte (s : State) :
    (sessByte s).toNat = 128 * s.sessSelv.toNat + 64 * s.sessInited.toNat + s.sessSelid.toNat := by
  simp only [sessByte, toNat_append_eq_add, BitVec.toNat_ofBool, BitVec.toNat_ofNat]
  omega

theorem toNat_slotWord0 (x : Slot) :
    (slotWord0 x).toNat = 32768 * x.valid.toNat + 256 * x.mode.toNat + x.line.toNat := by
  simp only [slotWord0, toNat_append_eq_add, BitVec.toNat_ofBool, BitVec.toNat_ofNat]
  omega

/-- CFG is the sum of its fields (10_state.md R15). -/
theorem toNat_cfg_fields (c : Byte) :
    c.toNat = 128 * (cfgEn c).toNat + 64 * (cfgMstr c).toNat + 32 * (cfgDbl c).toNat +
      4 * (cfgReserved c).toNat + (cfgMode c).toNat := by
  revert c
  decide +kernel

theorem toNat_busdir_fields (s : State) :
    s.busdir.toNat = 2 * (mosiOe s).toNat + (sckOe s).toNat := by
  have fields : ∀ d : BitVec 2, d.toNat = 2 * (d.getLsbD 1).toNat + (d.getLsbD 0).toNat := by decide
  exact fields s.busdir

/-- Settles O46: the map by `regOf_numOf`; a narrower register zero-extended keeps its value, which
is the sum of its fields. -/
theorem registerMapLayout : Obligations.RegisterMapLayout := by
  have zext {w : Nat} (hw : w ≤ 16) (b : BitVec w) : (b.setWidth 16).toNat = b.toNat :=
    BitVec.toNat_setWidth_of_le hw
  refine ⟨regOf_numOf .cfg, regOf_numOf .stat, regOf_numOf .data, regOf_numOf .busdir,
    regOf_numOf .sess, fun p => regOf_numOf (.csout p), regOf_numOf .dsLine, regOf_numOf .dsMode,
    regOf_numOf .dsSel, regOf_numOf .dsDes,
    fun i => ⟨regOf_numOf (.word0 i), regOf_numOf (.seldly i), regOf_numOf (.desdly i)⟩,
    fun s => ?_⟩
  exact ⟨zext (by decide) _, (zext (by decide) _).trans (toNat_cfg_fields s.cfg),
    (zext (by decide) _).trans (toNat_statByte s), zext (by decide) _, zext (by decide) _,
    (zext (by decide) _).trans (toNat_busdir_fields s),
    (zext (by decide) _).trans (toNat_sessByte s),
    fun _ => zext (by decide) _, zext (by decide) _, zext (by decide) _, rfl, rfl,
    fun i => ⟨toNat_slotWord0 _, rfl, rfl⟩⟩

/-! ### What a read may leave unspecified (20_memory.md R57) -/

/-- A read takes its unspecified bits from the draw and the others from the stored value. -/
theorem getLsbD_withFree (v u free : Half) (k : Nat) :
    (withFree v u free).getLsbD k = if u.getLsbD k then free.getLsbD k else v.getLsbD k := by
  cases hu : u.getLsbD k with
  | true => simp [withFree, hu]
  | false =>
    have hk : v.getLsbD k = true → k < 16 := BitVec.lt_of_getLsbD
    simpa [withFree, hu] using hk

/-- Bits that are stored as 0 and are not unspecified read as 0. -/
theorem withFree_and_eq_zero {v u m : Half} (free : Half) (hv : v &&& m = 0) (hu : u &&& m = 0) :
    withFree v u free &&& m = 0 := by
  refine BitVec.eq_of_getLsbD_eq fun k _ => ?_
  have hvk := congrArg (·.getLsbD k) hv
  have huk := congrArg (·.getLsbD k) hu
  simp only [BitVec.getLsbD_and, getLsbD_withFree] at hvk huk ⊢
  split
  · next h =>
    have hm : m.getLsbD k = false := by simpa [h] using huk
    simp [hm]
  · exact hvk

/-- A zero-extended byte has no bits in the upper half. -/
theorem setWidth_byte_and_high (b : Byte) : b.setWidth 16 &&& (0xFF00 : Half) = 0 := by
  revert b
  decide +kernel

/-- An empty slot's word 0 holds bits in the places of MODE and LINE only. -/
theorem slotWord0_and_of_empty {x : Slot} (h : x.valid = false) : slotWord0 x &&& 0xFCE0 = 0 := by
  have places : ∀ (m : BitVec 2) (l : Line),
      (BitVec.ofBool false ++ 0#5 ++ m ++ 0#3 ++ l) &&& 0xFCE0 = 0 := by decide +kernel
  rw [slotWord0, h, places]

/-- If some bit of CSOUT is unspecified, some pin of the port was never driven. -/
theorem exists_undriven_pin {known : Byte} (h : (~~~known).setWidth 16 ≠ (0 : Half)) :
    ∃ k, known.getLsbD k = false ∧ k < 8 := by
  by_contra hall
  have hknown : known = BitVec.allOnes 8 := BitVec.eq_of_getLsbD_eq fun k hk => by
    simp only [BitVec.getLsbD_allOnes, hk, decide_true]
    exact Bool.of_not_eq_false fun hf => hall ⟨k, hf, hk⟩
  exact h (by rw [hknown]; decide)

theorem regUnspecified_ne_zero {s : State} {n : RegName} (h : regUnspecified s n ≠ 0) :
    (n = .data ∧ s.dataKnown = false) ∨
    (∃ p, n = .csout p ∧ ∃ k, (portAt s.csKnown p).getLsbD k = false ∧ k < 8) ∨
    (∃ i, (n = .word0 i ∨ n = .seldly i ∨ n = .desdly i) ∧ (slotAt s.sdt i).valid = false) := by
  have unset {b : Bool} {u : Half} (h : (if b then 0 else u) ≠ 0) : b = false := by
    cases b with
    | false => rfl
    | true => exact absurd rfl h
  cases n with
  | data => exact .inl ⟨rfl, unset h⟩
  | csout p => exact .inr (.inl ⟨p, rfl, exists_undriven_pin h⟩)
  | word0 i => exact .inr (.inr ⟨i, .inl rfl, unset h⟩)
  | seldly i => exact .inr (.inr ⟨i, .inr (.inl rfl), unset h⟩)
  | desdly i => exact .inr (.inr ⟨i, .inr (.inr rfl), unset h⟩)
  | _ => exact absurd rfl h

theorem regRead_word0_of_empty {s : State} {i : BitVec 3} (h : (slotAt s.sdt i).valid = false) :
    regRead s (.word0 i) &&& 0xFCE0 = 0 :=
  withFree_and_eq_zero _ (slotWord0_and_of_empty h) (by simp [regUnspecified, h])

theorem regRead_csout_and_high (s : State) (p : BitVec 2) : regRead s (.csout p) &&& 0xFF00 = 0 :=
  withFree_and_eq_zero _ (setWidth_byte_and_high _) (setWidth_byte_and_high _)

theorem regRead_data_and_high (s : State) : regRead s .data &&& 0xFF00 = 0 :=
  withFree_and_eq_zero _ (setWidth_byte_and_high _)
    (by cases h : s.dataKnown <;> simp [regUnspecified, h])

/-- The bit of a line that a command has driven reads as its latch. -/
theorem regRead_csout_driven {s : State} {l : Line} (h : lineBit s.csKnown l = true) :
    (regRead s (.csout (linePort l))).getLsbD (linePin l).toNat = latch s l := by
  have hpin : (linePin l).toNat < 16 := by omega
  have hspec : (regUnspecified s (.csout (linePort l))).getLsbD (linePin l).toNat = false := by
    rw [lineBit] at h
    simp [regUnspecified, h]
  rw [regRead, getLsbD_withFree, hspec]
  simp [regStored, latch, lineBit, hpin]

/-- Settles O47: an upper bound by the cases of `regUnspecified`; the bits outside it read as
stored. -/
theorem unspecifiedBitsOnly : Obligations.UnspecifiedBitsOnly :=
  fun s => ⟨fun _ => regUnspecified_ne_zero, fun _ => regRead_word0_of_empty,
    regRead_csout_and_high s, regRead_data_and_high s, fun _ => regRead_csout_driven⟩

end Sys2Proof.Machine

/-! Encoding (30_encoding.md): the decoder inverts the encoder and reads nothing but its words, the
match and mask rows, the illegal words, and the assembler's delays. -/

namespace Sys2Proof

/-! ### Words from their fields (30_encoding.md R70 to R72) -/

/-- A word whose four bytes are known. -/
theorem wordOf_eq_of_fields {w : Word} {op hi a b : Byte} (hop : opField w = op)
    (hhi : hiField w = hi) (ha : aField w = a) (hb : bField w = b) : wordOf op hi a b = w := by
  rw [← hop, ← hhi, ← ha, ← hb, wordOf_fields]

/-- A format D word whose fields are known. -/
theorem wordOfD_eq_of_fields {w : Word} {f : Byte} {d : Half} (hop : opField w = 0x10)
    (hhi : hiField w = f) (hd : immField w = d) : wordOfD f d = w := by
  rw [← hhi, ← hd, wordOfD_fields w (by rw [hop]; rfl)]

/-- A value below `2 ^ n` is that of its lowest `n` bits. -/
theorem setWidth_setWidth_of_lt {m n : Nat} {x : BitVec m} (h : x.toNat < 2 ^ n) :
    (x.setWidth n).setWidth m = x := by
  apply BitVec.eq_of_toNat_eq
  rw [BitVec.toNat_setWidth, BitVec.toNat_setWidth, Nat.mod_eq_of_lt h, Nat.mod_eq_of_lt x.isLt]

/-- A byte below 2 is its lowest bit. -/
theorem ofBool_getLsbD_zero {b : Byte} (h : b.toNat < 2) :
    (BitVec.ofBool (b.getLsbD 0)).setWidth 8 = b := by
  revert b
  decide +kernel

theorem encode_init_of_fields {w : Word} (hop : opField w = 0x01) (hhi : hiField w = 0)
    (ha : aField w = 0) (hb : (bField w).toNat < 2) :
    encode (.init ((bField w).getLsbD 0)) = w :=
  wordOf_eq_of_fields hop hhi ha (ofBool_getLsbD_zero hb).symm

theorem encode_lddLine_of_fields {w : Word} (hop : opField w = 0x10) (hhi : hiField w = 0)
    (hd : (immField w).toNat < 32) : encode (.lddLine ((immField w).setWidth 5)) = w :=
  wordOfD_eq_of_fields hop hhi (setWidth_setWidth_of_lt hd).symm

theorem encode_lddMode_of_fields {w : Word} (hop : opField w = 0x10) (hhi : hiField w = 1)
    (hd : (immField w).toNat < 4) : encode (.lddMode ((immField w).setWidth 2)) = w :=
  wordOfD_eq_of_fields hop hhi (setWidth_setWidth_of_lt hd).symm

/-! ### Decoding inverts encoding (30_encoding.md R73, R79, R80) -/

/-- Settles O2: the decoder reads back each byte the encoder wrote. -/
theorem decodeOfEncode : Obligations.DecodeOfEncode := by
  unfold Obligations.DecodeOfEncode
  intro i
  cases i with
  | init dbl => revert dbl; decide
  | lddLine line => revert line; decide
  | lddMode mode => revert mode; decide
  | lddSeld d => simp [encode, decode, decodeD]
  | lddDesd d => simp [encode, decode, decodeD]
  | rd => rfl
  | wrb base len => simp [encode, decode, decodeB]
  | rdb base len => simp [encode, decode, decodeB]
  | stb addr byte => simp [encode, decode, decodeB]
  | _ => simp [encode, decode, decodeI]

/-- A guarded success is the command it guards, and the guard holds. -/
theorem of_ite_ok {c : Prop} [Decidable c] {i j : Instr} {e : DecodeError}
    (h : (if c then .ok i else .error e : Except DecodeError Instr) = .ok j) : c ∧ i = j := by
  split at h
  · next hc => exact ⟨hc, Except.ok.inj h⟩
  · cases h

/-- Format I: what decodes has the encoder's word if the operand's byte is kept. -/
theorem encode_of_decodeI (op : Byte) {w : Word} {i j : Instr} (hop : (opField w).toNat = op.toNat)
    (hi : encode i = wordOf op 0 0 (bField w)) (h : decodeI w i = .ok j) : encode j = w := by
  obtain ⟨⟨hhi, ha⟩, rfl⟩ := of_ite_ok h
  exact hi.trans (wordOf_eq_of_fields (BitVec.eq_of_toNat_eq hop) hhi ha rfl)

/-- Format B, with both operand bytes kept. -/
theorem encode_of_decodeB (op : Byte) {w : Word} {i j : Instr} (hop : (opField w).toNat = op.toNat)
    (hi : encode i = wordOf op 0 (aField w) (bField w)) (h : decodeB w i = .ok j) :
    encode j = w := by
  obtain ⟨hhi, rfl⟩ := of_ite_ok h
  exact hi.trans (wordOf_eq_of_fields (BitVec.eq_of_toNat_eq hop) hhi rfl rfl)

/-- Format Z, which has no operand. -/
theorem encode_of_decodeZ (op : Byte) {w : Word} {i j : Instr} (hop : (opField w).toNat = op.toNat)
    (hi : encode i = wordOf op 0 0 0) (h : decodeZ w i = .ok j) : encode j = w := by
  obtain ⟨⟨hhi, ha, hb⟩, rfl⟩ := of_ite_ok h
  exact hi.trans (wordOf_eq_of_fields (BitVec.eq_of_toNat_eq hop) hhi ha hb)

theorem encode_of_decode_init {w : Word} {j : Instr} (hop : opField w = 0x01)
    (hb : (bField w).toNat < 2) (h : decodeI w (.init ((bField w).getLsbD 0)) = .ok j) :
    encode j = w := by
  obtain ⟨⟨hhi, ha⟩, rfl⟩ := of_ite_ok h
  exact encode_init_of_fields hop hhi ha hb

/-- Format D: `fsel` chooses the field, and no bit of the immediate is lost. -/
theorem encode_of_decodeD {w : Word} {j : Instr} (hop : opField w = 0x10)
    (h : decodeD w = .ok j) : encode j = w := by
  unfold decodeD at h
  split at h
  · next hf =>
    obtain ⟨hd, rfl⟩ := of_ite_ok h
    exact encode_lddLine_of_fields hop (BitVec.eq_of_toNat_eq hf) hd
  · next hf =>
    obtain ⟨hd, rfl⟩ := of_ite_ok h
    exact encode_lddMode_of_fields hop (BitVec.eq_of_toNat_eq hf) hd
  · next hf =>
    cases h
    exact wordOfD_eq_of_fields hop (BitVec.eq_of_toNat_eq hf) rfl
  · next hf =>
    cases h
    exact wordOfD_eq_of_fields hop (BitVec.eq_of_toNat_eq hf) rfl
  · cases h

/-- Settles O3: for each opcode, the fields that decoding reads or checks make up the whole word. -/
theorem encodeOfDecode : Obligations.EncodeOfDecode := by
  unfold Obligations.EncodeOfDecode
  intro w i h
  unfold decode at h
  split at h
  · next hop =>
    split at h
    · next hb => exact encode_of_decode_init (BitVec.eq_of_toNat_eq hop) hb h
    · cases h
  · next hop => exact encode_of_decodeI 0x02 hop rfl h
  · next hop => exact encode_of_decodeI 0x03 hop rfl h
  · next hop => exact encode_of_decodeI 0x04 hop rfl h
  · next hop => exact encode_of_decodeI 0x05 hop rfl h
  · next hop => exact encode_of_decodeB 0x06 hop rfl h
  · next hop => exact encode_of_decodeZ 0x07 hop rfl h
  · next hop => exact encode_of_decodeB 0x08 hop rfl h
  · next hop => exact encode_of_decodeD (BitVec.eq_of_toNat_eq hop) h
  · next hop => exact encode_of_decodeB 0x11 hop rfl h
  · next hop => exact encode_of_decodeI 0x12 hop rfl h
  · next hop => exact encode_of_decodeI 0x13 hop rfl h
  · cases h

/-- Settles O1: ten of the words are the encoder's. -/
theorem specWordsDecode : Obligations.SpecWordsDecode :=
  ⟨decodeOfEncode (.init true), decodeOfEncode (.reg 8), decodeOfEncode (.sel 255),
    decodeOfEncode (.wr 0xA5), decodeOfEncode (.wrb 0x10 3), decodeOfEncode (.rdb 0xFE 3),
    decodeOfEncode (.lddLine 10), decodeOfEncode (.lddMode 3), decodeOfEncode (.stb 0x10 0x0A),
    decodeOfEncode (.rdr 0x04), rfl, rfl, rfl, rfl, rfl⟩

/-! ### Match and mask (30_encoding.md R74) -/

/-- Every mask keeps the two upper bytes. -/
theorem and_mask_eq_iff (w : Word) (m n op hi a b : Byte) :
    w &&& wordOf 0xFF 0xFF m n = wordOf op hi a b ↔
      opField w = op ∧ hiField w = hi ∧ aField w &&& m = a ∧ bField w &&& n = b := by
  have keeps (x : Byte) : x &&& 0xFF = x := BitVec.and_allOnes
  rw [← wordOf_inj, ← keeps (opField w), ← keeps (hiField w), ← wordOf_and, wordOf_fields]

theorem and_maskI_eq_iff (w : Word) (op : Byte) :
    w &&& 0xFFFFFF00 = wordOf op 0 0 0 ↔ opField w = op ∧ hiField w = 0 ∧ aField w = 0 := by
  rw [show (0xFFFFFF00 : Word) = wordOf 0xFF 0xFF 0xFF 0 from rfl, and_mask_eq_iff,
    show aField w &&& 0xFF = aField w from BitVec.and_allOnes]
  simp

theorem and_maskB_eq_iff (w : Word) (op hi : Byte) :
    w &&& 0xFFFF0000 = wordOf op hi 0 0 ↔ opField w = op ∧ hiField w = hi := by
  rw [show (0xFFFF0000 : Word) = wordOf 0xFF 0xFF 0 0 from rfl, and_mask_eq_iff]
  simp

theorem toNat_immField_eq (w : Word) :
    (immField w).toNat = (aField w).toNat * 2 ^ 8 + (bField w).toNat := by
  rw [toNat_immField, toNat_aField, toNat_bField]
  omega

/-- A command's word has the bits of the command's row. -/
theorem encode_and_maskBits (i : Instr) : encode i &&& i.maskBits = i.matchBits := by
  have rowI (op b : Byte) : wordOf op 0 0 b &&& 0xFFFFFF00 = wordOf op 0 0 0 :=
    (and_maskI_eq_iff _ _).2 (by simp)
  have rowB (op a b : Byte) : wordOf op 0 a b &&& 0xFFFF0000 = wordOf op 0 0 0 :=
    (and_maskB_eq_iff _ _ _).2 (by simp)
  have rowD (f : Byte) (d : Half) : wordOfD f d &&& 0xFFFF0000 = wordOf 0x10 f 0 0 :=
    (and_maskB_eq_iff _ _ _).2 (by simp)
  cases i with
  | init dbl => revert dbl; decide
  | reg id => exact rowI 0x02 id
  | sel id => exact rowI 0x03 id
  | des id => exact rowI 0x04 id
  | wr byte => exact rowI 0x05 byte
  | wrb base len => exact rowB 0x06 base len
  | rd => rfl
  | rdb base len => exact rowB 0x08 base len
  | lddLine line => revert line; decide
  | lddMode mode => revert mode; decide
  | lddSeld d => exact rowD 2 d
  | lddDesd d => exact rowD 3 d
  | stb addr byte => exact rowB 0x11 addr byte
  | ldb addr => exact rowI 0x12 addr
  | rdr r => exact rowI 0x13 r

/-- A word with the bits of a command's row is the word of a command of that row. -/
theorem exists_encode_of_and_maskBits {w : Word} {i : Instr} (h : w &&& i.maskBits = i.matchBits) :
    ∃ j, encode j = w ∧ j.matchBits = i.matchBits := by
  have rowI (op : Byte) (h : w &&& 0xFFFFFF00 = wordOf op 0 0 0) :
      wordOf op 0 0 (bField w) = w := by
    obtain ⟨hop, hhi, ha⟩ := (and_maskI_eq_iff _ _).1 h
    exact wordOf_eq_of_fields hop hhi ha rfl
  have rowB (op : Byte) (h : w &&& 0xFFFF0000 = wordOf op 0 0 0) :
      wordOf op 0 (aField w) (bField w) = w := by
    obtain ⟨hop, hhi⟩ := (and_maskB_eq_iff _ _ _).1 h
    exact wordOf_eq_of_fields hop hhi rfl rfl
  have rowD (f : Byte) (h : w &&& 0xFFFF0000 = wordOf 0x10 f 0 0) :
      wordOfD f (immField w) = w := by
    obtain ⟨hop, hhi⟩ := (and_maskB_eq_iff _ _ _).1 h
    exact wordOfD_eq_of_fields hop hhi rfl
  have zero_of_and {x : Byte} (hx : x &&& 0xFF = 0) : x = 0 := BitVec.and_allOnes.symm.trans hx
  have lt2 : ∀ x : Byte, x &&& 0xFE = 0 → x.toNat < 2 := by decide +kernel
  have lt32 : ∀ x : Byte, x &&& 0xE0 = 0 → x.toNat < 32 := by decide +kernel
  have lt4 : ∀ x : Byte, x &&& 0xFC = 0 → x.toNat < 4 := by decide +kernel
  have imm (ha : aField w &&& 0xFF = 0) : (immField w).toNat = (bField w).toNat := by
    simp [toNat_immField_eq, zero_of_and ha]
  cases i with
  | init dbl =>
    obtain ⟨hop, hhi, ha, hb⟩ := (and_mask_eq_iff w 0xFF 0xFE 0x01 0 0 0).1 h
    exact ⟨_, encode_init_of_fields hop hhi (zero_of_and ha) (lt2 _ hb), rfl⟩
  | reg id => exact ⟨.reg (bField w), rowI 0x02 h, rfl⟩
  | sel id => exact ⟨.sel (bField w), rowI 0x03 h, rfl⟩
  | des id => exact ⟨.des (bField w), rowI 0x04 h, rfl⟩
  | wr byte => exact ⟨.wr (bField w), rowI 0x05 h, rfl⟩
  | wrb base len => exact ⟨.wrb (aField w) (bField w), rowB 0x06 h, rfl⟩
  | rd => exact ⟨.rd, h.symm.trans BitVec.and_allOnes, rfl⟩
  | rdb base len => exact ⟨.rdb (aField w) (bField w), rowB 0x08 h, rfl⟩
  | lddLine line =>
    obtain ⟨hop, hhi, ha, hb⟩ := (and_mask_eq_iff w 0xFF 0xE0 0x10 0 0 0).1 h
    exact ⟨_, encode_lddLine_of_fields hop hhi (imm ha ▸ lt32 _ hb), rfl⟩
  | lddMode mode =>
    obtain ⟨hop, hhi, ha, hb⟩ := (and_mask_eq_iff w 0xFF 0xFC 0x10 1 0 0).1 h
    exact ⟨_, encode_lddMode_of_fields hop hhi (imm ha ▸ lt4 _ hb), rfl⟩
  | lddSeld d => exact ⟨.lddSeld (immField w), rowD 2 h, rfl⟩
  | lddDesd d => exact ⟨.lddDesd (immField w), rowD 3 h, rfl⟩
  | stb addr byte => exact ⟨.stb (aField w) (bField w), rowB 0x11 h, rfl⟩
  | ldb addr => exact ⟨.ldb (bField w), rowI 0x12 h, rfl⟩
  | rdr r => exact ⟨.rdr (bField w), rowI 0x13 h, rfl⟩

/-- The table's rows are those of one command of each kind. -/
theorem opcodeRows_eq_map : opcodeRows =
    [Instr.init false, .reg 0, .sel 0, .des 0, .wr 0, .wrb 0 0, .rd, .rdb 0 0, .lddLine 0,
      .lddMode 0, .lddSeld 0, .lddDesd 0, .stb 0 0, .ldb 0, .rdr 0].map
      fun i => (i.matchBits, i.maskBits) := rfl

theorem row_mem_opcodeRows (i : Instr) : (i.matchBits, i.maskBits) ∈ opcodeRows := by
  cases i <;> simp [opcodeRows, Instr.matchBits, Instr.maskBits]

theorem exists_instr_of_mem_opcodeRows {r : Word × Word} (h : r ∈ opcodeRows) :
    ∃ i : Instr, r = (i.matchBits, i.maskBits) := by
  rw [opcodeRows_eq_map] at h
  obtain ⟨i, -, hi⟩ := List.mem_map.1 h
  exact ⟨i, hi.symm⟩

/-- No two rows of the table have the same match. -/
theorem opcodeRows_match_injective {r r' : Word × Word} (hr : r ∈ opcodeRows)
    (hr' : r' ∈ opcodeRows) (h : r.1 = r'.1) : r = r' := by
  have hnodup : (opcodeRows.map Prod.fst).Nodup := by decide
  exact List.inj_on_of_nodup_map hnodup hr hr' h

/-- A word is in a command's row exactly when it decodes to a command of that row. -/
theorem and_maskBits_iff_decode (w : Word) (i : Instr) : w &&& i.maskBits = i.matchBits ↔
    ∃ j, decode w = .ok j ∧ j.matchBits = i.matchBits := by
  constructor
  · intro h
    obtain ⟨j, rfl, hm⟩ := exists_encode_of_and_maskBits h
    exact ⟨j, decodeOfEncode j, hm⟩
  · rintro ⟨j, hd, hm⟩
    have hrow : (j.matchBits, j.maskBits) = (i.matchBits, i.maskBits) :=
      opcodeRows_match_injective (row_mem_opcodeRows j) (row_mem_opcodeRows i) hm
    obtain ⟨-, hmask⟩ := Prod.mk.inj hrow
    rw [← encodeOfDecode w j hd, ← hm, ← hmask, encode_and_maskBits]

/-- Settles O4: a word that matches two rows decodes to one command, which is of both. -/
theorem decodeFollowsMatchAndMask : Obligations.DecodeFollowsMatchAndMask := by
  refine ⟨row_mem_opcodeRows, and_maskBits_iff_decode, fun w r r' hr hr' h h' => ?_⟩
  obtain ⟨i, rfl⟩ := exists_instr_of_mem_opcodeRows hr
  obtain ⟨i', rfl⟩ := exists_instr_of_mem_opcodeRows hr'
  obtain ⟨j, hj, hm⟩ := (and_maskBits_iff_decode w i).1 h
  obtain ⟨j', hj', hm'⟩ := (and_maskBits_iff_decode w i').1 h'
  have hjj : j = j' := Except.ok.inj (hj.symm.trans hj')
  exact opcodeRows_match_injective hr hr' (by rw [← hm, ← hm', hjj])

/-! ### Illegal words (30_encoding.md R75, R76) -/

theorem opField_encode : ∀ i, opField (encode i) = i.opcode
  | .init dbl => Laws.OpcodeField.init dbl
  | .reg id => Laws.OpcodeField.reg id
  | .sel id => Laws.OpcodeField.sel id
  | .des id => Laws.OpcodeField.des id
  | .wr byte => Laws.OpcodeField.wr byte
  | .wrb base len => Laws.OpcodeField.wrb base len
  | .rd => Laws.OpcodeField.rd
  | .rdb base len => Laws.OpcodeField.rdb base len
  | .lddLine line => Laws.OpcodeField.lddLine line
  | .lddMode mode => Laws.OpcodeField.lddMode mode
  | .lddSeld d => Laws.OpcodeField.lddSeld d
  | .lddDesd d => Laws.OpcodeField.lddDesd d
  | .stb addr byte => Laws.OpcodeField.stb addr byte
  | .ldb addr => Laws.OpcodeField.ldb addr
  | .rdr r => Laws.OpcodeField.rdr r

/-- A word that is no command's does not decode; were it one, it would have that one's opcode. -/
theorem exists_error_of_ne_encode {w : Word}
    (h : ∀ i, w = encode i → i.opcode = opField w → False) : ∃ e, decode w = .error e := by
  cases hd : decode w with
  | error e => exact ⟨e, rfl⟩
  | ok i =>
    have hw : w = encode i := (encodeOfDecode w i hd).symm
    exact (h i hw (by rw [hw, opField_encode])).elim

theorem opcode_not_reserved (i : Instr) : ¬ (i.opcode.toNat = 0 ∨
    (9 ≤ i.opcode.toNat ∧ i.opcode.toNat ≤ 0x0F) ∨ 0x14 ≤ i.opcode.toNat) := by
  cases i <;> simp [Instr.opcode]

/-- Outside format D bits 23:16 are zero. -/
theorem hiField_encode {i : Instr} (h : i.opcode ≠ 0x10) : hiField (encode i) = 0 := by
  cases i with
  | lddLine | lddMode | lddSeld | lddDesd => exact absurd rfl h
  | _ => simp [encode]

theorem aField_encode {i : Instr}
    (h : i.opcode.toNat ∈ [0x01, 0x02, 0x03, 0x04, 0x05, 0x07, 0x12, 0x13]) :
    aField (encode i) = 0 := by
  cases i with
  | lddLine | lddMode | lddSeld | lddDesd | wrb | rdb | stb => simp [Instr.opcode] at h
  | _ => simp [encode]

/-- A format D word has one of the four values of `fsel`. -/
theorem hiField_encode_lt {i : Instr} (h : i.opcode = 0x10) : (hiField (encode i)).toNat < 4 := by
  cases i with
  | lddLine | lddMode | lddSeld | lddDesd => simp [encode]
  | _ => simp [Instr.opcode] at h

theorem bField_encode_rd {i : Instr} (h : i.opcode = 0x07) : bField (encode i) = 0 := by
  cases i with
  | rd => rfl
  | _ => simp [Instr.opcode] at h

/-- INIT's operand is bit 0 only. -/
theorem encode_init_bits {i : Instr} (h : i.opcode = 0x01) : (encode i).extractLsb' 1 7 = 0 := by
  cases i with
  | init dbl => revert dbl; decide
  | _ => simp [Instr.opcode] at h

/-- LDD.LINE's operand is bits 4:0 only. -/
theorem encode_lddLine_bits {i : Instr} (h : i.opcode = 0x10) (hf : hiField (encode i) = 0) :
    (encode i).extractLsb' 5 11 = 0 := by
  cases i with
  | lddLine line => revert line; decide
  | lddMode | lddSeld | lddDesd => simp [encode] at hf
  | _ => simp [Instr.opcode] at h

/-- LDD.MODE's operand is bits 1:0 only. -/
theorem encode_lddMode_bits {i : Instr} (h : i.opcode = 0x10) (hf : hiField (encode i) = 1) :
    (encode i).extractLsb' 2 14 = 0 := by
  cases i with
  | lddMode mode => revert mode; decide
  | lddLine | lddSeld | lddDesd => simp [encode] at hf
  | _ => simp [Instr.opcode] at h

/-- Bits 23:8 are the two middle bytes. -/
theorem extract_middle (w : Word) : w.extractLsb' 8 16 = hiField w ++ aField w :=
  (BitVec.extractLsb'_append_extractLsb'_eq_extractLsb' (start₁ := 8) (len₁ := 8) (start₂ := 16)
    (len₂ := 8) rfl).symm

/-- A word in no row of the table does not decode. -/
theorem exists_error_of_no_row {w : Word} (h : ∀ r ∈ opcodeRows, w &&& r.2 ≠ r.1) :
    ∃ e, decode w = .error e :=
  exists_error_of_ne_encode fun i hw _ =>
    h _ (row_mem_opcodeRows i) (hw ▸ encode_and_maskBits i)

/-- Formats I and Z: bits 23:8 must be zero. -/
theorem exists_error_of_middle {w : Word}
    (hop : (opField w).toNat ∈ [0x01, 0x02, 0x03, 0x04, 0x05, 0x07, 0x12, 0x13])
    (h : w.extractLsb' 8 16 ≠ 0) : ∃ e, decode w = .error e := by
  refine exists_error_of_ne_encode fun i hw hi => h ?_
  rw [← hi] at hop
  have hd : i.opcode ≠ 0x10 := fun he => by simp [he] at hop
  rw [extract_middle, hw, hiField_encode hd, aField_encode hop]
  rfl

/-- Format B: bits 23:16 must be zero. -/
theorem exists_error_of_upper {w : Word} (hop : (opField w).toNat ∈ [0x06, 0x08, 0x11])
    (h : hiField w ≠ 0) : ∃ e, decode w = .error e := by
  refine exists_error_of_ne_encode fun i hw hi => h ?_
  rw [hw, hiField_encode fun he => ?_]
  simp [← hi, he] at hop

namespace Machine

theorem acceptWord_illegal {w : Word} {e : DecodeError} (s : State) (hd : decode w = .error e) :
    acceptWord w s = .next (raise .illegalCommand w (record (.accept w s.time) s)) := by
  simp [acceptWord, hd]

/-- The ready block's step on an illegal word is the fault entry (60_exceptions.md R151). -/
theorem step_illegal {s : State} {w : Word} {rest : List Word} {e : DecodeError}
    (hb : blockTurn s) (hr : ready s = true) (hh : s.host = w :: rest)
    (hd : decode w = .error e) : step s = .next { s with
      turns := s.turns.tail, host := rest, fcause := 1, fcmd := w
      hist := s.hist ++ [.accept w s.time, .faultEv .illegalCommand w s.time] } := by
  obtain ⟨hc, hf⟩ := (ready_iff s).1 hr
  rw [step_block hb, blockStep_idle (s := turnTaken s) hf hc]
  simp only [hostStep, turnTaken_fields, hh]
  rw [acceptWord_illegal _ hd]
  simp [raise, record, causeCode]

end Machine

/-- Settles O5: no command's word is in any of the listed sets, and the fault is `step_illegal`. -/
theorem illegalWordsFault : Obligations.IllegalWordsFault := by
  refine ⟨fun _ => exists_error_of_no_row, fun _ _ _ _ => Machine.step_illegal,
    fun w h => exists_error_of_ne_encode fun i _ hi => opcode_not_reserved i (hi ▸ h),
    fun w hop h => exists_error_of_ne_encode fun i hw hi => ?_,
    ⟨_, rfl⟩, ⟨_, rfl⟩, fun _ => exists_error_of_middle,
    fun w hop h => exists_error_of_ne_encode fun i hw hi => h ?_,
    fun _ => exists_error_of_upper,
    fun w hop h => exists_error_of_ne_encode fun i hw hi => h ?_,
    fun w hop hf h => exists_error_of_ne_encode fun i hw hi => h ?_,
    fun w hop hf h => exists_error_of_ne_encode fun i hw hi => h ?_⟩
  · exact absurd (hw ▸ hiField_encode_lt (hi.trans hop)) (Nat.not_lt.2 h)
  · exact hw ▸ bField_encode_rd (hi.trans hop)
  · exact hw ▸ encode_init_bits (hi.trans hop)
  · exact hw ▸ encode_lddLine_bits (hi.trans hop) (hw ▸ hf)
  · exact hw ▸ encode_lddMode_bits (hi.trans hop) (hw ▸ hf)

namespace Machine

/-! ### Delays in a listing (30_encoding.md R82) -/

/-- The delay of a time is the quotient rounded up, where 16 bits hold it. -/
theorem delayOfMicros_eq {num den : Nat} (h : den ≠ 0) : delayOfMicros num den =
    if (num * 16) ⌈/⌉ den < 65536 then some (BitVec.ofNat 16 ((num * 16) ⌈/⌉ den)) else none :=
  if_neg h

theorem delayOfMicros_eq_some_iff {num den : Nat} (h : den ≠ 0) (d : Half) :
    delayOfMicros num den = some d ↔ d.toNat = (num * 16) ⌈/⌉ den := by
  rw [delayOfMicros_eq h]
  split
  · next hlt => rw [Option.some.injEq, ← BitVec.toNat_inj, BitVec.toNat_ofNat,
      Nat.mod_eq_of_lt hlt, eq_comm]
  · next hge => simp only [reduceCtorEq, false_iff]; omega

theorem delayOfMicros_eq_none_iff {num den : Nat} (h : den ≠ 0) :
    delayOfMicros num den = none ↔ 65535 < (num * 16) ⌈/⌉ den := by
  rw [delayOfMicros_eq h, ite_eq_right_iff]
  simp only [reduceCtorEq, imp_false]
  omega

/-- The quotient rounded up is the least number of units that is no shorter. -/
theorem eq_ceilDiv_iff {a b d : Nat} (hb : 0 < b) :
    d = a ⌈/⌉ b ↔ a ≤ d * b ∧ ∀ e, a ≤ e * b → d ≤ e := by
  have least (e : Nat) : a ⌈/⌉ b ≤ e ↔ a ≤ e * b := by
    rw [ceilDiv_le_iff_le_mul hb, Nat.mul_comm]
  simp only [← least]
  exact ⟨fun h => h ▸ ⟨le_rfl, fun _ => id⟩, fun ⟨hle, hmin⟩ => (hmin _ le_rfl).antisymm hle⟩

/-- Settles O60: the assembled delay is the quotient rounded up, and 65535 is the greatest. -/
theorem delaysRoundUp : Obligations.DelaysRoundUp := by
  intro num den h
  have hpos : 0 < den := Nat.pos_of_ne_zero h
  refine ⟨fun d => ?_, ?_⟩
  · rw [delayOfMicros_eq_some_iff h, eq_ceilDiv_iff hpos]
  · rw [delayOfMicros_eq_none_iff h, ← not_le, ceilDiv_le_iff_le_mul hpos, Nat.mul_comm den, not_le]

end Machine

end Sys2Proof

/-! A command from its acceptance to its completion: the first two steps of any command, and INIT's. -/

namespace Sys2Proof.Machine

/-! ### A command's acceptance and its first micro-step (10_state.md R34, R37) -/

theorem accept_of_check_none {i : Instr} {check : State → Option Cause} {s : State}
    (hk : check s = none) : accept i check s = start i s := by
  simp [accept, hk]

/-- A command whose checks pass starts at a ready block. -/
theorem exec_ready_start {i : Instr} {s : State} (h : ready s = true) (hk : checkOf i s = none) :
    exec i s = .next (start i s) := by
  rw [exec_ready h, accept_of_check_none hk]

/-- The step after the start is the micro-step of phase 1. -/
theorem exec_start {i : Instr} {s : State} (h : ready s = true) :
    exec i (start i s) = .next (microOf i 1 (start i s)) :=
  exec_running (start_running i h)

/-! ### INIT (40_init.md R90) -/

/-- Settles O34: INIT's check passes; its one micro-step writes `cfgInit`, whose fields are those of
`cfgInit_fields`, and completes. -/
theorem initCompletes : Obligations.InitCompletes := by
  intro d s hready hinit
  obtain ⟨hen, hmstr, hdbl, hmode, hreserved⟩ := cfgInit_fields s.cfg d
  refine ⟨exec_ready_start hready (initCheck_eq_none.2 hinit),
    cfgInit s.cfg d, hen, hmstr, hdbl, hmode, hreserved, ?_⟩
  calc exec (.init d) (start (.init d) s)
      = .next (microOf (.init d) 1 (start (.init d) s)) := exec_start hready
    _ = .next (done (.init d) (initWrites d (start (.init d) s))) := rfl
    _ = _ := rfl

end Sys2Proof.Machine

/-! The registry (41_registry.md): the staging commands and REG, from acceptance to completion. -/

namespace Sys2Proof.Machine

/-! ### REG (41_registry.md R104) -/

/-- REG's phase 1, from the start of the command: the staged descriptor in the slot it names. -/
def slotCopied (id : Byte) (s : State) : State :=
  goto 2 { start (.reg id) s with sdt := setSlot s.sdt (slotIx id) (stagedSlot s) }

theorem exec_reg_copy {id : Byte} {s : State} (h : ready s = true) :
    exec (.reg id) (start (.reg id) s) = .next (slotCopied id s) :=
  exec_start h

theorem slotCopied_running {id : Byte} {s : State} (h : ready s = true) :
    runningAt (slotCopied id s) (.reg id) 2 :=
  ⟨((ready_iff s).1 h).2, rfl, rfl⟩

/-- The line that REG's phase 2 drives is the staged one, since phase 1 has copied it to the slot. -/
theorem exec_reg_drive {id : Byte} {s : State} (h : ready s = true) :
    exec (.reg id) (slotCopied id s) =
      .next (done (.reg id) (drivePin s.dsLine true (slotCopied id s))) := by
  have hline : (slotAt (slotCopied id s).sdt (slotIx id)).line = s.dsLine :=
    congrArg Slot.line (slotAt_setSlot_same s.sdt (slotIx id) (stagedSlot s))
  rw [exec_running (slotCopied_running h), ← hline]
  rfl

/-- Settles O36: the table is `setSlot`'s, the latches and their marks are `setLineBit`'s, and the two
micro-steps after the start are `exec_reg_copy` and `exec_reg_drive`. -/
theorem registerCompletes : Obligations.RegisterCompletes := by
  intro id s hready hinit hid hsel
  refine ⟨exec_ready_start hready (regCheck_eq_none.2 ⟨hinit, hid, hsel⟩),
    setSlot s.sdt (slotIx id) (stagedSlot s), setLineBit s.csout s.dsLine true,
    setLineBit s.csKnown s.dsLine true, ?slot, ?otherSlots, ?latches, ?marks, ?copy, ?drive⟩
  case slot => exact slotAt_setSlot_same _ _ _
  case otherSlots => exact fun j hj => slotAt_setSlot_other _ _ j _ hj
  case latches => exact fun l => lineBit_setLineBit _ _ l true
  case marks => exact fun l => lineBit_setLineBit _ _ l true
  case copy => exact exec_reg_copy hready
  case drive =>
    rw [List.append_cons]
    exact exec_reg_drive hready

/-! ### The staging commands (41_registry.md R100 to R103) -/

/-- A command with no failing check and one atomic step starts, and that step completes it. -/
theorem onePhase_completes {i : Instr} {write : State → State} {s : State} (h : ready s = true)
    (hk : checkOf i s = none) (hm : microOf i = onePhase fun s => done i (write s)) :
    exec i s = .next (start i s) ∧
      exec i (start i s) = .next (done i (write (start i s))) :=
  ⟨exec_ready_start h hk, by rw [exec_start h, hm]; rfl⟩

/-- Settles O35: each command makes no check, and its one step writes its own staging register. -/
theorem loadDescriptorCompletes : Obligations.LoadDescriptorCompletes := by
  intro s hready
  refine ⟨fun l => ?line, fun m => ?mode, fun d => ?seld, fun d => ?desd⟩
  case line => exact onePhase_completes (write := fun s => { s with dsLine := l }) hready rfl rfl
  case mode => exact onePhase_completes (write := fun s => { s with dsMode := m }) hready rfl rfl
  case seld => exact onePhase_completes (write := fun s => { s with dsSel := d }) hready rfl rfl
  case desd => exact onePhase_completes (write := fun s => { s with dsDes := d }) hready rfl rfl

end Sys2Proof.Machine

/-! Selection and deselection (42_select_deselect.md): SEL and DES phase by phase, and the lower
bounds of their delays. -/

namespace Sys2Proof.Machine

/-! ### The delay wait of SEL and of DES (10_state.md R41) -/

theorem expired_iff (s : State) : expired s = true ↔ s.seq.deadline ≤ s.time := by
  simp [expired]

section DelayWait

variable {i : Instr} {p : Nat}
  (hmicro : ∀ s, microOf i p s = if expired s then done i s else waits s)
  {s : State} (hrun : runningAt s i p)
include hmicro hrun

theorem exec_delay : exec i s = .next (if expired s then done i s else waits s) := by
  rw [exec_running hrun, hmicro]

/-- The wait completes at or after the deadline, and before it only passes time. -/
theorem exec_delay_done_or_waits :
    (s.seq.deadline ≤ s.time → exec i s = .next (done i s)) ∧
      (s.time < s.seq.deadline → ∃ t, exec i s = .next t ∧ passesTime s t) := by
  rw [exec_delay hmicro hrun]
  refine ⟨fun hd => ?_, fun hd => ⟨waits s, ?_, waits_passesTime s⟩⟩
  · rw [if_pos ((expired_iff s).2 hd)]
  · rw [expired_eq_false hd]; rfl

/-- A wait that has completed had reached its deadline, since before it the command stays in the
sequencer. -/
theorem deadline_le_of_delay_done {t : State} (h : exec i s = .next t) (ht : t.seq.cmd = none) :
    s.seq.deadline ≤ t.time := by
  rw [exec_delay hmicro hrun] at h
  obtain ⟨-, hc, -⟩ := hrun
  injection h with h
  subst h
  by_cases he : expired s = true
  · rw [if_pos he]; exact (expired_iff s).1 he
  · rw [if_neg he] at ht
    cases hc.symm.trans ht

end DelayWait

/-! ### SEL and DES phase by phase (42_select_deselect.md R110, R113) -/

/-- Settles O37: the mode is `cfgSetMode`'s, the latches and their marks are `setLineBit`'s, and the
last phase is a delay wait. -/
theorem selectCompletes : Obligations.SelectCompletes := by
  refine ⟨fun id s hready hinit hid hvalid hsel => ?start, fun id s hrun => ?mode,
    fun id s hrun => ?fall, fun id s hrun => ?wait⟩
  case start => exact exec_ready_start hready (selCheck_eq_none.2 ⟨hinit, hid, hvalid, hsel⟩)
  case mode =>
    obtain ⟨-, -, -, hmode, -⟩ := cfgSetMode_fields s.cfg (slotAt s.sdt (slotIx id)).mode
    exact ⟨_, hmode, BitVec.extractLsb'_append_eq_left, exec_running hrun⟩
  case fall =>
    exact ⟨_, _, fun l => lineBit_setLineBit _ _ l false, fun l => lineBit_setLineBit _ _ l true,
      exec_running hrun⟩
  case wait => exact exec_delay_done_or_waits (microOf_sel_wait id) hrun

/-- Settles O38: an id that is the selected one is in range, so DES's checks pass; the latches and
their marks are `setLineBit`'s, and the last phase is a delay wait. -/
theorem deselectCompletes : Obligations.DeselectCompletes := by
  refine ⟨fun id s hready hinit hvalid hsel hid => ?start, fun id s hrun => ?rise,
    fun id s hrun => ?wait⟩
  case start =>
    have hlt : id.toNat < 8 := hid ▸ s.sessSelid.isLt
    have hsame : s.sessSelid.setWidth 8 = id :=
      BitVec.eq_of_toNat_eq (by rw [BitVec.toNat_setWidth]; omega)
    exact exec_ready_start hready (desCheck_eq_none.2 ⟨hinit, hlt, hvalid, hsel, hsame⟩)
  case rise =>
    exact ⟨_, _, fun l => lineBit_setLineBit _ _ l true, fun l => lineBit_setLineBit _ _ l true,
      exec_running hrun⟩
  case wait => exact exec_delay_done_or_waits (microOf_des_wait id) hrun

/-! ### Who records which event (10_state.md R42) -/

/-- The events that only a micro-step of the sequencer records. -/
def fromSequencer : Event → Bool
  | .accept _ _ => false
  | .faultEv _ _ _ => false
  | .modeSet _ _ => true
  | .csDrive _ _ _ => true
  | .xferStart _ _ _ _ => true
  | .xferEnd _ _ _ => false
  | .bufStore _ _ _ => true
  | .done _ _ _ => true

/-- A step of the environment, of the host or of the engine, as selection sees it: the session and
the table stay, the sequencer goes on as it was or starts, and none of its events are recorded. -/
structure Bystands (s t : State) : Prop where
  sdt : t.sdt = s.sdt
  selv : t.sessSelv = s.sessSelv
  selid : t.sessSelid = s.sessSelid
  seq : t.seq = s.seq ∨ (s.seq.cmd = none ∧ t.seq.phase = 1)
  events : ∀ es, t.hist = s.hist ++ es → ∀ e ∈ es, fromSequencer e = false

theorem bystands_waits (s : State) : Bystands s (waits s) :=
  ⟨rfl, rfl, rfl, .inl rfl, by simp⟩

theorem bystands_envMove {m : EnvMove} (s : State) (hm : m ≠ .rst) : Bystands s (envMove m s) := by
  cases m with
  | rst => exact absurd rfl hm
  | _ => exact ⟨rfl, rfl, rfl, .inl rfl, by simp [envMove]⟩

theorem bystands_accept (i : Instr) (w : Word) (rest : List Word) {s : State}
    (hc : s.seq.cmd = none) :
    Bystands s (accept i (checkOf i) (record (.accept w s.time) { s with host := rest })) := by
  obtain ⟨c, -, ha⟩ | ⟨-, ha⟩ :=
    accept_cases i (checkOf i) (record (.accept w s.time) { s with host := rest })
  · exact ha ▸ ⟨rfl, rfl, rfl, .inl rfl, by simp [fromSequencer]⟩
  · exact ha ▸ ⟨rfl, rfl, rfl, .inr ⟨hc, rfl⟩, by simp [fromSequencer]⟩

theorem bystands_engineStep {s t : State} (he : EngineStep s t) : Bystands s t := by
  cases he with
  | complete => exact ⟨rfl, rfl, rfl, .inl rfl, by simp [fromSequencer]⟩
  | period => exact ⟨rfl, rfl, rfl, .inl rfl, by simp⟩

/-- Every step but a reset is a micro-step of the running command, or leaves selection alone. -/
theorem step_bystands_or_micro {s t : State} (h : step s = .next t) (hr : ¬ resetNext s) :
    Bystands s t ∨ ∃ i, s.seq.cmd = some i ∧ MicroStep (turnTaken s) i t := by
  obtain ⟨m, hm, rfl⟩ | ⟨-, hb⟩ := step_cases h
  · refine .inl { bystands_envMove (turnTaken s) ?_ with }
    rintro rfl; exact hr hm
  · obtain ⟨-, rfl⟩ | ⟨-, hc, w, rest, i, -, -, rfl⟩ | ⟨-, -, w, rest, e, -, -, rfl⟩ |
      ⟨-, -, -, -, rfl⟩ | ⟨-, -, i, hc, rfl⟩ := blockStep_cases hb
    · exact .inl { bystands_waits (turnTaken s) with }
    · exact .inl { bystands_accept i w rest (s := turnTaken s) hc with }
    · exact .inl ⟨rfl, rfl, rfl, .inl rfl, by simp [fromSequencer]⟩
    · exact .inl { bystands_engineStep (engineStep_engineStep (turnTaken s)) with }
    · exact .inr ⟨i, hc, microStep_microOf i (turnTaken s)⟩

/-- Only a transfer command's load records `XferStart`, in the mode of CFG. -/
theorem microStep_xferStart {i : Instr} {s t : State} {o : Byte} {m : BitVec 2} {d : Bool}
    {tm : Nat} (hm : MicroStep s i t) (hh : t.hist = s.hist ++ [.xferStart o m d tm]) :
    isTransfer i = true ∧ m = cfgMode s.cfg ∧ tm = s.time := by
  cases hm with
  | load _ b k hi => simp_all
  | _ => simp at hh

/-! ### Steps that drive no line -/

/-- SEL or DES is in its waiting phase. -/
def delayWaiting (s : State) : Prop :=
  ∃ id, (s.seq.cmd = some (.sel id) ∧ s.seq.phase = 3) ∨
    (s.seq.cmd = some (.des id) ∧ s.seq.phase = 2)

theorem not_delayWaiting_of_cmd_none {s : State} (h : s.seq.cmd = none) : ¬ delayWaiting s := by
  simp [delayWaiting, h]

theorem not_delayWaiting_of_phase_one {s : State} (h : s.seq.phase = 1) : ¬ delayWaiting s := by
  simp [delayWaiting, h]

theorem not_delayWaiting_of_transfer {i : Instr} {s : State} (hc : s.seq.cmd = some i)
    (hi : isTransfer i = true) : ¬ delayWaiting s := by
  rintro ⟨id, ⟨hw, -⟩ | ⟨hw, -⟩⟩
  · cases hc.symm.trans hw; cases hi
  · cases hc.symm.trans hw; cases hi

theorem selWaiting_iff (s : State) :
    selWaiting s = true ↔ ∃ id, s.seq.cmd = some (.sel id) ∧ s.seq.phase = 3 := by
  unfold selWaiting
  split <;> simp_all

theorem selWaiting_congr {s t : State} (h : t.seq = s.seq) : selWaiting t = selWaiting s := by
  simp only [selWaiting, h]

theorem delayWaiting_of_selWaiting {s : State} (h : selWaiting s = true) : delayWaiting s := by
  obtain ⟨id, hw⟩ := (selWaiting_iff s).1 h
  exact ⟨id, .inl hw⟩

/-- A step that drives no line and keeps the session and the table; the delay timer goes on, or no
command waits for it any more, which SEL and DES leave only when it has expired. -/
structure Undriven (s t : State) : Prop where
  sdt : t.sdt = s.sdt
  selv : t.sessSelv = s.sessSelv
  selid : t.sessSelid = s.sessSelid
  timer : t.seq = s.seq ∨ (¬ delayWaiting t ∧ (delayWaiting s → expired s = true))
  events : ∀ es, t.hist = s.hist ++ es → ∀ l v tm, .csDrive l v tm ∉ es

theorem undriven_of_bystands {s t : State} (h : Bystands s t) : Undriven s t where
  sdt := h.sdt
  selv := h.selv
  selid := h.selid
  timer := h.seq.imp_right fun ⟨hc, hp⟩ =>
    ⟨not_delayWaiting_of_phase_one hp, fun hw => absurd hw (not_delayWaiting_of_cmd_none hc)⟩
  events es he l v tm hmem := by cases h.events es he _ hmem

/-- A micro-step drives no line, or it is REG's, SEL's falling edge or DES's rising edge
(10_state.md R28, R44). -/
theorem microStep_undriven {i : Instr} {s t : State} (hm : MicroStep s i t)
    (hc : s.seq.cmd = some i) :
    Undriven s t ∨
    (∃ id, i = .reg id ∧ t.sessSelv = s.sessSelv ∧ ¬ delayWaiting t) ∨
    (∃ id, i = .sel id ∧ s.seq.phase = 2 ∧ t = microOf (.sel id) 2 s) ∨
    ∃ id, i = .des id ∧ s.seq.phase = 1 ∧ t = microOf (.des id) 1 s := by
  have transfer (hi : isTransfer i = true) : delayWaiting s → expired s = true :=
    fun hw => absurd hw (not_delayWaiting_of_transfer hc hi)
  cases hm with
  | wait => exact .inl (undriven_of_bystands (bystands_waits s))
  | regCopy id => exact .inr (.inl ⟨id, rfl, rfl, by simp [delayWaiting, hc]⟩)
  | regDrive id => exact .inr (.inl ⟨id, rfl, rfl, not_delayWaiting_of_cmd_none rfl⟩)
  | selFall id hp => exact .inr (.inr (.inl ⟨id, rfl, hp, rfl⟩))
  | desRise id hp => exact .inr (.inr (.inr ⟨id, rfl, hp, rfl⟩))
  | selMode id hp => exact .inl ⟨rfl, rfl, rfl, .inr (by simp [delayWaiting, hc, hp]), by simp⟩
  | selEnd id _ he =>
    exact .inl ⟨rfl, rfl, rfl, .inr ⟨not_delayWaiting_of_cmd_none rfl, fun _ => he⟩, by simp⟩
  | desEnd id _ he =>
    exact .inl ⟨rfl, rfl, rfl, .inr ⟨not_delayWaiting_of_cmd_none rfl, fun _ => he⟩, by simp⟩
  | load _ b k hi =>
    exact .inl ⟨rfl, rfl, rfl, .inr ⟨not_delayWaiting_of_transfer (i := i) hc hi, transfer hi⟩,
      by simp⟩
  | burstEnd _ hi =>
    exact .inl ⟨rfl, rfl, rfl, .inr ⟨not_delayWaiting_of_cmd_none rfl, transfer hi⟩, by simp⟩
  | single _ hi =>
    have hi : isTransfer i = true := by obtain rfl | ⟨b, rfl⟩ := hi <;> rfl
    exact .inl ⟨rfl, rfl, rfl, .inr ⟨not_delayWaiting_of_cmd_none rfl, transfer hi⟩, by simp⟩
  | _ => exact .inl ⟨rfl, rfl, rfl, .inr (by simp [delayWaiting, hc]), by simp⟩

/-- Every step but a reset drives no line, or is REG's, SEL's falling edge or DES's rising edge. -/
theorem step_undriven {s t : State} (h : step s = .next t) (hr : ¬ resetNext s) :
    Undriven s t ∨
    (∃ id, s.seq.cmd = some (.reg id) ∧ t.sessSelv = s.sessSelv ∧ ¬ delayWaiting t) ∨
    (∃ id, s.seq.cmd = some (.sel id) ∧ s.seq.phase = 2 ∧ t = microOf (.sel id) 2 (turnTaken s)) ∨
    ∃ id, s.seq.cmd = some (.des id) ∧ s.seq.phase = 1 ∧ t = microOf (.des id) 1 (turnTaken s) := by
  obtain ho | ⟨i, hc, hm⟩ := step_bystands_or_micro h hr
  · exact .inl (undriven_of_bystands ho)
  · obtain hu | ⟨id, rfl, hreg⟩ | ⟨id, rfl, hfall⟩ | ⟨id, rfl, hrise⟩ := microStep_undriven hm hc
    · exact .inl { hu with }
    · exact .inr (.inl ⟨id, hc, hreg⟩)
    · exact .inr (.inr (.inl ⟨id, hc, hfall⟩))
    · exact .inr (.inr (.inr ⟨id, hc, hrise⟩))

/-! ### The bounds of the delays are kept (42_select_deselect.md R112, R114) -/

theorem lastDrive_eq_none {es : List Event} (h : ∀ l v tm, .csDrive l v tm ∉ es) :
    lastDrive es = none := by
  induction es with
  | nil => rfl
  | cons e rest ih =>
    simp only [List.mem_cons, not_or] at h
    unfold lastDrive
    rw [ih fun l v tm => (h l v tm).2]
    cases e with
    | csDrive l v tm => exact absurd rfl (h l v tm).1
    | _ => rfl

/-- The driven line's event becomes the latest chip-select event. -/
theorem lastDrive_append_csDrive (h : List Event) (l : Line) (v : Bool) (tm : Nat) :
    lastDrive (h ++ [.csDrive l v tm]) = some (l, v, tm) := by
  rw [lastDrive_append]; rfl

section Kept

variable {s t : State} (hu : Undriven s t) (hg : Grows s t)
include hu hg

theorem lastDrive_undriven : lastDrive t.hist = lastDrive s.hist := by
  obtain ⟨-, es, he, -⟩ := hg
  rw [he, lastDrive_append, lastDrive_eq_none (hu.events es he)]; rfl

theorem selectionTimed_undriven (hs : SelectionTimed s) : SelectionTimed t := by
  intro hsel
  obtain ⟨t1, hlast, hdelay⟩ := hs (hu.selv ▸ hsel)
  have hslot : selectedSlot t = selectedSlot s := by rw [selectedSlot, hu.sdt, hu.selid]; rfl
  refine ⟨t1, by rw [lastDrive_undriven hu hg, hslot, hlast], ?_⟩
  rw [hslot]
  obtain ⟨htime, -⟩ := hg
  obtain hseq | ⟨hout, hexp⟩ := hu.timer
  · rw [selWaiting_congr hseq, hseq]
    split at hdelay
    · next hw => rwa [if_pos hw]
    · next hw => rw [if_neg hw]; exact hdelay.trans htime
  · rw [if_neg fun hw => hout (delayWaiting_of_selWaiting hw)]
    split at hdelay
    · next hw =>
      have hd := (expired_iff s).1 (hexp (delayWaiting_of_selWaiting hw))
      omega
    · exact hdelay.trans htime

theorem deselectionTimed_undriven (hs : DeselectionTimed s) : DeselectionTimed t := by
  intro id hc hp
  obtain hseq | ⟨hout, -⟩ := hu.timer
  · rw [lastDrive_undriven hu hg, hu.sdt, hseq]
    exact hs id (hseq ▸ hc) (hseq ▸ hp)
  · exact absurd ⟨id, .inr ⟨hc, hp⟩⟩ hout

end Kept

/-- SEL's falling edge is the latest chip-select event, and the wait for its delay begins. -/
theorem selectionTimed_fall {id : Byte} {s : State} (hc : s.seq.cmd = some (.sel id)) :
    SelectionTimed (microOf (.sel id) 2 s) := by
  intro _
  refine ⟨s.time, lastDrive_append_csDrive _ _ _ _, ?_⟩
  rw [if_pos ((selWaiting_iff (microOf (.sel id) 2 s)).2 ⟨id, hc, rfl⟩)]
  rfl

theorem step_reset {s t : State} (h : step s = .next t) (hr : resetNext s) :
    t = resetBlock (turnTaken s) := by
  obtain ⟨m, hm, rfl⟩ | ⟨hb | hb, -⟩ := step_cases h
  · cases hr.symm.trans hm; rfl
  · rw [resetNext, hb] at hr; cases hr
  · cases hr.symm.trans hb

theorem step_selectionTimed {s t : State} (hi : Inv s) (hs : SelectionTimed s)
    (h : step s = .next t) : SelectionTimed t := by
  by_cases hr : resetNext s
  · rw [step_reset h hr]; exact nofun
  obtain hu | ⟨id, hc, hselv, -⟩ | ⟨id, hc, -, rfl⟩ | ⟨id, -, -, rfl⟩ := step_undriven h hr
  · exact selectionTimed_undriven hu (historyOnlyGrows s t h) hs
  · obtain ⟨-, hsel, -⟩ := (sequencerInv_reg hc).1 hi.sequencer
    exact fun hv => absurd (hv.symm.trans (hselv.trans hsel)) (by decide)
  · exact selectionTimed_fall (s := turnTaken s) hc
  · exact nofun

theorem step_deselectionTimed {s t : State} (hs : DeselectionTimed s) (h : step s = .next t) :
    DeselectionTimed t := by
  by_cases hr : resetNext s
  · rw [step_reset h hr]; exact nofun
  obtain hu | ⟨-, -, -, hout⟩ | ⟨id, hc, -, rfl⟩ | ⟨id, hc, -, rfl⟩ := step_undriven h hr
  · exact deselectionTimed_undriven hu (historyOnlyGrows s t h) hs
  · exact fun id hc hp => absurd ⟨id, .inr ⟨hc, hp⟩⟩ hout
  · exact fun _ _ hp => by cases hp
  · intro id' hc' _
    obtain rfl : id = id' := by simpa [hc] using hc.symm.trans hc'
    exact ⟨s.time, lastDrive_append_csDrive _ _ _ _, rfl⟩

/-- Settles O16: a step that drives no line keeps both bounds; of the lines' writers REG runs while
nothing is selected, and SEL's and DES's edges set their deadline. -/
theorem stepKeepsSelectionTiming : Obligations.StepKeepsSelectionTiming :=
  ⟨fun _ _ hi hs h => step_selectionTimed hi hs h, fun _ _ hs h => step_deselectionTimed hs h⟩

/-- Settles O17: SEL's wait completes at its deadline, which is the falling edge plus the delay; an
exchange is started by a transfer command, so SEL waits no more and the delay has passed. -/
theorem nothingBeforeTheSelectDelay : Obligations.NothingBeforeTheSelectDelay := by
  refine ⟨fun s t id hi hs hrun h ht => ?completion, fun s t o m d tm hi hs h hh => ?exchange⟩
  case completion =>
    have ⟨_, hc, hp⟩ := hrun
    obtain ⟨-, -, -, -, hsel⟩ := (sequencerInv_sel hc).1 hi.sequencer
    obtain ⟨hselv, hselid⟩ := hsel hp
    obtain ⟨t1, hlast, hdelay⟩ := hs hselv
    rw [if_pos ((selWaiting_iff s).2 ⟨id, hc, hp⟩)] at hdelay
    rw [selectedSlot, hselid] at hlast hdelay
    exact ⟨t1, hlast, hdelay ▸ deadline_le_of_delay_done (microOf_sel_wait id) hrun h ht⟩
  case exchange =>
    have hr : ¬ resetNext s := fun hr => by simp [step_reset h hr] at hh
    obtain ho | ⟨i, hc, hm⟩ := step_bystands_or_micro h hr
    · cases ho.events _ hh _ (List.mem_singleton_self _)
    · obtain ⟨htr, rfl, rfl⟩ := microStep_xferStart hm hh
      obtain ⟨-, hselv⟩ := (sequencerInv_transfer hc htr).1 hi.sequencer
      obtain ⟨hmode, -⟩ := hi.selectedMode hselv
      obtain ⟨t1, hlast, hdelay⟩ := hs hselv
      rw [if_neg fun hw => not_delayWaiting_of_transfer hc htr (delayWaiting_of_selWaiting hw)]
        at hdelay
      exact ⟨t1, hlast, hdelay, hmode⟩

/-! ### No falling edge before the deselect delay (42_select_deselect.md R114) -/

/-- A run of one step more begins with a step. -/
theorem run_succ_next {n : Nat} {s u : State}
    (h : Host.Core.run Sys2Proof.core (n + 1) s = .next u) :
    ∃ t, step s = .next t ∧ Host.Core.run Sys2Proof.core n t = .next u := by
  simp only [Host.Core.run] at h
  split at h
  · next t ht => exact ⟨t, ht, h⟩
  · cases h
  · cases h

/-- A property that every step keeps holds after a run. -/
theorem run_keeps {P : State → Prop} (hP : ∀ s t, P s → step s = .next t → P t) {n : Nat}
    {s u : State} (hs : P s) (h : Host.Core.run Sys2Proof.core n s = .next u) : P u := by
  induction n generalizing s with
  | zero => cases h; exact hs
  | succ n ih =>
    obtain ⟨t, ht, hrun⟩ := run_succ_next h
    exact ih (hP s t hs ht) hrun

/-- A step takes one turn of the schedule. -/
theorem step_turns {s t : State} (h : step s = .next t) : t.turns = s.turns.tail := by
  obtain ⟨m, -, rfl⟩ | ⟨-, hb⟩ := step_cases h
  · cases m <;> rfl
  · exact blockStep_keeps_turns hb

/-- Time `d` has come, or DES waits for it. -/
def deselectPending (d : Nat) (s : State) : Prop :=
  d ≤ s.time ∨ ∃ id, s.seq.cmd = some (.des id) ∧ s.seq.phase = 2 ∧ s.seq.deadline = d

/-- From the history `h` on, no line has fallen before time `d`, and none will: `d` has come or DES
waits for it, and no reset is scheduled. -/
structure NoFallBefore (d : Nat) (h : List Event) (s : State) : Prop where
  noReset : .env .rst ∉ s.turns
  pending : deselectPending d s
  falls : ∃ es, s.hist = h ++ es ∧ ∀ l tm, .csDrive l false tm ∈ es → d ≤ tm

/-- While DES waits no line is driven, and after its deadline every event is late enough. -/
theorem step_deselectPending {d : Nat} {s t : State} (hd : deselectPending d s) (hr : ¬ resetNext s)
    (h : step s = .next t) : deselectPending d t ∧
      ∃ es, t.hist = s.hist ++ es ∧ ∀ l tm, .csDrive l false tm ∈ es → d ≤ tm := by
  obtain ⟨htime, es, he, htimes⟩ := historyOnlyGrows s t h
  obtain hd | ⟨id, hc, hp, hd⟩ := hd
  · exact ⟨.inl (hd.trans htime), es, he, fun l tm hmem => hd.trans (htimes _ hmem).ge⟩
  · obtain hu | ⟨id', hc', -⟩ | ⟨id', hc', -⟩ | ⟨id', hc', hp', -⟩ := step_undriven h hr
    · refine ⟨?_, es, he, fun l tm hmem => absurd hmem (hu.events es he l false tm)⟩
      obtain hseq | ⟨-, hexp⟩ := hu.timer
      · exact .inr ⟨id, by rw [hseq]; exact ⟨hc, hp, hd⟩⟩
      · have hdue := (expired_iff s).1 (hexp ⟨id, .inr ⟨hc, hp⟩⟩)
        exact .inl (by omega)
    · cases hc.symm.trans hc'
    · cases hc.symm.trans hc'
    · omega

theorem step_noFallBefore {d : Nat} {h : List Event} {s t : State} (hs : NoFallBefore d h s)
    (ht : step s = .next t) : NoFallBefore d h t := by
  obtain ⟨hno, hpending, es, he, hfalls⟩ := hs
  have hr : ¬ resetNext s := fun hr => hno (List.mem_of_head? hr)
  obtain ⟨hpending', es', he', hfalls'⟩ := step_deselectPending hpending hr ht
  refine ⟨?_, hpending', es ++ es', by rw [he', he, List.append_assoc], fun l tm hmem => ?_⟩
  · rw [step_turns ht]
    exact fun hmem => hno (List.mem_of_mem_tail hmem)
  · exact (List.mem_append.1 hmem).elim (hfalls l tm) (hfalls' l tm)

/-- DES's rising edge begins the wait, with no later event yet. -/
theorem noFallBefore_rise {id : Byte} {s : State} (hc : s.seq.cmd = some (.des id))
    (hno : .env .rst ∉ s.turns) :
    NoFallBefore (s.time + (slotAt s.sdt (slotIx id)).desdly.toNat) (microOf (.des id) 1 s).hist
      (microOf (.des id) 1 s) :=
  ⟨hno, .inr ⟨id, hc, rfl, rfl⟩, [], (List.append_nil _).symm, nofun⟩

/-- Settles O18: DES's wait completes at its deadline, which is the rising edge plus the delay; and
`NoFallBefore` holds at that edge and along the run. -/
theorem nothingBeforeTheDeselectDelay : Obligations.NothingBeforeTheDeselectDelay := by
  refine ⟨fun s t id hs hrun h ht => ?completion,
    fun s t u id n es l tm hrun hno h hu hes hmem => ?run⟩
  case completion =>
    have ⟨_, hc, hp⟩ := hrun
    obtain ⟨t4, hlast, hdelay⟩ := hs id hc hp
    exact ⟨t4, hlast, hdelay ▸ deadline_le_of_delay_done (microOf_des_wait id) hrun h ht⟩
  case run =>
    have ⟨_, hc, _⟩ := hrun
    rw [exec_running hrun] at h
    injection h with h
    subst h
    obtain ⟨-, -, es', hes', hfalls⟩ :=
      run_keeps (fun _ _ => step_noFallBefore) (noFallBefore_rise hc hno) hu
    obtain rfl : es = es' := List.append_cancel_left (hes.symm.trans hes')
    exact hfalls l tm hmem

end Sys2Proof.Machine

/-! Byte transfer (43_transfer.md): WR, RD, WRB and RDB phase by phase, and RD beside WR. -/

namespace Sys2Proof.Machine

/-! ### What the transfer commands share (43_transfer.md R120, R133) -/

/-- A transfer command starts once the block is initialised and a slave selected (60_exceptions.md
R160). -/
theorem exec_transfer_start {i : Instr} (hi : isTransfer i = true) {s : State}
    (hready : ready s = true) (hinit : s.sessInited = true) (hsel : s.sessSelv = true) :
    exec i s = .next (start i s) :=
  exec_ready_start hready (by rw [checkOf_transfer hi]; exact xferCheck_eq_none.2 ⟨hinit, hsel⟩)

/-- A poll with TC 0 only waits. -/
theorem exec_transfer_wait {i : Instr} (hi : isTransfer i = true) {s : State}
    (hrun : runningAt s i 2) (htc : s.statTc = false) :
    ∃ t, exec i s = .next t ∧ passesTime s t :=
  ⟨waits s, by rw [exec_running hrun, microOf_transfer_poll hi htc], waits_passesTime s⟩

/-! ### WR and RD (43_transfer.md R124, R128) -/

/-- The command is WR of `b`, or it is RD and `b` is 0x00. -/
def exchangesByte (i : Instr) (b : Byte) : Prop := i = .wr b ∨ (i = .rd ∧ b = 0x00)

theorem exchangesByte_isTransfer {i : Instr} {b : Byte} (h : exchangesByte i b) :
    isTransfer i = true := by
  obtain rfl | ⟨rfl, -⟩ := h <;> rfl

/-- WR and RD have the same phases. -/
theorem exchangesByte_microOf {i : Instr} {b : Byte} (h : exchangesByte i b) :
    microOf i = singlePhase i b := by
  obtain rfl | ⟨rfl, rfl⟩ := h <;> rfl

theorem singlePhase_load (i : Instr) (b : Byte) (s : State) :
    singlePhase i b 1 s = goto 2 (load b s) := rfl

theorem singlePhase_answer (i : Instr) (b : Byte) {s : State} (htc : s.statTc = true) :
    singlePhase i b 2 s = doneVal i (s.data.setWidth 16) s := if_pos htc

/-- What is neither the load nor a poll with TC 1 waits. -/
theorem singlePhase_wait (i : Instr) (b : Byte) {p : Nat} {s : State} (hp : p ≠ 1)
    (htc : p = 2 → s.statTc = false) : singlePhase i b p s = waits s := by
  unfold singlePhase
  split
  · exact absurd rfl hp
  · rw [htc rfl]; rfl
  · rfl

/-- Settles O39: both commands run `singlePhase`; each phase is the model's own update. -/
theorem singleTransferCompletes : Obligations.SingleTransferCompletes := by
  intro i b h
  have hi := exchangesByte_isTransfer h
  have hm := exchangesByte_microOf h
  refine ⟨fun s => exec_transfer_start hi, fun s hrun => ?load, fun s hrun htc => ?answer,
    fun s => exec_transfer_wait hi⟩
  case load => rw [exec_running hrun, hm, singlePhase_load]; rfl
  case answer => rw [exec_running hrun, hm, singlePhase_answer i b htc]; rfl

/-! ### RD beside WR 0x00 (43_transfer.md R129) -/

/-- The accept step of a transfer command's own word, from the `Accept` event on: the fault of a
failing check, or the start. -/
theorem acceptWord_transfer {i : Instr} (hi : isTransfer i = true) {s : State}
    (hready : ready s = true) : acceptWord (encode i) s =
      .next (accept i xferCheck { s with hist := s.hist ++ [.accept (encode i) s.time] }) := by
  rw [acceptWord_decoded s (decodeOfEncode i), exec_ready (by exact hready), checkOf_transfer hi]
  rfl

/-- `t` after RD's step and `u` after that of WR 0x00 from the same state `s`: equal but for the
running command, or both done, with one `Done` each that differs in the word alone. -/
def sameButCommand (s t u : State) : Prop :=
  u = { t with hist := u.hist, seq := { t.seq with cmd := u.seq.cmd } } ∧
    ((t.seq.cmd = some .rd ∧ u.seq.cmd = some (.wr 0x00) ∧ u.hist = t.hist) ∨
      (t.seq.cmd = none ∧ u.seq.cmd = none ∧ ∃ r,
        t.hist = s.hist ++ [.done (encode .rd) r s.time] ∧
        u.hist = s.hist ++ [.done (encode (.wr 0x00)) r s.time]))

/-- In every phase RD and WR 0x00 take the same step. -/
theorem singlePhase_sameButCommand {s : State} (p : Nat) (hc : s.seq.cmd = some .rd) :
    sameButCommand s (singlePhase .rd 0x00 p s)
      (singlePhase (.wr 0x00) 0x00 p { s with seq := { s.seq with cmd := some (.wr 0x00) } }) := by
  by_cases hp : p = 1
  · subst hp
    exact ⟨rfl, .inl ⟨hc, rfl, rfl⟩⟩
  · by_cases htc : p = 2 ∧ s.statTc = true
    · obtain ⟨rfl, htc⟩ := htc
      rw [singlePhase_answer .rd 0x00 htc, singlePhase_answer (.wr 0x00) 0x00 (by exact htc)]
      exact ⟨rfl, .inr ⟨rfl, rfl, _, rfl, rfl⟩⟩
    · have hwait (h2 : p = 2) : s.statTc = false := by simpa [h2] using htc
      rw [singlePhase_wait .rd 0x00 hp hwait, singlePhase_wait (.wr 0x00) 0x00 hp (by exact hwait)]
      exact ⟨rfl, .inl ⟨hc, rfl, rfl⟩⟩

theorem accept_of_check_some {i : Instr} {check : State → Option Cause} {c : Cause} {s : State}
    (hk : check s = some c) : accept i check s = raise c (encode i) s := by
  simp [accept, hk]

/-- Settles O40: the checks do not look at the history, where alone the two words differ; the phases
are the same by `singlePhase_sameButCommand`. -/
theorem readIsWriteOfZero : Obligations.ReadIsWriteOfZero := by
  refine ⟨?_, fun s p hrun => ?_⟩
  · rintro s r w hready rfl rfl
    rw [acceptWord_transfer rfl hready, acceptWord_transfer rfl hready]
    obtain ⟨c, hk, ha⟩ | ⟨hk, ha⟩ := accept_cases .rd xferCheck
      { s with hist := s.hist ++ [.accept (encode .rd) s.time] }
    · exact .inl ⟨causeCode c, c, congrArg _ ha, congrArg _ (accept_of_check_some hk)⟩
    · exact .inr ⟨congrArg _ ha, congrArg _ (accept_of_check_none hk)⟩
  · obtain ⟨hf, hc, hp⟩ := hrun
    exact ⟨_, _, exec_running ⟨hf, hc, hp⟩, exec_running (i := .wr 0x00) ⟨hf, rfl, hp⟩,
      singlePhase_sameButCommand p hc⟩

/-! ### WRB (43_transfer.md R126) -/

/-- A read of the buffer answers the byte that is there and draws nothing, or a free byte
(20_memory.md R52). -/
theorem bufRead_eq (a : Byte) (s : State) :
    ∃ b fr, (∀ v, bufAt s a = some v → b = v ∧ fr = s.fresh) ∧
      bufRead a s = (b, { s with fresh := fr }) := by
  unfold bufRead
  cases h : bufAt s a with
  | none => exact ⟨_, _, nofun, rfl⟩
  | some b => exact ⟨b, s.fresh, fun v hv => ⟨Option.some.inj hv, rfl⟩, rfl⟩

theorem microOf_wrb_end (base : Byte) {len : Byte} {s : State} (h : s.seq.idx = len) :
    microOf (.wrb base len) 1 s = done (.wrb base len) s := if_pos h

theorem microOf_wrb_load (base : Byte) {len : Byte} {s : State} (h : s.seq.idx ≠ len) :
    microOf (.wrb base len) 1 s = wrbLoad base s := if_neg h

theorem microOf_wrb_poll (base len : Byte) {s : State} (h : s.statTc = true) :
    microOf (.wrb base len) 2 s = goto 1 (nextIdx s) := if_pos h

/-- Settles O41: WRB's phases are the model's own updates, the loaded byte that of `bufRead_eq`. -/
theorem burstWriteCompletes : Obligations.BurstWriteCompletes := by
  intro base len
  refine ⟨fun s => exec_transfer_start rfl, fun s hrun hidx => ?finish, fun s hrun hidx => ?load,
    fun s hrun htc => ?poll, fun s => exec_transfer_wait rfl⟩
  case finish => rw [exec_running hrun, microOf_wrb_end base hidx]; rfl
  case load =>
    obtain ⟨b, fr, hb, hread⟩ := bufRead_eq (ea base s.seq.idx) s
    refine ⟨b, fr, hb, ?_⟩
    rw [exec_running hrun, microOf_wrb_load base hidx, wrbLoad, hread]
    rfl
  case poll => rw [exec_running hrun, microOf_wrb_poll base len htc]; rfl

/-! ### RDB (43_transfer.md R130) -/

theorem microOf_rdb_end (base : Byte) {len : Byte} {s : State} (h : s.seq.idx = len) :
    microOf (.rdb base len) 1 s = done (.rdb base len) s := if_pos h

theorem microOf_rdb_load (base : Byte) {len : Byte} {s : State} (h : s.seq.idx ≠ len) :
    microOf (.rdb base len) 1 s = goto 2 (load 0x00 s) := if_neg h

theorem microOf_rdb_poll (base len : Byte) {s : State} (h : s.statTc = true) :
    microOf (.rdb base len) 2 s =
      goto 1 (nextIdx (bufWrite (ea base s.seq.idx) s.data s)) := if_pos h

/-- Settles O42: RDB's phases are the model's own updates, the new listing that of `bufWrite`. -/
theorem burstReadCompletes : Obligations.BurstReadCompletes := by
  intro base len
  refine ⟨fun s => exec_transfer_start rfl, fun s hrun hidx => ?finish, fun s hrun hidx => ?load,
    fun s hrun htc => ⟨(bufWrite (base + s.seq.idx) s.data s).buf, fun a => ?store, ?poll⟩,
    fun s => exec_transfer_wait rfl⟩
  case finish => rw [exec_running hrun, microOf_rdb_end base hidx]; rfl
  case load => rw [exec_running hrun, microOf_rdb_load base hidx]; rfl
  case store => exact bufAt_bufWrite (base + s.seq.idx) s.data a s
  case poll => rw [exec_running hrun, microOf_rdb_poll base len htc]; rfl

end Sys2Proof.Machine

/-! The shift engine (43_transfer.md R122, R123): the byte view's step, the eight periods of the bit
view, and the waveform on the pins. -/

namespace Sys2Proof.Machine

/-! ### The byte view (43_transfer.md R122) -/

theorem engineEnabled_iff (s : State) : engineEnabled s = true ↔
    s.statBusy = true ∧ cfgEn s.cfg = true ∧ cfgMstr s.cfg = true := by
  simp [engineEnabled, and_assoc]

/-- The engine is enabled only while an exchange is in flight. -/
theorem engineEnabled_of_idle {s : State} (h : s.statBusy = false) : engineEnabled s = false := by
  simp [engineEnabled, h]

theorem slaveAnswer_cons {s : State} {b : Byte} {rest : List Byte} (h : s.answers = b :: rest) :
    slaveAnswer s = b := by
  simp [slaveAnswer, h]

theorem answerTaken_cons {s : State} {b : Byte} {rest : List Byte} (h : s.answers = b :: rest) :
    answerTaken s = { s with answers := rest } := by
  simp [answerTaken, h]

/-- At the block's turn the enabled engine of a wired block makes the byte view's one step. -/
theorem step_shiftByte {s : State} {i : Instr} (hb : blockTurn s) (hf : faulted s = false)
    (hc : s.seq.cmd = some i) (he : engineEnabled s = true) (hw : s.wired = true)
    (hv : s.bitView = false) : step s = .next (shiftByte (turnTaken s)) := by
  rw [(runningCommandIsExecuted s i hb hf hc).2 he hw]
  simp [engineStep, hv]

/-- Settles O49: the step is `shiftByte`, whose answer and rest are the list's where it has one. -/
theorem shiftStepRule : Obligations.ShiftStepRule := by
  intro s i hb hf hc hbusy hen hms hw hv
  obtain ⟨rest, fr, hk⟩ := answerTaken_state (turnTaken s)
  refine ⟨slaveAnswer s, rest, fr, shiftByte (turnTaken s),
    step_shiftByte hb hf hc ((engineEnabled_iff s).2 ⟨hbusy, hen, hms⟩) hw hv, ?_, ?_, rfl⟩
  · rw [shiftByte, hk]; rfl
  · intro b bs ha
    rw [answerTaken_cons (s := turnTaken s) ha] at hk
    exact ⟨slaveAnswer_cons ha, (congrArg State.answers hk).symm, (congrArg State.fresh hk).symm⟩

/-! ### The shift register (43_transfer.md R123) -/

/-- The shift register after `k` periods, from `sr`, with the bits of `inp` coming in. -/
def shifted (sr inp : Byte) : Nat → Byte
  | 0 => sr
  | k + 1 => shiftIn (shifted sr inp k) (misoBit inp k)

/-- After `k` periods the upper bits are what is left of the outgoing byte, the lower `k` bits the
first bits of the incoming one. -/
theorem getLsbD_shifted (sr inp : Byte) {k j : Nat} (hk : k ≤ 8) (hj : j < 8) :
    (shifted sr inp k).getLsbD j =
      if j < k then inp.getLsbD (8 - k + j) else sr.getLsbD (j - k) := by
  induction k generalizing j with
  | zero => rfl
  | succ k ih =>
    rw [shifted, getLsbD_shiftIn _ _ _ hj]
    cases j with
    | zero => simp [misoBit]
    | succ j =>
      rw [if_neg (by omega), Nat.add_sub_cancel, ih (by omega) (by omega)]
      simp only [Nat.add_lt_add_iff_right, Nat.add_sub_add_right]
      rw [show 8 - (k + 1) + (j + 1) = 8 - k + j by omega]

/-- The next bit to go out is bit `7 - k` of the outgoing byte. -/
theorem getLsbD_shifted_top (sr inp : Byte) {k : Nat} (hk : k < 8) :
    (shifted sr inp k).getLsbD 7 = sr.getLsbD (7 - k) := by
  rw [getLsbD_shifted sr inp (by omega) (by omega), if_neg (by omega)]

/-- After eight periods the register holds the incoming byte. -/
theorem shifted_eight (sr inp : Byte) : shifted sr inp 8 = inp := by
  apply BitVec.eq_of_getLsbD_eq
  intro j hj
  rw [getLsbD_shifted sr inp le_rfl hj, if_pos hj]
  simp

/-! ### The periods of the bit view (43_transfer.md R123; log 11) -/

/-- The state after `k` of the first seven periods of an exchange that began in `s`. -/
def afterPeriods (k : Nat) (s : State) : State :=
  { s with
    data := shifted s.data (slaveAnswer s) k
    engCnt := BitVec.ofNat 4 k
    engOut := if k = 0 then s.engOut else s.data }

theorem toNat_afterPeriods_engCnt (s : State) {k : Nat} (hk : k ≤ 7) :
    (afterPeriods k s).engCnt.toNat = k := by
  simp [afterPeriods]; omega

theorem afterPeriods_engCnt_eq_zero (s : State) {k : Nat} (hk : k ≤ 7) :
    (afterPeriods k s).engCnt = 0 ↔ k = 0 := by
  rw [← BitVec.toNat_inj, toNat_afterPeriods_engCnt s hk]; rfl

theorem afterPeriods_engOut (s : State) {k : Nat} (h : k ≠ 0) :
    (afterPeriods k s).engOut = s.data := if_neg h

/-- The byte that `shiftBit` keeps for the event is the outgoing one in every period. -/
theorem afterPeriods_out (s : State) {k : Nat} (hk : k ≤ 7) :
    (if (afterPeriods k s).engCnt = 0 then (afterPeriods k s).data else (afterPeriods k s).engOut) =
      s.data := by
  simp only [afterPeriods_engCnt_eq_zero s hk]
  by_cases h0 : k = 0
  · subst h0; rfl
  · rw [if_neg h0, afterPeriods_engOut s h0]

/-- A period before the last shifts one bit. -/
theorem shiftBit_afterPeriods (s : State) {k : Nat} (hk : k < 7) :
    shiftBit (afterPeriods k s) = afterPeriods (k + 1) s := by
  have hcnt := toNat_afterPeriods_engCnt s (k := k) (by omega)
  unfold shiftBit
  rw [afterPeriods_out s (by omega), hcnt, if_neg (by omega)]
  have hnext : BitVec.ofNat 4 (k + 1) = BitVec.ofNat 4 k + 1 := by
    simp [BitVec.ofNat_add]
  simp [afterPeriods, shifted, hnext, slaveAnswer]

/-- `k` periods, none of them the last, from a counter of 0. -/
theorem shiftBit_iterate {s : State} (h : s.engCnt = 0) {k : Nat} (hk : k ≤ 7) :
    shiftBit^[k] s = afterPeriods k s := by
  induction k with
  | zero => rw [afterPeriods, show BitVec.ofNat 4 0 = s.engCnt from h.symm]; rfl
  | succ k ih => rw [Function.iterate_succ_apply', ih (by omega), shiftBit_afterPeriods s (by omega)]

/-- Taking the answer does not look at the engine's registers. -/
theorem answerTaken_afterPeriods (k : Nat) (s : State) :
    answerTaken (afterPeriods k s) = { answerTaken s with
      data := (afterPeriods k s).data
      engCnt := (afterPeriods k s).engCnt
      engOut := (afterPeriods k s).engOut } := by
  have ha : (afterPeriods k s).answers = s.answers := rfl
  unfold answerTaken
  rw [ha]
  cases s.answers <;> rfl

/-- The last period completes the exchange: the register is the incoming byte. -/
theorem shiftBit_last (s : State) : shiftBit (afterPeriods 7 s) =
    xferComplete s.data (slaveAnswer s) { answerTaken s with engCnt := 0, engOut := s.data } := by
  have hsr : shiftIn (afterPeriods 7 s).data
      (misoBit (slaveAnswer (afterPeriods 7 s)) (afterPeriods 7 s).engCnt.toNat) =
      slaveAnswer s := shifted_eight s.data (slaveAnswer s)
  unfold shiftBit
  rw [afterPeriods_out s le_rfl, hsr, toNat_afterPeriods_engCnt s le_rfl, if_pos le_rfl,
    answerTaken_afterPeriods]
  rfl

/-- Settles O50: seven periods shift, the eighth completes as the byte view does. -/
theorem bitViewRefinesByteView : Obligations.BitViewRefinesByteView := by
  intro s h
  have hcnt : (answerTaken s).engCnt = 0 := by simpa using h
  rw [Function.iterate_succ_apply', shiftBit_iterate h le_rfl, shiftBit_last, shiftByte, ← hcnt]
  rfl

/-! ### The waveform (43_transfer.md R123, 10_state.md R16; log 12) -/

/-- Clock period `k` of the exchange of `o` against `i`. -/
def periodAt (mode : BitVec 2) (o i : Byte) (k : Nat) : Period where
  mosi := o.getLsbD (7 - k)
  mosiBefore := if cpha mode then if k = 0 then none else some (o.getLsbD (8 - k))
    else some (o.getLsbD (7 - k))
  mosiAfter := if cpha mode then some (o.getLsbD (7 - k))
    else if k = 7 then none else some (o.getLsbD (6 - k))
  miso := misoBit i k
  rest := cpol mode
  active := !cpol mode
  sampleLeading := !cpha mode
  changeLeading := cpha mode

/-- The last `n` periods, from the register and the level of MOSI that the periods before them
leave. -/
theorem periodsFrom_shifted (mode : BitVec 2) (o i : Byte) {n k : Nat} (hk : k + n = 8) :
    periodsFrom mode (if k = 0 then none else some (o.getLsbD (8 - k))) (shifted o i k)
        ((List.range' k n).map (misoBit i)) =
      (List.range' k n).map (periodAt mode o i) := by
  induction n generalizing k with
  | zero => rfl
  | succ n ih =>
    have hout := getLsbD_shifted_top o i (k := k) (by omega)
    have hlast : ((List.range' (k + 1) n).map (misoBit i)).isEmpty = true ↔ k = 7 := by
      rw [List.isEmpty_iff, List.map_eq_nil_iff, List.range'_eq_nil_iff]
      omega
    have hrest := ih (k := k + 1) (by omega)
    rw [if_neg (by omega), show 8 - (k + 1) = 7 - k by omega, shifted] at hrest
    simp only [List.range'_succ, List.map_cons, periodsFrom, hout, hrest, hlast]
    congr 1
    unfold periodAt
    congr 1
    by_cases h7 : k = 7
    · simp only [h7, if_true]
    · have hnext := getLsbD_shifted_top o i (k := k + 1) (by omega)
      rw [shifted, show 7 - (k + 1) = 6 - k by omega] at hnext
      rw [if_neg h7, if_neg h7, hnext]

/-- The waveform is its eight periods. -/
theorem waveform_eq (mode : BitVec 2) (o i : Byte) :
    waveform mode o i = (List.range 8).map (periodAt mode o i) := by
  rw [List.range_eq_range']
  exact periodsFrom_shifted mode o i (n := 8) (k := 0) rfl

theorem waveform_getElem? (mode : BitVec 2) (o i : Byte) {k : Nat} (hk : k < 8) :
    (waveform mode o i)[k]? = some (periodAt mode o i k) := by
  simp [waveform_eq, hk]

/-- Settles O51: period `k` is `periodAt`, whose fields are those of the statement. -/
theorem exchangeWaveform : Obligations.ExchangeWaveform := by
  intro mode o i
  refine ⟨by simp [waveform_eq], fun k hk => ?_, fun p hp => ?_⟩
  · rw [waveform_getElem? mode o i hk]
    exact ⟨rfl, rfl, rfl, rfl⟩
  · rw [waveform_eq] at hp
    obtain ⟨k, -, rfl⟩ := List.mem_map.1 hp
    exact ⟨rfl, rfl, rfl, rfl⟩

/-! ### The waveform on the pins (43_transfer.md R123, 10_state.md R30; log 14) -/

section Pins

variable {s : State} (hbusy : s.statBusy = true) (hview : s.bitView = true)
include hbusy hview

/-- Before period `k` MOSI is at the level that period begins with. -/
theorem mosiLevel_afterPeriods {k : Nat} (hk : k ≤ 7) : mosiLevel (afterPeriods k s) =
    (periodAt (cfgMode s.cfg) s.data (slaveAnswer s) k).mosiBefore := by
  have hflight : ((afterPeriods k s).statBusy && (afterPeriods k s).bitView) = true :=
    Bool.and_eq_true_iff.2 ⟨hbusy, hview⟩
  have htop : (afterPeriods k s).data.getLsbD 7 = s.data.getLsbD (7 - k) :=
    getLsbD_shifted_top s.data (slaveAnswer s) (by omega)
  rw [mosiLevel, if_pos hflight, htop, toNat_afterPeriods_engCnt s hk]
  simp only [afterPeriods_engCnt_eq_zero s hk]
  by_cases h0 : k = 0
  · subst h0; rfl
  · rw [if_neg h0, afterPeriods_engOut s h0]
    exact congrArg (ite _ · _) (if_neg h0).symm

theorem misoLevel_afterPeriods {k : Nat} (hk : k ≤ 7) :
    misoLevel (afterPeriods k s) = some (misoBit (slaveAnswer s) k) := by
  have hflight : ((afterPeriods k s).statBusy && (afterPeriods k s).bitView) = true :=
    Bool.and_eq_true_iff.2 ⟨hbusy, hview⟩
  rw [misoLevel, if_pos hflight, toNat_afterPeriods_engCnt s hk]
  rfl

end Pins

/-- The level after a period's trailing edge is the one the next period begins with. -/
theorem periodAt_mosiAfter (mode : BitVec 2) (o i : Byte) {k : Nat} (hk : k < 7) :
    (periodAt mode o i k).mosiAfter = (periodAt mode o i (k + 1)).mosiBefore := by
  simp only [periodAt, Nat.add_one_ne_zero, if_false, Nat.ne_of_lt hk]
  rw [show 8 - (k + 1) = 7 - k by omega, show 7 - (k + 1) = 6 - k by omega]

theorem mosiPin_of_output {s : State} (h : mosiOe s = true) : mosiPin s = mosiLevel s := if_pos h

/-- SCK is at rest between two periods of the bit view. -/
theorem sckPin_of_output {s : State} (hen : cfgEn s.cfg = true) (hsck : sckOe s = true)
    (hview : s.bitView = true) : sckPin s = some (cpol (cfgMode s.cfg)) := by
  simp [sckPin, sckLevel, hen, hsck, hview]

/-- Settles O52: the pins before period `k` are those of `afterPeriods k`, after it those of
`afterPeriods (k + 1)`. -/
theorem bitViewShowsTheWaveform : Obligations.BitViewShowsTheWaveform := by
  refine ⟨fun s k p hcnt hbusy hview hen hsck hmosi hp => ?_,
    fun s => ⟨fun h => by simp [sckPin, h], fun h => by simp [mosiPin, h]⟩⟩
  have hk : k < 8 := by
    simpa [waveform_eq] using (List.getElem?_eq_some_iff.1 hp).1
  obtain rfl : periodAt (cfgMode s.cfg) s.data (slaveAnswer s) k = p :=
    Option.some.inj ((waveform_getElem? _ _ _ hk).symm.trans hp)
  have hmosiPin (j : Nat) (hj : j ≤ 7) : mosiPin (shiftBit^[j] s) =
      (periodAt (cfgMode s.cfg) s.data (slaveAnswer s) j).mosiBefore := by
    rw [shiftBit_iterate hcnt hj, mosiPin_of_output (by exact hmosi),
      mosiLevel_afterPeriods hbusy hview hj]
  refine ⟨hmosiPin k (by omega), ?sck, ?miso, fun h7 => ?after⟩
  case sck =>
    rw [shiftBit_iterate hcnt (by omega)]
    exact sckPin_of_output (s := afterPeriods k s) hen hsck hview
  case miso =>
    rw [shiftBit_iterate hcnt (by omega), misoLevel_afterPeriods hbusy hview (by omega)]
    rfl
  case after => rw [hmosiPin (k + 1) h7, periodAt_mosiAfter _ _ _ h7]

end Sys2Proof.Machine

/-! Whole transfers (43_transfer.md), from the host's word to completion, while the environment makes
no move: WR and RD, then the bursts WRB and RDB by induction on the answers. -/

namespace Sys2Proof.Machine

/-! ### Acceptance, a micro-step, an exchange -/

/-- Between two exchanges, and nothing is in the way of the next: the environment has no turn, CFG
enables the engine, the slave is wired, the engine is in the byte view (log 8, 10, 11). -/
structure Undisturbed (s : State) : Prop where
  unscheduled : s.turns = []
  notBusy : s.statBusy = false
  enabled : cfgEn s.cfg = true
  master : cfgMstr s.cfg = true
  wired : s.wired = true
  byteView : s.bitView = false

/-- `s` once the word of `i` has been accepted and before `i` starts; `words` are the words left. -/
def accepted (i : Instr) (words : List Word) (s : State) : State :=
  { s with host := words, hist := s.hist ++ [.accept (encode i) s.time] }

/-- The accept step of a transfer command, when the host presents its word. -/
theorem step_transfer_accepted {i : Instr} (hi : isTransfer i = true) {s : State}
    {words : List Word} (hu : Undisturbed s) (hready : ready s = true)
    (hhost : s.host = encode i :: words) (hinit : s.sessInited = true) (hsel : s.sessSelv = true) :
    step s = .next (start i (accepted i words s)) := by
  have hturns : s.turns.tail = s.turns := by rw [hu.unscheduled]; rfl
  rw [presentedWordIsExecuted s (encode i) words i (.inl hu.unscheduled) hready hhost
    (decodeOfEncode i), hturns]
  exact exec_transfer_start (s := accepted i words s) hi hready hinit hsel

/-- With no exchange in flight the step is the sequencer's. -/
theorem step_microOf {i : Instr} {p : Nat} {s : State} (hu : Undisturbed s)
    (hrun : runningAt s i p) : step s = .next (microOf i p s) := by
  have ⟨hf, hc, _⟩ := hrun
  have hoff := engineEnabled_of_idle hu.notBusy
  rw [(runningCommandIsExecuted s i (.inl hu.unscheduled) hf hc).1 hoff,
    turnTaken_nil hu.unscheduled, exec_running hrun]

/-- `s` after the load of `out` and the shift step that receives `inp`; `rest` are the answers left. -/
def exchanged (out inp : Byte) (rest : List Byte) (s : State) : State :=
  { s with
    data := inp, dataKnown := true, statTc := true, statBusy := false, answers := rest
    seq := { s.seq with phase := 2 }
    hist := s.hist ++
      [.xferStart out (cfgMode s.cfg) (cfgDbl s.cfg) s.time, .xferEnd out inp s.time] }

theorem exchanged_undisturbed {out inp : Byte} {rest : List Byte} {s : State} (hu : Undisturbed s) :
    Undisturbed (exchanged out inp rest s) := { hu with notBusy := rfl }

theorem exchanged_running {out inp : Byte} {rest : List Byte} {i : Instr} {p : Nat} {s : State}
    (hrun : runningAt s i p) : runningAt (exchanged out inp rest s) i 2 :=
  have ⟨hf, hc, _⟩ := hrun
  ⟨hf, hc, rfl⟩

/-- The step after the load of `out` is the shift step. -/
theorem step_after_load {i : Instr} {out inp : Byte} {rest : List Byte} {s : State}
    (hu : Undisturbed s) (hrun : runningAt s i 1) (ha : s.answers = inp :: rest) :
    step (goto 2 (load out s)) = .next (exchanged out inp rest s) := by
  have ⟨hf, hc, _⟩ := hrun
  have he : engineEnabled (goto 2 (load out s)) = true :=
    (engineEnabled_iff _).2 ⟨rfl, hu.enabled, hu.master⟩
  rw [step_shiftByte (s := goto 2 (load out s)) (.inl hu.unscheduled) hf hc he hu.wired hu.byteView,
    turnTaken_nil (s := goto 2 (load out s)) hu.unscheduled, shiftByte,
    slaveAnswer_cons (s := goto 2 (load out s)) ha, answerTaken_cons (s := goto 2 (load out s)) ha,
    exchanged, List.append_cons]
  rfl

/-- A load is answered by one shift step. -/
theorem run_exchange {i : Instr} {out inp : Byte} {rest : List Byte} {s : State}
    (hu : Undisturbed s) (hrun : runningAt s i 1) (hload : microOf i 1 s = goto 2 (load out s))
    (ha : s.answers = inp :: rest) (n : Nat) :
    Host.Core.run Sys2Proof.core (n + 2) s =
      Host.Core.run Sys2Proof.core n (exchanged out inp rest s) := by
  have hfirst : step s = .next (goto 2 (load out s)) := by rw [step_microOf hu hrun, hload]
  rw [run_succ (n + 1) hfirst, run_succ n (step_after_load hu hrun ha)]

/-! ### A whole WR or RD (43_transfer.md R124, R128) -/

/-- Settles O53: acceptance, the exchange, the poll that answers DATA. -/
theorem singleTransferAnswersSlaveByte : Obligations.SingleTransferAnswersSlaveByte := by
  intro i o a s words rest hio hturns hready hhost hinit hsel hbusy hen hms hw hv ha
  have hm := exchangesByte_microOf hio
  have hu : Undisturbed s := ⟨hturns, hbusy, hen, hms, hw, hv⟩
  have haccept := step_transfer_accepted (exchangesByte_isTransfer hio) hu hready hhost hinit hsel
  have hrun : runningAt (start i (accepted i words s)) i 1 := start_running i hready
  have hu' : Undisturbed (start i (accepted i words s)) := { hu with }
  have hpoll := step_microOf (exchanged_undisturbed (out := o) (inp := a) (rest := rest) hu')
    (exchanged_running hrun)
  rw [hm, singlePhase_answer i o rfl] at hpoll
  rw [run_succ 3 haccept, run_exchange hu' hrun (by rw [hm]; rfl) ha 1, run_succ 0 hpoll]
  simp [Host.Core.run, doneVal, record, exchanged, start, accepted, hbusy]

/-! ### The end of a burst -/

/-- `s` after the rest of a burst of `i`: the events `es`, the buffer `m`, the answers `ins` received
and `rest` left, IDX at `len`. -/
def burstDone (i : Instr) (len : Byte) (es : List Event) (m : List Host.Cell) (ins rest : List Byte)
    (s : State) : State :=
  { s with
    answers := rest, buf := m
    data := ins.getLast?.getD s.data
    dataKnown := s.dataKnown || decide (ins ≠ [])
    statTc := s.statTc || decide (ins ≠ [])
    seq := { s.seq with cmd := none, phase := 1, idx := len }
    hist := s.hist ++ es ++ [.done (encode i) none s.time] }

/-- When IDX is `len` the next step ends the burst. -/
theorem run_burst_end {i : Instr} {len : Byte} {rest : List Byte} {s : State} (hu : Undisturbed s)
    (hrun : runningAt s i 1) (hidx : s.seq.idx = len) (hend : microOf i 1 s = done i s)
    (ha : s.answers = rest) :
    Host.Core.run Sys2Proof.core 1 s = .next (burstDone i len [] s.buf [] rest s) := by
  have ⟨_, _, hp⟩ := hrun
  rw [run_succ 0 ((step_microOf hu hrun).trans (congrArg _ hend))]
  simp [Host.Core.run, burstDone, done, record, ← ha, ← hidx, ← hp]

/-- IDX is not `len` while answers are left, and one round brings it one nearer. -/
theorem idx_before_round {idx len : Byte} {n : Nat} (h : idx.toNat + (n + 1) = len.toNat) :
    idx ≠ len ∧ (idx + 1).toNat + n = len.toNat := by
  have hlen := len.isLt
  refine ⟨by rintro rfl; omega, ?_⟩
  rw [BitVec.toNat_add, show (1 : Byte).toNat = 1 from rfl, Nat.mod_eq_of_lt (by omega)]
  omega

/-- Address `k + 1` from `a` is address `k` from the next one. -/
theorem address_succ (a : Byte) (k : Nat) :
    a + BitVec.ofNat 8 (k + 1) = a + 1 + BitVec.ofNat 8 k := by
  rw [Nat.add_comm k 1, BitVec.ofNat_add, ← BitVec.add_assoc]
  rfl

/-- A burst received something exactly when its length is not 0. -/
theorem ins_ne_nil_iff {ins : List Byte} {len : Byte} (h : ins.length = len.toNat) :
    ins ≠ [] ↔ len ≠ 0 := by
  rw [ne_eq, ← List.length_eq_zero_iff, h, ne_eq, ← BitVec.toNat_inj]
  rfl

/-! ### A whole WRB (43_transfer.md R126, R127) -/

/-- WRB's state after one round: the exchange, then IDX raised. -/
def wroteOne (out inp : Byte) (rest : List Byte) (s : State) : State :=
  goto 1 (nextIdx (exchanged out inp rest s))

/-- One round of WRB: the load, the shift step, the poll. -/
theorem run_wrb_round {base len out inp : Byte} {rest : List Byte} {s : State}
    (hu : Undisturbed s) (hrun : runningAt s (.wrb base len) 1) (hidx : s.seq.idx ≠ len)
    (hout : bufAt s (base + s.seq.idx) = some out) (ha : s.answers = inp :: rest) (n : Nat) :
    Host.Core.run Sys2Proof.core (n + 3) s =
      Host.Core.run Sys2Proof.core n (wroteOne out inp rest s) := by
  have hload : microOf (.wrb base len) 1 s = goto 2 (load out s) := by
    rw [microOf_wrb_load base hidx, wrbLoad, bufRead, ea, hout]
  have hpoll := step_microOf (exchanged_undisturbed (out := out) (inp := inp) (rest := rest) hu)
    (exchanged_running hrun)
  rw [microOf_wrb_poll base len rfl] at hpoll
  rw [run_exchange hu hrun hload ha (n + 1), run_succ n hpoll]
  rfl

/-- From any IDX on, WRB sends what is left of the burst and ends. -/
theorem run_wrb_rounds {base len : Byte} {rest : List Byte} {outs ins : List Byte} {s : State}
    (hu : Undisturbed s) (hrun : runningAt s (.wrb base len) 1)
    (hlen : s.seq.idx.toNat + ins.length = len.toNat) (houts : outs.length = ins.length)
    (ha : s.answers = ins ++ rest)
    (hbuf : ∀ k, k < ins.length → bufAt s (base + s.seq.idx + BitVec.ofNat 8 k) = outs[k]?) :
    Host.Core.run Sys2Proof.core (3 * ins.length + 1) s =
      .next (burstDone (.wrb base len) len
        (writeBurstEvents (cfgMode s.cfg) (cfgDbl s.cfg) s.time outs ins) s.buf ins rest s) := by
  induction ins generalizing outs s with
  | nil =>
    obtain rfl : outs = [] := List.eq_nil_of_length_eq_zero houts
    have hidx : s.seq.idx = len := BitVec.eq_of_toNat_eq hlen
    exact run_burst_end hu hrun hidx (microOf_wrb_end base hidx) ha
  | cons inp ins ih =>
    have hcons : s.answers = inp :: (ins ++ rest) := ha
    obtain ⟨out, outs, rfl⟩ := List.exists_cons_of_length_eq_add_one houts
    obtain ⟨hidx, hlen'⟩ := idx_before_round hlen
    have ⟨hf, hc, _⟩ := hrun
    have hout : bufAt s (base + s.seq.idx) = some out := by
      simpa using hbuf 0 (Nat.succ_pos _)
    have hrest : ∀ k, k < ins.length →
        bufAt s (base + (s.seq.idx + 1) + BitVec.ofNat 8 k) = outs[k]? := fun k hk => by
      have hk' := hbuf (k + 1) (Nat.succ_lt_succ hk)
      rwa [address_succ, BitVec.add_assoc base] at hk'
    have hloop := ih (s := wroteOne out inp (ins ++ rest) s) { hu with notBusy := rfl }
      ⟨hf, hc, rfl⟩ hlen' (Nat.succ.inj houts) rfl hrest
    rw [show 3 * (inp :: ins).length + 1 = 3 * ins.length + 1 + 3 by simp; omega,
      run_wrb_round hu hrun hidx hout hcons, hloop]
    simp [burstDone, wroteOne, exchanged, goto, nextIdx, writeBurstEvents, List.getLast?_cons,
      hu.notBusy]

/-- Settles O54: acceptance, then `run_wrb_rounds` from IDX 0. -/
theorem burstWriteSendsBufferInOrder : Obligations.BurstWriteSendsBufferInOrder := by
  intro base len s words outs ins rest hturns hready hhost hinit hsel hbusy hen hms hw hv
    houts hins ha hbuf
  have hu : Undisturbed s := ⟨hturns, hbusy, hen, hms, hw, hv⟩
  have haccept := step_transfer_accepted rfl hu hready hhost hinit hsel
  have hloop := run_wrb_rounds (s := start (.wrb base len) (accepted (.wrb base len) words s))
    { hu with } (start_running _ hready) (by simpa using hins) (houts.trans hins.symm) ha
    (fun k hk => by
      have hk' := hbuf k (hins ▸ hk)
      rwa [← BitVec.add_zero base] at hk')
  rw [hins] at hloop
  rw [run_succ _ haccept, hloop]
  simp [burstDone, start, accepted, ins_ne_nil_iff hins]

/-! ### A whole RDB (43_transfer.md R130, R131) -/

/-- The buffer `m` with the bytes `ins` stored from address `a` on, wrapping at 256. -/
def storedFrom (m : List Host.Cell) (a : Byte) : List Byte → List Host.Cell
  | [] => m
  | b :: ins => storedFrom (memStore m a.toNat b) (a + 1) ins

/-- No other byte changes. -/
theorem memLookup_storedFrom_other {ins : List Byte} {m : List Host.Cell} {a x : Byte}
    (h : ∀ k, k < ins.length → x ≠ a + BitVec.ofNat 8 k) :
    memLookup (storedFrom m a ins) x.toNat = memLookup m x.toNat := by
  induction ins generalizing m a with
  | nil => rfl
  | cons b ins ih =>
    have hx : x ≠ a := by simpa using h 0 (Nat.succ_pos _)
    have hrest : ∀ k, k < ins.length → x ≠ a + 1 + BitVec.ofNat 8 k := fun k hk => by
      rw [← address_succ]; exact h (k + 1) (Nat.succ_lt_succ hk)
    rw [storedFrom, ih hrest, memLookup_memStore_other _ _ _ _ (mt BitVec.eq_of_toNat_eq hx)]

/-- Byte `k` is at address `a + k`: fewer than 256 more bytes do not come round to it again. -/
theorem memLookup_storedFrom {ins : List Byte} {m : List Host.Cell} {a : Byte} {k : Nat}
    (hlen : ins.length ≤ 256) (hk : k < ins.length) :
    memLookup (storedFrom m a ins) (a + BitVec.ofNat 8 k).toNat = ins[k]? := by
  induction ins generalizing m a k with
  | nil => exact absurd hk (Nat.not_lt_zero k)
  | cons b ins ih =>
    rw [List.length_cons] at hlen hk
    cases k with
    | zero =>
      have hother : ∀ j, j < ins.length → a ≠ a + 1 + BitVec.ofNat 8 j := fun j hj h => by
        have ha := a.isLt
        have h' := congrArg BitVec.toNat h
        rw [← address_succ, BitVec.toNat_add, BitVec.toNat_ofNat] at h'
        omega
      rw [show a + BitVec.ofNat 8 0 = a from BitVec.add_zero a, storedFrom,
        memLookup_storedFrom_other hother]
      exact memLookup_memStore_same m a.toNat b
    | succ k =>
      rw [address_succ, storedFrom]
      exact ih (by omega) (by omega)

/-- RDB's state after one round: the exchange of 0x00, the answer stored, IDX raised. -/
def readOne (base inp : Byte) (rest : List Byte) (s : State) : State :=
  goto 1 (nextIdx (bufWrite (base + s.seq.idx) inp (exchanged 0x00 inp rest s)))

/-- One round of RDB: the load, the shift step, the poll. -/
theorem run_rdb_round {base len inp : Byte} {rest : List Byte} {s : State} (hu : Undisturbed s)
    (hrun : runningAt s (.rdb base len) 1) (hidx : s.seq.idx ≠ len)
    (ha : s.answers = inp :: rest) (n : Nat) :
    Host.Core.run Sys2Proof.core (n + 3) s =
      Host.Core.run Sys2Proof.core n (readOne base inp rest s) := by
  have hpoll := step_microOf (exchanged_undisturbed (out := 0x00) (inp := inp) (rest := rest) hu)
    (exchanged_running hrun)
  rw [microOf_rdb_poll base len rfl] at hpoll
  rw [run_exchange hu hrun (microOf_rdb_load base hidx) ha (n + 1), run_succ n hpoll]
  rfl

/-- From any IDX on, RDB stores what is left of the burst and ends. -/
theorem run_rdb_rounds {base len : Byte} {rest : List Byte} {ins : List Byte} {s : State}
    (hu : Undisturbed s) (hrun : runningAt s (.rdb base len) 1)
    (hlen : s.seq.idx.toNat + ins.length = len.toNat) (ha : s.answers = ins ++ rest) :
    Host.Core.run Sys2Proof.core (3 * ins.length + 1) s =
      .next (burstDone (.rdb base len) len
        (readBurstEvents (cfgMode s.cfg) (cfgDbl s.cfg) s.time (base + s.seq.idx) ins)
        (storedFrom s.buf (base + s.seq.idx) ins) ins rest s) := by
  induction ins generalizing s with
  | nil =>
    have hidx : s.seq.idx = len := BitVec.eq_of_toNat_eq hlen
    exact run_burst_end hu hrun hidx (microOf_rdb_end base hidx) ha
  | cons inp ins ih =>
    have hcons : s.answers = inp :: (ins ++ rest) := ha
    obtain ⟨hidx, hlen'⟩ := idx_before_round hlen
    have ⟨hf, hc, _⟩ := hrun
    have hloop := ih (s := readOne base inp (ins ++ rest) s) { hu with notBusy := rfl }
      ⟨hf, hc, rfl⟩ hlen' rfl
    rw [show 3 * (inp :: ins).length + 1 = 3 * ins.length + 1 + 3 by simp; omega,
      run_rdb_round hu hrun hidx hcons, hloop]
    simp [burstDone, readOne, exchanged, goto, nextIdx, bufWrite, record, readBurstEvents, storedFrom,
      List.getLast?_cons, BitVec.add_assoc, hu.notBusy]

/-- Settles O55: acceptance, then `run_rdb_rounds` from IDX 0; the buffer is `storedFrom`, of at most
255 bytes. -/
theorem burstReadStoresAnswersInOrder : Obligations.BurstReadStoresAnswersInOrder := by
  intro base len s words ins rest hturns hready hhost hinit hsel hbusy hen hms hw hv hins ha
  have hu : Undisturbed s := ⟨hturns, hbusy, hen, hms, hw, hv⟩
  have haccept := step_transfer_accepted rfl hu hready hhost hinit hsel
  have hloop := run_rdb_rounds (s := start (.rdb base len) (accepted (.rdb base len) words s))
    { hu with } (start_running _ hready) (by simpa using hins) ha
  have hmax : ins.length ≤ 256 := hins ▸ Nat.le_of_lt len.isLt
  refine ⟨storedFrom s.buf base ins, ?run, fun k hk => memLookup_storedFrom hmax (hins ▸ hk),
    fun a h => memLookup_storedFrom_other (hins ▸ h)⟩
  case run =>
    rw [hins] at hloop
    rw [run_succ _ haccept, hloop]
    simp [burstDone, start, accepted, ins_ne_nil_iff hins]

end Sys2Proof.Machine

/-! Host access (44_host_access.md): RDR, its reserved register numbers, and STB and LDB from
acceptance to completion. -/

namespace Sys2Proof.Machine

/-- A command with a failing check faults at a ready block (60_exceptions.md R150). -/
theorem exec_ready_raise {i : Instr} {c : Cause} {s : State} (h : ready s = true)
    (hk : checkOf i s = some c) : exec i s = .next (raise c (encode i) s) := by
  rw [exec_ready h, accept_of_check_some hk]

/-! ### RDR's check (44_host_access.md R143) -/

theorem rdrCheck_of_reserved {r : Byte} (h : regOf r = none) (s : State) :
    rdrCheck r s = some .illegalCommand := by
  simp [rdrCheck, firstFailing, h]

theorem rdrCheck_eq_none (r : Byte) (s : State) : rdrCheck r s = none ↔ regOf r ≠ none := by
  simp [rdrCheck, firstFailing_none, Option.isSome_iff_ne_none]

/-! ### RDR of a register (44_host_access.md R142, 20_memory.md R57) -/

/-- The specified bits of a read are those of the stored value. -/
theorem withFree_and_not (v u free : Half) : withFree v u free &&& ~~~u = v &&& ~~~u := by
  refine BitVec.eq_of_getLsbD_eq fun k hk => ?_
  rw [BitVec.getLsbD_and, BitVec.getLsbD_and, getLsbD_withFree]
  cases hu : u.getLsbD k <;> simp [hu]

theorem rdrStep_of_register {r : Byte} {n : RegName} (h : regOf r = some n) (s : State) :
    rdrStep r s = doneVal (.rdr r) (regRead s n) (drawn s) := by
  rw [rdrStep, h]

/-- The start of a command touches no register that RDR can read. -/
theorem regRead_start (i : Instr) (s : State) (n : RegName) : regRead (start i s) n = regRead s n :=
  rfl

/-- Settles O44: the check passes for a number of the map, and the one step answers `regRead`, whose
specified bits are those of `withFree_and_not`. -/
theorem registerReadCompletes : Obligations.RegisterReadCompletes := by
  intro s r n hready hr
  refine ⟨exec_ready_start hready ((rdrCheck_eq_none r s).2 (by simp [hr])),
    regRead s n, s.fresh + 1, withFree_and_not _ _ _, ?_⟩
  calc exec (.rdr r) (start (.rdr r) s)
      = .next (rdrStep r (start (.rdr r) s)) := exec_start hready
    _ = .next (doneVal (.rdr r) (regRead s n) (drawn (start (.rdr r) s))) := by
      rw [rdrStep_of_register hr, regRead_start]
    _ = _ := rfl

/-! ### The reserved register numbers (44_host_access.md R143) -/

/-- The numbers that R143 lists are those outside the map of R56. -/
theorem regOf_eq_none_iff (r : Byte) : regOf r = none ↔
    (5 ≤ r.toNat ∧ r.toNat ≤ 7) ∨ (∃ k, k ≤ 7 ∧ r.toNat = 0x13 + 4 * k) ∨ 0x30 ≤ r.toNat := by
  have gaps (m : Nat) :
      (0x13 ≤ m ∧ m ≤ 0x2F) ∧ (m - 0x13) % 4 = 0 ↔ ∃ k, k ≤ 7 ∧ m = 0x13 + 4 * k := by
    constructor
    · exact fun _ => ⟨(m - 0x13) / 4, by omega, by omega⟩
    · rintro ⟨k, hk, rfl⟩
      omega
  rw [← Option.isNone_iff_eq_none, ← reservedRegNum_eq]
  simp [reservedRegNum, ← gaps, or_assoc]

theorem encode_rdr (r : Byte) : encode (.rdr r) = 0x13000000 ||| r.setWidth 32 := rfl

/-- Settles O45: the reserved numbers are those of `regOf_eq_none_iff`, and for these alone RDR's
check fails. -/
theorem reservedRegisterNumbers : Obligations.ReservedRegisterNumbers := by
  intro s r hready
  rw [← regOf_eq_none_iff, ← encode_rdr]
  exact ⟨fun hr => exec_ready_raise (i := .rdr r) hready (rdrCheck_of_reserved hr s),
    fun hr => exec_ready_start hready ((rdrCheck_eq_none r s).2 hr)⟩

/-! ### STB and LDB (44_host_access.md R140, R141) -/

theorem ldbStep_of_bufRead {a b : Byte} {s t : State} (h : bufRead a s = (b, t)) :
    ldbStep a s = doneVal (.ldb a) (b.setWidth 16) t := by
  rw [ldbStep, h]

/-- Settles O43: neither command makes a check; STB's listing is that of `bufWrite`, and LDB's byte
that of `bufRead_eq`. -/
theorem hostAccessCompletes : Obligations.HostAccessCompletes := by
  intro s hready
  refine ⟨fun a b => ?stb, fun a => ?ldb⟩
  case stb =>
    obtain ⟨hstart, hstep⟩ :=
      onePhase_completes (i := .stb a b) (write := bufWrite a b) hready rfl rfl
    refine ⟨hstart, (bufWrite a b s).buf, fun x => bufAt_bufWrite a b x s, ?_⟩
    rw [hstep, List.append_cons]
    rfl
  case ldb =>
    obtain ⟨b, fr, hb, hread⟩ := bufRead_eq a (start (.ldb a) s)
    refine ⟨exec_ready_start hready rfl, b, fr, hb, ?_⟩
    calc exec (.ldb a) (start (.ldb a) s)
        = .next (ldbStep a (start (.ldb a) s)) := exec_start hready
      _ = .next (doneVal (.ldb a) (b.setWidth 16) { start (.ldb a) s with fresh := fr }) := by
        rw [ldbStep_of_bufRead hread]
      _ = _ := rfl

end Sys2Proof.Machine

/-! Exceptions (60_exceptions.md): the checks at acceptance and the faults they raise, what a fault
leaves of the machine, and the hangs, which are no faults. -/

namespace Sys2Proof.Machine

/-! ### Nothing is refused or stuck (60_exceptions.md R170) -/

/-- Settles O12: a listed move of the environment always has its next state, and so has the block's
step. -/
theorem everyStepAnswersNextState : Obligations.EveryStepAnswersNextState := by
  intro s
  cases hturns : s.turns with
  | nil => rw [step_block (.inl hturns)]; exact blockStep_total _
  | cons turn rest =>
    cases turn with
    | env m => exact ⟨_, step_env hturns⟩
    | block => rw [step_block (.inr (by rw [hturns]; rfl))]; exact blockStep_total _

/-! ### After a fault (60_exceptions.md R151, R162, R171) -/

theorem exec_faulted {s : State} (hf : faulted s = true) (i : Instr) :
    exec i s = .fault .portNotReady := by
  rw [exec_eq_command, command, if_pos hf]

theorem ready_faulted {s : State} (hf : faulted s = true) : ready s = false := by
  simp [ready, hf]

/-- `t` is `s` but for time, pin directions, draws, the schedule, the wiring and whether time
runs. -/
def OnlyEnvironmentMoved (s t : State) : Prop :=
  ∃ tm cd fr tu wi ru, t = { s with
    time := tm, csdir := cd, fresh := fr, turns := tu, wired := wi, timeRuns := ru }

theorem onlyEnvironmentMoved_envMove {m : EnvMove} (s : State) (hm : m ≠ .rst) :
    OnlyEnvironmentMoved s (envMove m (turnTaken s)) := by
  cases m with
  | rst => exact absurd rfl hm
  | _ => exact ⟨_, _, _, _, _, _, rfl⟩

/-- A faulted block has no step but the wait (10_state.md R43 (e)). -/
theorem step_faulted {s t : State} (hf : faulted s = true) (h : step s = .next t)
    (hr : ¬ resetNext s) : OnlyEnvironmentMoved s t := by
  obtain ⟨m, hm, rfl⟩ | ⟨-, hb⟩ := step_cases h
  · exact onlyEnvironmentMoved_envMove s (by rintro rfl; exact hr hm)
  · cases (blockStep_faulted (s := turnTaken s) hf).symm.trans hb
    exact ⟨_, _, _, _, _, _, rfl⟩

/-- Settles O23: the port is not ready, no command has a step, and `step_faulted` is the rest. -/
theorem faultIsTerminalUntilReset : Obligations.FaultIsTerminalUntilReset :=
  fun _ hf => ⟨ready_faulted hf, exec_faulted hf, fun _ h hr => step_faulted hf h hr⟩

/-! ### Where a fault comes from (60_exceptions.md R150, R151) -/

/-- Of the environment's moves only the reset writes FCAUSE, and it clears it. -/
theorem faulted_of_envMove {m : EnvMove} {s : State} (h : faulted (envMove m s) = true) :
    faulted s = true := by
  cases m with
  | rst => cases h
  | _ => exact h

theorem engineStep_fcause {s t : State} (he : EngineStep s t) : t.fcause = s.fcause := by
  cases he <;> rfl

/-- The block's step writes FCAUSE only where the ready block refuses the word that the host
presents, an illegal one or a command with a failing check. -/
theorem blockStep_fcause {s t : State} (h : blockStep s = .next t) : t.fcause = s.fcause ∨
    (ready s = true ∧ ∃ w rest c, s.host = w :: rest ∧
      t = raise c w (record (.accept w s.time) { s with host := rest })) := by
  obtain ⟨-, rfl⟩ | ⟨hf, hc, w, rest, i, hh, hd, rfl⟩ |
    ⟨hf, hc, w, rest, e, hh, -, rfl⟩ | ⟨-, -, -, -, rfl⟩ | ⟨-, -, i, -, rfl⟩ := blockStep_cases h
  · exact .inl rfl
  · obtain ⟨c, -, ha⟩ | ⟨-, ha⟩ :=
      accept_cases i (checkOf i) (record (.accept w s.time) { s with host := rest })
    · rw [encodeOfDecode w i hd] at ha
      exact .inr ⟨(ready_iff s).2 ⟨hc, hf⟩, w, rest, c, hh, ha⟩
    · exact .inl (by rw [ha]; rfl)
  · exact .inr ⟨(ready_iff s).2 ⟨hc, hf⟩, w, rest, .illegalCommand, hh, rfl⟩
  · exact .inl (engineStep_fcause (engineStep_engineStep s))
  · exact .inl (microStep_frame (microStep_microOf i s)).1

/-- Settles O24: no move of the environment raises a fault, and the block raises it only at
acceptance. -/
theorem faultOnlyInTheAcceptStep : Obligations.FaultOnlyInTheAcceptStep := by
  intro s t h hs ht
  obtain ⟨m, -, rfl⟩ | ⟨hturn, hb⟩ := step_cases h
  · exact absurd (hs.symm.trans (faulted_of_envMove (s := turnTaken s) ht)) (by decide)
  · obtain hkept | ⟨hready, w, rest, c, hh, rfl⟩ := blockStep_fcause hb
    · exact absurd (ht.symm.trans ((faulted_congr (s := s) hkept).trans hs)) (by decide)
    · refine ⟨hturn, hready, w, rest, c, hh, causeCode_ne_zero c, ?_⟩
      rw [List.append_cons]
      rfl

/-! ### The checks in order (60_exceptions.md R160) -/

/-- The next state of an accept step that has the given checks still to make. -/
def checked (i : Instr) (s : State) : List (Bool × Cause) → State
  | [] => start i s
  | (bad, c) :: rest =>
    if bad then faultEntry (causeCode c) c (encode i) s else checked i s rest

theorem accept_eq_checked {i : Instr} {check : State → Option Cause} {l : List (Bool × Cause)}
    {s : State} (hl : check s = firstFailing l) : accept i check s = checked i s l := by
  induction l generalizing check with
  | nil => exact accept_of_check_none hl
  | cons x rest ih =>
    obtain ⟨bad, c⟩ := x
    cases bad with
    | true => exact accept_of_check_some hl
    | false => exact ih hl

/-- The accept step of a command makes its checks one after the other. -/
theorem exec_ready_checked {i : Instr} {l : List (Bool × Cause)} {s : State} (h : ready s = true)
    (hl : checkOf i s = firstFailing l) : exec i s = .next (checked i s l) := by
  rw [exec_ready h, accept_eq_checked hl]

/-- An id is the selected one as a byte exactly when it is as a number. -/
theorem setWidth_ne_iff_toNat_ne (x : BitVec 3) (id : Byte) :
    x.setWidth 8 ≠ id ↔ x.toNat ≠ id.toNat := by
  rw [Ne, ← BitVec.toNat_inj, BitVec.toNat_setWidth_of_le (by decide)]

theorem checkOf_hostAccess {i : Instr} (hi : isHostAccess i = true) (hr : ∀ r, i ≠ .rdr r)
    (s : State) : checkOf i s = none := by
  cases i with
  | rdr r => exact absurd rfl (hr r)
  | lddLine | lddMode | lddSeld | lddDesd | stb | ldb => rfl
  | _ => cases hi

/-- Settles O31: each list of checks is the command's own, one after the other; after a fault only
the environment moves. -/
theorem checksInOrder : Obligations.ChecksInOrder := by
  refine ⟨fun s w e hd => acceptWord_illegal s hd, fun s h => ⟨fun d => ?init, fun id => ?reg,
    fun id => ?sel, fun id => ?des, fun i hi => ?transfer, fun i hi hr => ?hostAccess,
    fun r => ?rdr⟩, fun s t hf ht hr => ?faulted⟩
  case init => exact exec_ready_checked (i := .init d) h rfl
  case reg => simp [exec_ready_checked (i := .reg id) h rfl, checked, causeCode]
  case sel => simp [exec_ready_checked (i := .sel id) h rfl, checked, causeCode]
  case des =>
    simp [exec_ready_checked (i := .des id) h rfl, checked, causeCode, ← setWidth_ne_iff_toNat_ne]
  case transfer =>
    have hl : checkOf i s = firstFailing _ := congrFun (checkOf_transfer hi) s
    simp [exec_ready_checked h hl, checked, causeCode]
  case hostAccess => exact exec_ready_start h (checkOf_hostAccess hi hr s)
  case rdr => exact exec_ready_checked (i := .rdr r) h rfl
  case faulted =>
    obtain ⟨_, _, _, _, _, _, rfl⟩ := step_faulted hf ht hr
    exact ⟨rfl, rfl, rfl⟩

/-! ### NOT_INITIALISED and REINIT (60_exceptions.md R154, R155) -/

/-- Before INIT, INITED is the first check of the other seven source commands. -/
theorem checkOf_not_initialised {i : Instr} {s : State} (hs : s.sessInited = false)
    (hi : isHostAccess i = false) (hinit : ∀ d, i ≠ .init d) :
    checkOf i s = some .notInitialised := by
  cases i with
  | init d => exact absurd rfl (hinit d)
  | reg | sel | des | wr | wrb | rd | rdb =>
    simp [checkOf, regCheck, selCheck, desCheck, xferCheck, firstFailing, hs]
  | _ => cases hi

/-- The spec's own commands have no check but RDR's for a reserved number. -/
theorem cause_of_hostAccess {i : Instr} {c : Cause} {s : State} (hi : isHostAccess i = true)
    (hk : checkOf i s = some c) : c = .illegalCommand := by
  cases i with
  | rdr r =>
    obtain ⟨-, hc⟩ : regOf r = none ∧ c = .illegalCommand := by simpa using firstFailing_some hk
    exact hc
  | lddLine | lddMode | lddSeld | lddDesd | stb | ldb => cases hk
  | _ => cases hi

/-- A command's step leaves FCAUSE 0, or is the fault of its failing check. -/
theorem exec_fcause {i : Instr} {s t : State} (h : exec i s = .next t) :
    t.fcause = 0 ∨ ∃ c, checkOf i s = some c ∧ t.fcause = causeCode c := by
  obtain ⟨hf, ⟨-, rfl⟩ | ⟨-, rfl⟩⟩ := exec_next h
  · obtain ⟨c, hk, ha⟩ | ⟨-, ha⟩ := accept_cases i (checkOf i) s
    · exact .inr ⟨c, hk, by rw [ha]; rfl⟩
    · exact .inl (by simpa [ha, faulted] using hf)
  · have hkept : (microOf i s.seq.phase s).fcause = s.fcause :=
      (microStep_frame (microStep_microOf i s)).1
    exact .inl (by simpa [hkept, faulted] using hf)

/-- Settles O32: the first check of the source commands, and the one cause of the others. -/
theorem notInitialisedRule : Obligations.NotInitialisedRule := by
  refine ⟨fun s i h hs hi hinit => exec_ready_raise h (checkOf_not_initialised hs hi hinit),
    fun s t i hi h => ?_⟩
  obtain hz | ⟨c, hk, hc⟩ := exec_fcause h
  · rw [hz]; decide
  · rw [hc, cause_of_hostAccess hi hk]; decide

/-- INITED is set by INIT's one micro-step alone. -/
theorem microStep_initialises {i : Instr} {s t : State} (hm : MicroStep s i t) :
    t.sessInited = s.sessInited ∨ ∃ d, i = .init d ∧ s.seq.phase = 1 := by
  cases hm with
  | init d hp => exact .inr ⟨d, rfl, hp⟩
  | _ => simp

/-- Settles O33: INIT's one check is INITED, which a reset clears and INIT alone sets. -/
theorem reinitRule : Obligations.ReinitRule := by
  refine ⟨fun s d h hs => ?reinit, fun s t d hs h => ?never, fun s t hr h => ?reset,
    fun s t hs h ht => ?writer⟩
  case reinit =>
    have hk : checkOf (.init d) s = some .reinit := by simp [checkOf, initCheck, firstFailing, hs]
    exact exec_ready_raise h hk
  case never =>
    obtain hz | ⟨c, hk, -⟩ := exec_fcause h
    · rw [hz]; decide
    · cases (initCheck_eq_none.2 hs).symm.trans hk
  case reset => rw [step_reset h hr]; rfl
  case writer =>
    have hr : ¬ resetNext s := fun hr => by rw [step_reset h hr] at ht; cases ht
    obtain ho | ⟨i, ⟨hf, hc, -⟩, hm⟩ := step_sequencer_or_not h hr
    · cases (ho.inited.trans hs).symm.trans ht
    · obtain hkept | ⟨d, rfl, hp⟩ := microStep_initialises hm
      · cases (hkept.trans hs).symm.trans ht
      · exact ⟨d, hf, hc, hp⟩

/-! ### Hangs (60_exceptions.md R166, R170) -/

/-- A running command that waits for what does not come: nothing is scheduled, and either the
exchange never ends, since the slave is not wired, or the sequencer waits and the time has
stopped. -/
structure Hung (s : State) : Prop where
  turns : s.turns = []
  unfaulted : faulted s = false
  running : s.seq.cmd ≠ none
  blocked : (engineEnabled s = true ∧ s.wired = false) ∨
    (sequencerWaits s ∧ engineEnabled s = false ∧ s.timeRuns = false)

theorem waits_of_stopped {s : State} (h : s.timeRuns = false) :
    waits s = { s with fresh := s.fresh + 1 } := by
  rw [waits, h]; rfl

theorem Hung.step_waits {s : State} (h : Hung s) : step s = .next (waits s) := by
  rw [step_block (.inl h.turns), turnTaken_nil h.turns]
  obtain ⟨hen, hw⟩ | ⟨hs, hoff, -⟩ := h.blocked
  · exact blockStep_waits (.inr (.inr (.inl ⟨h.running, hen, hw⟩)))
  · exact blockStep_waits (.inr (.inr (.inr ⟨hs, hoff⟩)))

theorem Hung.after_waits {s : State} (h : Hung s) : Hung (waits s) := by
  refine { h with blocked := h.blocked.imp_right ?_ }
  rintro ⟨hs, hoff, hstop⟩
  rw [waits_of_stopped hstop]
  exact ⟨hs, hoff, hstop⟩

/-- Any number of steps only waits. -/
theorem Hung.run_waits {s : State} (h : Hung s) (n : Nat) : ∃ tm fr,
    Host.Core.run Sys2Proof.core n s = .next { s with time := tm, fresh := fr } ∧
      Hung { s with time := tm, fresh := fr } ∧ (s.timeRuns = false → tm = s.time) := by
  induction n generalizing s with
  | zero => exact ⟨s.time, s.fresh, rfl, h, fun _ => rfl⟩
  | succ n ih =>
    obtain ⟨tm, fr, hrun, hend, htime⟩ := ih h.after_waits
    refine ⟨tm, fr, (run_succ n h.step_waits).trans hrun, hend, fun hstop => ?_⟩
    rw [htime hstop, waits_of_stopped hstop]

theorem Hung.ready_eq_false {s : State} (h : Hung s) : ready s = false := by
  simp [ready, seqIdle, h.running]

theorem Hung.not_endedWell {s : State} (h : Hung s) : ¬ endedWell s := by
  rintro ⟨-, -, hidle, -⟩
  exact h.running (Option.isNone_iff_eq_none.1 hidle)

theorem Hung.goes_wrong {s : State} (h : Hung s) : goneWrong s := by
  refine .inr fun n => ?_
  obtain ⟨tm, fr, hrun, hend, -⟩ := h.run_waits n
  exact ⟨_, hrun, hend.not_endedWell, hend.unfaulted⟩

/-- Settles O57: the exchange waits for a slave that is not wired. -/
theorem brokenWiringHangs : Obligations.BrokenWiringHangs := by
  intro s i hturns hf hc hen hw
  have h : Hung s := ⟨hturns, hf, by simp [hc], .inl ⟨hen, hw⟩⟩
  refine ⟨h.goes_wrong, fun n => ?_⟩
  obtain ⟨tm, fr, hrun, hend, -⟩ := h.run_waits n
  exact ⟨_, tm, fr, hrun, rfl, hend.ready_eq_false, hend.unfaulted⟩

/-- Settles O58: the delay wait is before its deadline and stays there, since the time has
stopped. -/
theorem stoppedTimeHangs : Obligations.StoppedTimeHangs := by
  intro s id hturns hstop hoff hrun hd
  have hs : sequencerWaits s := .inl ⟨id, hrun, hd⟩
  obtain ⟨i, p, ⟨hf, hc, -⟩, -⟩ := sequencerWaits_exec hs
  have h : Hung s := ⟨hturns, hf, by simp [hc], .inr ⟨hs, hoff, hstop⟩⟩
  refine ⟨h.goes_wrong, fun n => ?_⟩
  obtain ⟨tm, fr, hrun, hend, htime⟩ := h.run_waits n
  obtain rfl := htime hstop
  exact ⟨_, fr, hrun, rfl, hend.ready_eq_false, hend.unfaulted⟩

end Sys2Proof.Machine

/-! Reset and the end of a run (70_reset_and_hazards.md R180 to R182, R199). -/

namespace Sys2Proof.Machine

/-! ### Reset (70_reset_and_hazards.md R180, 10_state.md R10) -/

@[simp] theorem slotAt_replicate (x : Slot) (i : BitVec 3) :
    slotAt (Vector.replicate 8 x) i = x := by
  simp [slotAt]

@[simp] theorem lineBit_replicate_zero (l : Line) :
    lineBit (Vector.replicate 4 0#8) l = false := by
  simp [lineBit, portAt]

@[simp] theorem bufAt_resetBlock (s : State) (a : Byte) : bufAt (resetBlock s) a = none := rfl

@[simp] theorem ready_resetBlock (s : State) : ready (resetBlock s) = true := rfl

/-- Settles O10: the reset turn is `resetBlock`, which `resetBlock_fields` gives element by
element. -/
theorem resetFromAnyState : Obligations.ResetFromAnyState := by
  intro s rest hturns
  refine ⟨resetBlock { s with turns := rest }, step_env hturns, ?_⟩
  simp [Slot.reset, Seq.reset]

/-! ### How a run ends (70_reset_and_hazards.md R199) -/

/-- No run stops: it has a state after any number of steps. -/
theorem run_total (n : Nat) (s : State) : ∃ t, Host.Core.run Sys2Proof.core n s = .next t := by
  induction n generalizing s with
  | zero => exact ⟨s, rfl⟩
  | succ n ih =>
    obtain ⟨u, hu⟩ := everyStepAnswersNextState s
    rw [run_succ n hu]
    exact ih u

theorem not_endedWell_of_faulted {s : State} (hf : faulted s = true) : ¬ endedWell s := by
  rintro ⟨-, -, -, -, hnf⟩
  exact Bool.false_ne_true (hnf.symm.trans hf)

/-- The environment hands the host no word and starts no exchange, and a reset keeps the host's
queue and the history. -/
theorem endedWell_envMove {s : State} (h : endedWell s) (m : EnvMove) :
    endedWell (envMove m s) := by
  obtain ⟨hhost, hdone, hidle, hbusy, hnf⟩ := h
  cases m with
  | rst => exact ⟨hhost, hdone, rfl, rfl, rfl⟩
  | _ => exact ⟨hhost, hdone, hidle, hbusy, hnf⟩

/-- An idle block without a word to accept only waits. -/
theorem endedWell_blockStep {s t : State} (h : endedWell s) (hb : blockStep s = .next t) :
    endedWell t := by
  have ⟨hhost, _, hidle, _⟩ := h
  have hw : blockStep s = .next (waits s) :=
    blockStep_waits (.inr (.inl ⟨Option.isNone_iff_eq_none.1 hidle, hhost⟩))
  cases hw.symm.trans hb
  exact h

theorem step_endedWell {s t : State} (h : endedWell s) (hs : step s = .next t) : endedWell t := by
  have h' : endedWell (turnTaken s) := h
  obtain ⟨m, -, rfl⟩ | ⟨-, hb⟩ := step_cases hs
  · exact endedWell_envMove h' m
  · exact endedWell_blockStep h' hb

/-- A run that never ends well and never faults is a hang, since no run stops. -/
theorem hangs_or_ends (s : State) : hangs s ∨
    ∃ n t, Host.Core.run Sys2Proof.core n s = .next t ∧ (endedWell t ∨ faulted t = true) := by
  refine or_iff_not_imp_right.2 fun hno n => ?_
  obtain ⟨t, hrun⟩ := run_total n s
  have hgo : ¬ (endedWell t ∨ faulted t = true) := fun hend => hno ⟨n, t, hrun, hend⟩
  obtain ⟨hne, hnf⟩ := not_or.1 hgo
  exact ⟨t, hrun, hne, Bool.eq_false_iff.2 hnf⟩

/-- A run gone wrong without a fault is a hang, so none of its states has ended. -/
theorem goneWrong_run_unended {s t : State} {n : Nat} (hw : goneWrong s) (hnf : faulted s = false)
    (hrun : Host.Core.run Sys2Proof.core n s = .next t) : ¬ endedWell t ∧ faulted t = false := by
  obtain hf | hh := hw
  · exact absurd (hnf.symm.trans hf) Bool.false_ne_true
  · obtain ⟨u, hu, hend⟩ := hh n
    cases hu.symm.trans hrun
    exact hend

theorem endedWell_not_goneWrong {s : State} (h : endedWell s) : ¬ goneWrong s := by
  have ⟨_, _, _, _, hnf⟩ := h
  exact fun hw => (goneWrong_run_unended (n := 0) hw hnf rfl).1 h

theorem endedWell_reset : endedWell State.reset := ⟨rfl, rfl, rfl, rfl, rfl⟩

/-- Settles O59: no run stops, so one that does not end is a hang; a good end is idle with no word
left, which no step changes. -/
theorem endOfARun : Obligations.EndOfARun :=
  ⟨hangs_or_ends, fun _ => endedWell_not_goneWrong, fun _ _ => step_endedWell,
    fun _ hf => ⟨.inl hf, not_endedWell_of_faulted hf⟩, fun _ _ _ => goneWrong_run_unended,
    endedWell_reset⟩

end Sys2Proof.Machine
